-- ==== Sys2Proof/Word.lean ====
section
/-! DEFINITION. Word.lean: the widths of risc-sim CORE (00_scope.md R6, R9). -/

namespace Sys2Proof

/-- A 16-bit register, bus or instruction value (R6). -/
abbrev Word := BitVec 16

/-- A memory cell, a key or an I/O byte (R6). -/
abbrev Byte := BitVec 8

/-- The number of one of the sixteen general registers (R20): a 4-bit field names each of them directly (R83). -/
abbrev Reg := Fin 16

end Sys2Proof
end

