-- ==== Sys2Proof/Machine/Bits.lean ====
section
/-! DEFINITION. Machine/Bits.lean: byte order, bit fields and widening (00_scope.md R9; 20_memory.md R60). -/

namespace Sys2Proof

/-- `w[7:0]`, the byte stored at the lower address (R60). -/
def loByte (w : Word) : Byte := w.extractLsb' 0 8

/-- `w[15:8]`, the byte stored at the higher address (R60); of an instruction word, the triple (R81). -/
def hiByte (w : Word) : Byte := w.extractLsb' 8 8

/-- `hi :: lo` (R9): the little-endian word whose low byte is `lo` (R60). -/
def wordOfBytes (lo hi : Byte) : Word := hi ++ lo

/-- `zext_16` of a byte (R9). -/
def zextByte (b : Byte) : Word := b.setWidth 16

/-- The value the JMP family adds to `pc`: the 16-bit two's complement of its byte offset, `sext_16(off)` (R86, R182). -/
def sextOffset (off : Int) : Word := BitVec.ofInt 16 off

/-- `twos(v) = ~v +_16 1` (42_alu.md R141). -/
def twos (v : Word) : Word := ~~~v + 1

end Sys2Proof
end

