-- ==== Sys2Proof/Config.lean ====
section
/-! DEFINITION. Config.lean: the parameters of risc-sim CORE that no step changes (00_scope.md R7, R8).
Their default values stand in Machine/Defaults.lean. No free value is needed: every value an instruction leaves is given
by a rule of the spec. -/

namespace Sys2Proof

/-- `STACK_ORDER` (R8, D14, C1). The two consistent disciplines of 90_conflicts.md C1. -/
inductive StackOrder where
  /-- Discipline (A), the default: decrement then write, read then increment. -/
  | predecPostinc
  /-- Discipline (B): write then decrement, increment then read. -/
  | postdecPreinc
deriving DecidableEq, Repr

/-- `STRADDLE_POLICY` (R8, R57, D6): what a word access at the last RAM byte does. -/
inductive StraddlePolicy where
  /-- The default: the missing high byte reads 0x00 and is dropped on a write. -/
  | bytewise
  /-- The access has no step: the model stops with `Fault.straddlingWord`. -/
  | fault
deriving DecidableEq, Repr

/-- `SUB_V_RULE` (R8, R143, D13): how SUB computes its overflow flag. -/
inductive SubVRule where
  /-- The default: the signed overflow of `a - b`. -/
  | trueSigned
  /-- The other reading R143 describes: the signed overflow of the addition `a + twos(b)`. -/
  | twosAddition
deriving DecidableEq, Repr

/-- The parameters of R8 for which the spec names more than one value. No step changes them; that a host reset may is the
model's choice (log entry 37). -/
structure Config where
  stackOrder : StackOrder
  straddlePolicy : StraddlePolicy
  subVRule : SubVRule
deriving DecidableEq, Repr

/-- What a reset takes: `RAM_SIZE`, `START_ADDRESS`, `IMAGE` (R7, R210); and the parameters above, which R210 does not name
(DESIGN CHOICE, log entry 37). -/
structure ResetConfig where
  ramSize : Nat
  startAddress : Word
  image : List Byte
  config : Config
deriving DecidableEq, Repr

end Sys2Proof
end

