-- ==== Sys2Proof/Machine/Defaults.lean ====
section
/-! DEFINITION. Machine/Defaults.lean: the values the parameters take in the machine `State.reset` builds
(00_scope.md R7, R8; 92_eei_decisions.md). -/

namespace Sys2Proof

/-- The defaults of R8: STACK_ORDER (D14), STRADDLE_POLICY (D6), SUB_V_RULE (D13). -/
def defaultConfig : Config :=
  { stackOrder := .predecPostinc, straddlePolicy := .bytewise, subVRule := .trueSigned }

/-- DESIGN CHOICE, log entry 1: the spec leaves RAM_SIZE, START_ADDRESS and IMAGE open (D22, D23) and `State.reset`
needs one machine: the largest RAM, start at 0, no image. -/
def defaultReset : ResetConfig :=
  { ramSize := 65536, startAddress := 0, image := [], config := defaultConfig }

/-- The range of RAM_SIZE: 2 <= RAM_SIZE <= 65536 (R7, D22). -/
def ramSizeOk (n : Nat) : Bool := decide (2 ≤ n) && decide (n ≤ 65536)

end Sys2Proof
end

