-- ==== Sys2Proof/Machine/Memory.lean ====
section
/-! DEFINITION. Machine/Memory.lean: RAM bytes as plain data in one canonical form (10_state.md R32), and the placing
of the image (70_reset_and_hazards.md R212). -/

namespace Sys2Proof.Machine

/-- RAM contents: (address, byte) pairs, addresses strictly rising, no listed byte equal to `blankByte`. -/
abbrev Memory := List Host.Cell

/-- What an unlisted RAM address reads as: the zero-filled RAM of reset (R32). -/
def blankByte : Byte := 0x00

/-- The byte at an address. -/
def Memory.read : Memory → Nat → Byte
  | [], _ => blankByte
  | (k, b) :: m, a => if k = a then b else Memory.read m a

/-- Take an address off the list. -/
def Memory.erase (m : Memory) (a : Nat) : Memory := m.filter fun c => decide (c.1 ≠ a)

/-- Put a pair before the first higher address. -/
def Memory.insert (m : Memory) (a : Nat) (b : Byte) : Memory :=
  match m with
  | [] => [(a, b)]
  | (k, c) :: m => if a < k then (a, b) :: (k, c) :: m else (k, c) :: Memory.insert m a b

/-- Store a byte, keeping the canonical form. -/
def Memory.write (m : Memory) (a : Nat) (b : Byte) : Memory :=
  if b = blankByte then Memory.erase m a else Memory.insert (Memory.erase m a) a b

/-- The canonical form: every address is at least `lo` and addresses rise strictly, and no byte is `blankByte`. -/
def Memory.sortedFrom : Nat → Memory → Bool
  | _, [] => true
  | lo, (k, b) :: m => decide (lo ≤ k) && decide (b ≠ blankByte) && Memory.sortedFrom (k + 1) m

/-- The canonical form of a memory. -/
def Memory.wf (m : Memory) : Bool := Memory.sortedFrom 0 m

/-- Every listed address is below `n` (R32: RAM is addressed 0 .. size-1). -/
def Memory.below (n : Nat) (m : Memory) : Bool := m.all fun c => decide (c.1 < n)

/-- Place bytes from address `a` on; bytes at or beyond `ramSize` are dropped (R212). -/
def Memory.place (ramSize : Nat) : Nat → List Byte → Memory → Memory
  | _, [], m => m
  | a, b :: bs, m => if a < ramSize then Memory.place ramSize (a + 1) bs (Memory.write m a b) else m

/-- RAM after reset: zero-filled, then image byte `i` at address `i` (R210, R212). -/
def loadImage (ramSize : Nat) (image : List Byte) : Memory := Memory.place ramSize 0 image []

end Sys2Proof.Machine
end

