-- ==== Sys2Proof/Machine/State.lean ====
section
/-! DEFINITION. Machine/State.lean: every piece of state of risc-sim CORE as plain data (10_state.md), the state after a
reset (R34, R210), and the reasons a step can stop. -/

namespace Sys2Proof.Machine

/-- The six phase tags (10_state.md R28, 40_phase_machine.md R100); their 8-bit values are `Phase.tag`. -/
inductive Phase where
  /-- Instruction Fetch, 0x00. -/
  | IF
  /-- Instruction Decode, 0x01. -/
  | ID
  /-- Operand Fetch, 0x02. -/
  | OF
  /-- Instruction Execute, 0x03. -/
  | IE
  /-- Deliberate halt, 0xF0. -/
  | HALTED
  /-- Illegal-instruction stall, 0xFF. -/
  | FAULT
deriving DecidableEq, Repr

/-- The status flags Z, N, C, V: four separate bits (R23, R24). -/
structure Flags where
  z : Bool
  n : Bool
  c : Bool
  v : Bool
deriving DecidableEq, Repr

/-- The system bus: address, data and the three control bits (R31; 20_memory.md R52). `read`: 1 read, 0 write.
`msel`: 1 memory, 0 I/O. `word`: 1 word, 0 byte. -/
structure Bus where
  address : Word
  data : Word
  read : Bool
  msel : Bool
  word : Bool
deriving DecidableEq, Repr

/-- The I/O device: the pending key and the bytes written to port 0 since reset (R33). -/
structure Iod where
  key : Byte
  out : List Byte
deriving DecidableEq, Repr

/-- The machine's state. `cfg` and `keyInputs` are the model's own fields: the parameters of R8, and the host's schedule
of `Input(k)` calls (R216), one entry for each coming tick. -/
structure State where
  regs : Vector Word 16
  pc : Word
  sp : Word
  ir : Word
  ar : Word
  dr : Word
  flags : Flags
  phaseNow : Phase
  phaseNext : Phase
  bus : Bus
  ramSize : Nat
  mem : Memory
  iod : Iod
  cfg : Config
  keyInputs : List (Option Byte)
deriving DecidableEq, Repr

/-- Why the machine stops. The illegal instruction is not here: it leads to the terminal phase FAULT, a next state
(R109). -/
inductive Fault where
  /-- Raised by the memory controller on a word access at the last RAM byte, only under STRADDLE_POLICY = fault, which
  "gives such an access no step" (R57). Safe: the default policy goes on. -/
  | straddlingWord (address : Word)
deriving DecidableEq, Repr

/-- Why the model gives no next state. -/
inductive Refusal where
  /-- Raised by exec's arm of an instruction that has no meaning yet; no arm raises it now. Safe. -/
  | notModelled (mnemonic : String)
  /-- Raised by the host operation that calls a phase other than the due one (R100, D25, U20: "refused"). Safe. -/
  | phaseOutOfTurn (called due : Phase)
  /-- Raised by a host reset whose RAM_SIZE is outside 2 .. 65536 (R7). Safe. -/
  | badRamSize (ramSize : Nat)
deriving DecidableEq, Repr

/-- The state after `Reset(RAM_SIZE, START_ADDRESS, IMAGE)` (R34, R210, R212). -/
def State.resetWith (r : ResetConfig) : State :=
  { regs := Vector.replicate 16 0
    pc := r.startAddress
    sp := BitVec.ofNat 16 (r.ramSize - 2)
    ir := 0
    ar := 0
    dr := 0
    flags := { z := false, n := false, c := false, v := false }
    phaseNow := .IF
    phaseNext := .IF
    bus := { address := 0, data := 0, read := false, msel := false, word := false }
    ramSize := r.ramSize
    mem := loadImage r.ramSize r.image
    iod := { key := 0, out := [] }
    cfg := r.config
    keyInputs := [] }

/-- The machine right after reset, with the open parameters of `defaultReset` (log entry 1). -/
def State.reset : State := State.resetWith defaultReset

/-- What a step, a phase or an instruction's meaning answers. -/
abbrev Res := Host.Outcome State Fault Refusal

end Sys2Proof.Machine
end

