-- ==== Sys2Proof/Machine/Ops.lean ====
section
/-! DEFINITION. Machine/Ops.lean: the named operations over registers, memory and the bus (20_memory.md R50 to R59),
the IOD as a bus slave (60_exceptions.md R199 to R202), the stack (41_data_transfer.md R121, R122), and taking the one
fault (40_phase_machine.md R109). -/

namespace Sys2Proof.Machine

/-- Go on with `f` where `o` answers a next state. -/
def andThen (o : Res) (f : State → Res) : Res :=
  match o with
  | .next s => f s
  | .fault r => .fault r
  | .refused r => .refused r

/-- Widths of a transaction (R58: `n` is 1 or 2 bytes). -/
inductive Width where
  | byte
  | word
deriving DecidableEq, Repr

/-- `bus.word`, which is 1 for a word (R52, R58). -/
def Width.isWord : Width → Bool
  | .byte => false
  | .word => true

/-! Registers -/

/-- `x[r]` (R20). -/
def State.reg (s : State) (r : Reg) : Word := s.regs.get r

/-- `x[r] <- v` (R20): every register is an ordinary one. -/
def State.setReg (s : State) (r : Reg) (v : Word) : State := { s with regs := s.regs.set r.val v r.isLt }

/-- `ALU.load(r, v)`, the ALU's own interface: an index outside 0..15 is a no-op (R21). -/
def State.aluLoad (s : State) (r : Nat) (v : Word) : State := if h : r < 16 then s.setReg ⟨r, h⟩ v else s

/-- `ALU.get(r)` for an index in 0..15 (R21). -/
def State.aluGet (s : State) (r : Nat) : Option Word := if h : r < 16 then some (s.reg ⟨r, h⟩) else none

/-! The memory controller -/

/-- `get(address)`: the direct peek, 0 outside RAM (R70); also the missing byte of a straddling word read (R57). -/
def State.peek (s : State) (a : Nat) : Byte := if a < s.ramSize then Memory.read s.mem a else 0

/-- Store one byte if the address is in RAM; otherwise nothing (R55, R57). -/
def State.poke (s : State) (a : Nat) (b : Byte) : State :=
  if a < s.ramSize then { s with mem := Memory.write s.mem a b } else s

/-- The word or byte the controller puts on the data line (R54): a byte is zero-extended (D5), a word is
little-endian, and a byte outside RAM reads 0x00 (R57). -/
def State.memValue (s : State) (a : Nat) (word : Bool) : Word :=
  if word then wordOfBytes (s.peek a) (s.peek (a + 1)) else zextByte (s.peek a)

/-- What is on the data line after a memory read at `a`: the controller's answer, or, outside RAM, the value that was
there before (R56, R71). -/
def State.memAnswer (s : State) (a : Word) (word : Bool) : Word :=
  if a.toNat < s.ramSize then s.memValue a.toNat word else s.bus.data

/-- Store bits 7:0 of `v` at `a` and, for a word, bits 15:8 at `a + 1` if that is in RAM (R55). -/
def State.memStore (s : State) (a : Nat) (word : Bool) (v : Word) : State :=
  if word then (s.poke a (loByte v)).poke (a + 1) (hiByte v) else s.poke a (loByte v)

/-- A word access at the last RAM byte: `a < RAM_SIZE` and `a + 1 >= RAM_SIZE`, without wrap (R57). -/
def State.straddles (s : State) : Bool := s.bus.word && decide (s.bus.address.toNat + 1 = s.ramSize)

/-- `MemoryOperate()` (R54 to R57). -/
def memoryOperate (s : State) : Res :=
  if s.ramSize ≤ s.bus.address.toNat then .next s
  else if s.straddles && decide (s.cfg.straddlePolicy = .fault) then .fault (.straddlingWord s.bus.address)
  else if s.bus.read then
    .next { s with bus := { s.bus with data := s.memValue s.bus.address.toNat s.bus.word } }
  else .next (s.memStore s.bus.address.toNat s.bus.word s.bus.data)

/-! The IOD -/

/-- `IodOperate()` (60_exceptions.md R199, R201, R202): port 1 answers a read with the key and clears it, port 0 takes
the low byte of a write; no other access is answered, and `bus.word` is not looked at (D18). -/
def iodOperate (s : State) : State :=
  if s.bus.read && s.bus.address == 0x0001 then
    { s with bus := { s.bus with data := zextByte s.iod.key }, iod := { s.iod with key := 0 } }
  else if !s.bus.read && s.bus.address == 0x0000 then
    { s with iod := { s.iod with out := s.iod.out ++ [loByte s.bus.data] } }
  else s

/-- `Input(k)`: the host latches a key, replacing one not yet read (R200). -/
def State.latchKey (s : State) (k : Byte) : State := { s with iod := { s.iod with key := k } }

/-! The bus -/

/-- `reset_bus()` (R51). -/
def State.resetBus (s : State) : State :=
  { s with bus := { address := 0, data := 0, read := false, msel := false, word := false } }

/-- `BusCycle()`: exactly one slave answers (R53). -/
def busCycle (s : State) : Res := if s.bus.msel then memoryOperate s else .next (iodOperate s)

/-- `BusRead(a, sel, n)` (R58). The value read stays on `bus.data`. -/
def busRead (a : Word) (sel : Bool) (n : Width) (s : State) : Res :=
  andThen (busCycle { s with
      bus := { address := a, data := s.bus.data, read := true, msel := sel, word := n.isWord }, ar := a })
    fun t => .next { t with dr := t.bus.data }

/-- `BusWrite(a, sel, n, v)` (R58). -/
def busWrite (a : Word) (sel : Bool) (n : Width) (v : Word) (s : State) : Res :=
  busCycle { s with
    bus := { address := a, data := v, read := false, msel := sel, word := n.isWord }, ar := a, dr := v }

/-- `MemRead(a, n)` (R59). -/
def memRead (a : Word) (n : Width) (s : State) : Res := busRead a true n s

/-- `MemWrite(a, n, v)` (R59). -/
def memWrite (a : Word) (n : Width) (v : Word) (s : State) : Res := busWrite a true n v s

/-- `IoRead(a, n)` (R59). -/
def ioRead (a : Word) (n : Width) (s : State) : Res := busRead a false n s

/-- `IoWrite(a, n, v)` (R59). -/
def ioWrite (a : Word) (n : Width) (v : Word) (s : State) : Res := busWrite a false n v s

/-! The stack (R121, R122, D14, C1) -/

/-- The address a pushed word goes to. -/
def State.pushAddress (s : State) : Word :=
  match s.cfg.stackOrder with
  | .predecPostinc => s.sp - 2
  | .postdecPreinc => s.sp

/-- The address a popped word comes from. -/
def State.popAddress (s : State) : Word :=
  match s.cfg.stackOrder with
  | .predecPostinc => s.sp
  | .postdecPreinc => s.sp + 2

/-- Push a word: `sp` goes down by 2 and the word is written. The write does not depend on `sp`, so one order of the two
statements serves both disciplines. -/
def pushWord (v : Word) (s : State) : Res := memWrite s.pushAddress .word v { s with sp := s.sp - 2 }

/-- Pop a word onto `bus.data`: the word is read and `sp` goes up by 2. -/
def popWord (s : State) : Res := memRead s.popAddress .word { s with sp := s.sp + 2 }

/-! Ending an instruction -/

/-- The end of every arm but HLT's: `phase_next <- 0x00` (R108). -/
def finish (s : State) : Res := .next { s with phaseNext := .IF }

/-- `halt`: `phase_next <- 0xF0` (R11, R180). -/
def haltMachine (s : State) : Res := .next { s with phaseNext := .HALTED }

/-- `raise Fault(IllegalInstruction)` (R11, R109): `phase_next <- 0xFF` and nothing else; nothing is saved and control
goes nowhere (60_exceptions.md R194). There is no return from it (R195): only a reset leaves it. -/
def raiseIllegal (s : State) : Res := .next { s with phaseNext := .FAULT }

end Sys2Proof.Machine
end

