-- ==== Sys2Proof/Machine/Flags.lean ====
section
/-! DEFINITION. Machine/Flags.lean: every flag computation of the spec (41_data_transfer.md R135; 42_alu.md R140 to
R152; 43_io.md R162, R163). -/

namespace Sys2Proof.Machine

/-- `Z` of a 16-bit result (R152). -/
def zeroFlag (r : Word) : Bool := r == 0

/-- `N` of a 16-bit result: its bit 15 (R152). -/
def negativeFlag (r : Word) : Bool := r.msb

/-- All four flags, `Z` and `N` from the result `r` (R152 `ZN(r)`). -/
def flagsOf (r : Word) (c v : Bool) : Flags := { z := zeroFlag r, n := negativeFlag r, c := c, v := v }

/-- `addV(a, b, r)`: the signed sum differs from the wrapped result (R152). -/
def addV (a b r : Word) : Bool := decide (a.toInt + b.toInt ≠ r.toInt)

/-- `subV(a, b, r)`: the signed difference differs from the wrapped result (R152). -/
def subV (a b r : Word) : Bool := decide (a.toInt - b.toInt ≠ r.toInt)

/-- The flags of ADD: `C` is unsigned overflow past 0xFFFF, `V` signed overflow (R142). -/
def addFlags (a b : Word) : Flags := flagsOf (a + b) (decide (a.toNat + b.toNat > 0xFFFF)) (addV a b (a + b))

/-- `V` of SUB under either value of SUB_V_RULE (R143, D13). -/
def subOverflow (rule : SubVRule) (a b : Word) : Bool :=
  match rule with
  | .trueSigned => subV a b (a - b)
  | .twosAddition => addV a (twos b) (a - b)

/-- The flags of SUB: `C` by the two's-complement addition (R143). -/
def subFlags (rule : SubVRule) (a b : Word) : Flags :=
  flagsOf (a - b) (decide (a.toNat + (twos b).toNat > 0xFFFF)) (subOverflow rule a b)

/-- The flags of NOT, AND, OR, XOR: `C` and `V` cleared (R144 to R147). -/
def logicFlags (r : Word) : Flags := flagsOf r false false

/-- The flags of INC, from the boundary values before the increment (R148). -/
def incFlags (a : Word) : Flags := flagsOf (a + 1) (a == 0xFFFF) (a == 0x7FFF)

/-- The flags of DEC: `C` is always 1 (R149). -/
def decFlags (a : Word) : Flags := flagsOf (a - 1) true (a == 0x8000)

/-- LSH: one position, a zero enters bit 0 (R150). -/
def lshValue (a : Word) : Word := a <<< 1

/-- RSH: one position, logical, a zero enters bit 15 (R151, D12). -/
def rshValue (a : Word) : Word := a >>> 1

/-- The flags of LSH: `C` is the old bit 15, `V` cleared (R150). -/
def lshFlags (a : Word) : Flags := flagsOf (lshValue a) (a.getLsbD 15) false

/-- The flags of RSH: `C` is the old bit 0, `V` cleared (R151). -/
def rshFlags (a : Word) : Flags := flagsOf (rshValue a) (a.getLsbD 0) false

/-- Write the flags. -/
def State.setFlags (s : State) (f : Flags) : State := { s with flags := f }

/-- `SetZN(v)`: `C` and `V` are not touched (R135, D9). -/
def State.setZN (s : State) (v : Word) : State :=
  { s with flags := { s.flags with z := zeroFlag v, n := negativeFlag v } }

/-- Write `Z` alone (R162, R163). -/
def State.setZ (s : State) (b : Bool) : State := { s with flags := { s.flags with z := b } }

/-- TSTI's readiness of the input side: port 1 with a non-zero key latched (R162, D17). -/
def inputReady (s : State) (port : Word) : Bool := port == 1 && s.iod.key != 0

/-- TSTO's readiness of the output side: port 0, always (R163, D17). -/
def outputReady (port : Word) : Bool := port == 0

end Sys2Proof.Machine
end

