-- ==== Sys2Proof/Syntax.lean ====
section
/-! DEFINITION. Syntax.lean: the forty instructions of risc-sim CORE (30_encoding.md R82, R83, R84, R86, R87). -/

namespace Sys2Proof

/-- The names of the rows of the opcode map (R87). `CP` is a second name of `mv` (R95, D3). -/
inductive Op where
  | mv | push | pop | sprd | spwr | ldwi | ldbi | ldwa | ldba | stwa
  | stba | ldwr | ldbr | stwr | stbr | add | sub | not | and | or
  | xor | inc | dec | lsh | rsh | inb | outb | tsti | tsto | br
  | jmp | jmpz | jmpnz | jmpn | jmpnn | jmpc | jmpv | call | ret | hlt
deriving DecidableEq, Repr

/-- An instruction with the operands its format carries (R82). `ra` and `rb` are the register fields, the 16-bit
operand of the RX and JX formats is the whole extension word (R84), and `off` is the signed byte offset of the JMP
family, read as the integer it stands for (R86). Fields an instruction ignores (R88) are not part of it. -/
inductive Instr where
  /-- MV (R120). -/
  | mv (ra rb : Reg)
  /-- PUSH (R121). -/
  | push (ra : Reg)
  /-- POP (R122). -/
  | pop (ra : Reg)
  /-- SPRD (R123). -/
  | sprd (ra : Reg)
  /-- SPWR (R124). -/
  | spwr (ra : Reg)
  /-- LDWI (R125). -/
  | ldwi (ra : Reg) (imm : Word)
  /-- LDBI (R126). -/
  | ldbi (ra : Reg) (imm : Word)
  /-- LDWA (R127). -/
  | ldwa (ra : Reg) (addr : Word)
  /-- LDBA (R128). -/
  | ldba (ra : Reg) (addr : Word)
  /-- STWA (R131). -/
  | stwa (ra : Reg) (addr : Word)
  /-- STBA (R132). -/
  | stba (ra : Reg) (addr : Word)
  /-- LDWR (R129). -/
  | ldwr (ra rb : Reg)
  /-- LDBR (R130). -/
  | ldbr (ra rb : Reg)
  /-- STWR (R133). -/
  | stwr (ra rb : Reg)
  /-- STBR (R134). -/
  | stbr (ra rb : Reg)
  /-- ADD (R142). -/
  | add (ra rb : Reg)
  /-- SUB (R143). -/
  | sub (ra rb : Reg)
  /-- NOT (R144). -/
  | not (ra : Reg)
  /-- AND (R145). -/
  | and (ra rb : Reg)
  /-- OR (R146). -/
  | or (ra rb : Reg)
  /-- XOR (R147). -/
  | xor (ra rb : Reg)
  /-- INC (R148). -/
  | inc (ra : Reg)
  /-- DEC (R149). -/
  | dec (ra : Reg)
  /-- LSH (R150). -/
  | lsh (ra : Reg)
  /-- RSH (R151). -/
  | rsh (ra : Reg)
  /-- INB (R160). -/
  | inb (ra : Reg) (port : Word)
  /-- OUTB (R161). -/
  | outb (ra : Reg) (port : Word)
  /-- TSTI (R162). -/
  | tsti (port : Word)
  /-- TSTO (R163). -/
  | tsto (port : Word)
  /-- BR (R170). -/
  | br (target : Word)
  /-- JMP (R171). -/
  | jmp (off : Int)
  /-- JMPZ (R172). -/
  | jmpz (off : Int)
  /-- JMPNZ (R173). -/
  | jmpnz (off : Int)
  /-- JMPN (R174). -/
  | jmpn (off : Int)
  /-- JMPNN (R175). -/
  | jmpnn (off : Int)
  /-- JMPC (R176). -/
  | jmpc (off : Int)
  /-- JMPV (R177). -/
  | jmpv (off : Int)
  /-- CALL (R178). -/
  | call (target : Word)
  /-- RET (R179). -/
  | ret
  /-- HLT (R180). -/
  | hlt
deriving DecidableEq, Repr

/-- The row of the opcode map an instruction belongs to (R87). -/
def Instr.op : Instr → Op
  | .mv _ _ => .mv
  | .push _ => .push
  | .pop _ => .pop
  | .sprd _ => .sprd
  | .spwr _ => .spwr
  | .ldwi _ _ => .ldwi
  | .ldbi _ _ => .ldbi
  | .ldwa _ _ => .ldwa
  | .ldba _ _ => .ldba
  | .stwa _ _ => .stwa
  | .stba _ _ => .stba
  | .ldwr _ _ => .ldwr
  | .ldbr _ _ => .ldbr
  | .stwr _ _ => .stwr
  | .stbr _ _ => .stbr
  | .add _ _ => .add
  | .sub _ _ => .sub
  | .not _ => .not
  | .and _ _ => .and
  | .or _ _ => .or
  | .xor _ _ => .xor
  | .inc _ => .inc
  | .dec _ => .dec
  | .lsh _ => .lsh
  | .rsh _ => .rsh
  | .inb _ _ => .inb
  | .outb _ _ => .outb
  | .tsti _ => .tsti
  | .tsto _ => .tsto
  | .br _ => .br
  | .jmp _ => .jmp
  | .jmpz _ => .jmpz
  | .jmpnz _ => .jmpnz
  | .jmpn _ => .jmpn
  | .jmpnn _ => .jmpnn
  | .jmpc _ => .jmpc
  | .jmpv _ => .jmpv
  | .call _ => .call
  | .ret => .ret
  | .hlt => .hlt

end Sys2Proof
end

