-- ==== Sys2Proof/WellFormed.lean ====
section
/-! DEFINITION. WellFormed.lean: which instruction terms have an encoding (30_encoding.md R82, R83, R84, R86).
Register numbers and extension words are well formed by their types; the one check left is the range of `off`. -/

namespace Sys2Proof

/-- The range of the 8-bit signed relative offset: -128 to +127 (R86). -/
def offsetInRange (off : Int) : Bool := decide (-128 ≤ off) && decide (off ≤ 127)

/-- The check of an instruction term: the JMP family's offset is in range; nothing else can go wrong. -/
def Instr.check : Instr → Bool
  | .mv _ _ => true
  | .push _ => true
  | .pop _ => true
  | .sprd _ => true
  | .spwr _ => true
  | .ldwi _ _ => true
  | .ldbi _ _ => true
  | .ldwa _ _ => true
  | .ldba _ _ => true
  | .stwa _ _ => true
  | .stba _ _ => true
  | .ldwr _ _ => true
  | .ldbr _ _ => true
  | .stwr _ _ => true
  | .stbr _ _ => true
  | .add _ _ => true
  | .sub _ _ => true
  | .not _ => true
  | .and _ _ => true
  | .or _ _ => true
  | .xor _ _ => true
  | .inc _ => true
  | .dec _ => true
  | .lsh _ => true
  | .rsh _ => true
  | .inb _ _ => true
  | .outb _ _ => true
  | .tsti _ => true
  | .tsto _ => true
  | .br _ => true
  | .jmp off => offsetInRange off
  | .jmpz off => offsetInRange off
  | .jmpnz off => offsetInRange off
  | .jmpn off => offsetInRange off
  | .jmpnn off => offsetInRange off
  | .jmpc off => offsetInRange off
  | .jmpv off => offsetInRange off
  | .call _ => true
  | .ret => true
  | .hlt => true

/-- A well-formed instruction: one that has an encoding. -/
abbrev WellFormed (i : Instr) : Prop := i.check = true

end Sys2Proof
end

