-- ==== Sys2Proof/Decode.lean ====
section
/-! DEFINITION. Decode.lean: the opcode map, the decoder and, after it, the encoder (30_encoding.md R80 to R91).
The map's numbers are the spec's default OPCODE_MAP (R87, D1); decoder and encoder share the one table `Op.hi`. -/

namespace Sys2Proof

/-- `OPCODE_MAP` (R87): the high byte `ir[15:8]` of each row. -/
def Op.hi : Op → Byte
  | .mv => 0x04
  | .push => 0x08
  | .pop => 0x09
  | .sprd => 0x0D
  | .spwr => 0x0E
  | .ldwi => 0x10
  | .ldbi => 0x11
  | .ldwa => 0x20
  | .ldba => 0x21
  | .stwa => 0x22
  | .stba => 0x23
  | .ldwr => 0x30
  | .ldbr => 0x31
  | .stwr => 0x32
  | .stbr => 0x33
  | .add => 0x40
  | .sub => 0x41
  | .not => 0x42
  | .and => 0x43
  | .or => 0x44
  | .xor => 0x45
  | .inc => 0x48
  | .dec => 0x49
  | .lsh => 0x4A
  | .rsh => 0x4B
  | .inb => 0x81
  | .outb => 0x83
  | .tsti => 0x84
  | .tsto => 0x85
  | .br => 0xC0
  | .jmp => 0xC1
  | .jmpz => 0xC2
  | .jmpnz => 0xC3
  | .jmpn => 0xC4
  | .jmpnn => 0xC5
  | .jmpc => 0xC6
  | .jmpv => 0xC7
  | .call => 0xC8
  | .ret => 0xC9
  | .hlt => 0xCF

/-- The rows of the map, group by group (R87). -/
def Op.all : List Op :=
  [.mv, .push, .pop, .sprd, .spwr, .ldwi, .ldbi, .ldwa, .ldba, .stwa, .stba, .ldwr, .ldbr, .stwr, .stbr] ++
  [.add, .sub, .not, .and, .or, .xor, .inc, .dec, .lsh, .rsh] ++
  [.inb, .outb, .tsti, .tsto] ++
  [.br, .jmp, .jmpz, .jmpnz, .jmpn, .jmpnn, .jmpc, .jmpv, .call, .ret, .hlt]

/-- The row whose high byte is `hi`, if there is one: the match is on `ir[15:8]` alone (R88). -/
def opOfHi (hi : Byte) : Option Op := Op.all.find? fun o => o.hi == hi

/-- `ra`, bits 7:4 of the instruction word (R81). -/
def raOf (w : Word) : Reg := ⟨(w.extractLsb' 4 4).toNat, (w.extractLsb' 4 4).isLt⟩

/-- `rb`, bits 3:0 of the instruction word (R81). -/
def rbOf (w : Word) : Reg := ⟨(w.extractLsb' 0 4).toNat, (w.extractLsb' 0 4).isLt⟩

/-- `off`, bits 7:0 of the instruction word read as a signed byte (R81, R86). -/
def offOf (w : Word) : Int := (loByte w).toInt

/-- `grp`, bits 15:14 (R81). -/
def grpOf (w : Word) : BitVec 2 := w.extractLsb' 14 2

/-- `mode`, bits 13:12 (R81). -/
def modeOf (w : Word) : BitVec 2 := w.extractLsb' 12 2

/-- `opc`, bits 11:8 (R81). -/
def opcOf (w : Word) : BitVec 4 := w.extractLsb' 8 4

/-- Whether a row has an extension word: the RX and JX formats (R82, R85). -/
def Op.hasExt : Op → Bool
  | .mv => false
  | .push => false
  | .pop => false
  | .sprd => false
  | .spwr => false
  | .ldwi => true
  | .ldbi => true
  | .ldwa => true
  | .ldba => true
  | .stwa => true
  | .stba => true
  | .ldwr => false
  | .ldbr => false
  | .stwr => false
  | .stbr => false
  | .add => false
  | .sub => false
  | .not => false
  | .and => false
  | .or => false
  | .xor => false
  | .inc => false
  | .dec => false
  | .lsh => false
  | .rsh => false
  | .inb => true
  | .outb => true
  | .tsti => true
  | .tsto => true
  | .br => true
  | .jmp => false
  | .jmpz => false
  | .jmpnz => false
  | .jmpn => false
  | .jmpnn => false
  | .jmpc => false
  | .jmpv => false
  | .call => true
  | .ret => false
  | .hlt => false

/-- The instruction of row `o` with the fields of the instruction word `w` and the extension word `ext` (R82, R83).
A row without an extension word does not look at `ext`; fields a row ignores are not looked at (R88). -/
def instrOf (o : Op) (w ext : Word) : Instr :=
  match o with
  | .mv => .mv (raOf w) (rbOf w)
  | .push => .push (raOf w)
  | .pop => .pop (raOf w)
  | .sprd => .sprd (raOf w)
  | .spwr => .spwr (raOf w)
  | .ldwi => .ldwi (raOf w) ext
  | .ldbi => .ldbi (raOf w) ext
  | .ldwa => .ldwa (raOf w) ext
  | .ldba => .ldba (raOf w) ext
  | .stwa => .stwa (raOf w) ext
  | .stba => .stba (raOf w) ext
  | .ldwr => .ldwr (raOf w) (rbOf w)
  | .ldbr => .ldbr (raOf w) (rbOf w)
  | .stwr => .stwr (raOf w) (rbOf w)
  | .stbr => .stbr (raOf w) (rbOf w)
  | .add => .add (raOf w) (rbOf w)
  | .sub => .sub (raOf w) (rbOf w)
  | .not => .not (raOf w)
  | .and => .and (raOf w) (rbOf w)
  | .or => .or (raOf w) (rbOf w)
  | .xor => .xor (raOf w) (rbOf w)
  | .inc => .inc (raOf w)
  | .dec => .dec (raOf w)
  | .lsh => .lsh (raOf w)
  | .rsh => .rsh (raOf w)
  | .inb => .inb (raOf w) ext
  | .outb => .outb (raOf w) ext
  | .tsti => .tsti ext
  | .tsto => .tsto ext
  | .br => .br ext
  | .jmp => .jmp (offOf w)
  | .jmpz => .jmpz (offOf w)
  | .jmpnz => .jmpnz (offOf w)
  | .jmpn => .jmpn (offOf w)
  | .jmpnn => .jmpnn (offOf w)
  | .jmpc => .jmpc (offOf w)
  | .jmpv => .jmpv (offOf w)
  | .call => .call ext
  | .ret => .ret
  | .hlt => .hlt

/-- Why bytes are no instruction. -/
inductive DecodeError where
  /-- The triple `ir[15:8]` is not a row of the map (R89). -/
  | illegalTriple (hi : Byte)
  /-- The bytes end before the instruction does (R80). -/
  | truncated
deriving DecidableEq, Repr

/-- Decode an instruction word; `ext` is the word the operand fetch leaves on the bus (R81, R89, R111). -/
def decodeWords (w ext : Word) : Except DecodeError Instr :=
  match opOfHi (hiByte w) with
  | some o => .ok (instrOf o w ext)
  | none => .error (.illegalTriple (hiByte w))

/-- Decode the first instruction of a byte sequence and give the bytes after it (R80, R91): both words are
little-endian (R60). Total on any bytes. -/
def decodeBytes : List Byte → Except DecodeError (Instr × List Byte)
  | b0 :: b1 :: rest =>
    match opOfHi b1 with
    | none => .error (.illegalTriple b1)
    | some o =>
      if o.hasExt then
        match rest with
        | b2 :: b3 :: rest' => .ok (instrOf o (wordOfBytes b0 b1) (wordOfBytes b2 b3), rest')
        | _ => .error .truncated
      else .ok (instrOf o (wordOfBytes b0 b1) 0, rest)
  | _ => .error .truncated

/-- The four bytes of an instruction whose bits are `w`, lowest address first; bits above `nbits` are 0. -/
def tableBytes (nbits w : Nat) : List Byte :=
  let v := w % 2 ^ nbits
  [BitVec.ofNat 8 v, BitVec.ofNat 8 (v / 2 ^ 8), BitVec.ofNat 8 (v / 2 ^ 16), BitVec.ofNat 8 (v / 2 ^ 24)]

/-- The instruction the decoder reads from an instruction whose bits are `w`, bit 0 the least significant bit of the
first word, the extension word's bits counting on from bit 16. -/
def decodeTableWord (nbits w : Nat) : Option Instr :=
  match decodeBytes (tableBytes nbits w) with
  | .ok (i, _) => some i
  | .error _ => none

/-- The low byte of an instruction word: `ra :: rb`, or `off`; fields an instruction ignores are zero (R92). -/
def Instr.lowByte : Instr → Byte
  | .mv ra rb => BitVec.ofNat 8 (16 * ra.val + rb.val)
  | .push ra => BitVec.ofNat 8 (16 * ra.val)
  | .pop ra => BitVec.ofNat 8 (16 * ra.val)
  | .sprd ra => BitVec.ofNat 8 (16 * ra.val)
  | .spwr ra => BitVec.ofNat 8 (16 * ra.val)
  | .ldwi ra _ => BitVec.ofNat 8 (16 * ra.val)
  | .ldbi ra _ => BitVec.ofNat 8 (16 * ra.val)
  | .ldwa ra _ => BitVec.ofNat 8 (16 * ra.val)
  | .ldba ra _ => BitVec.ofNat 8 (16 * ra.val)
  | .stwa ra _ => BitVec.ofNat 8 (16 * ra.val)
  | .stba ra _ => BitVec.ofNat 8 (16 * ra.val)
  | .ldwr ra rb => BitVec.ofNat 8 (16 * ra.val + rb.val)
  | .ldbr ra rb => BitVec.ofNat 8 (16 * ra.val + rb.val)
  | .stwr ra rb => BitVec.ofNat 8 (16 * ra.val + rb.val)
  | .stbr ra rb => BitVec.ofNat 8 (16 * ra.val + rb.val)
  | .add ra rb => BitVec.ofNat 8 (16 * ra.val + rb.val)
  | .sub ra rb => BitVec.ofNat 8 (16 * ra.val + rb.val)
  | .not ra => BitVec.ofNat 8 (16 * ra.val)
  | .and ra rb => BitVec.ofNat 8 (16 * ra.val + rb.val)
  | .or ra rb => BitVec.ofNat 8 (16 * ra.val + rb.val)
  | .xor ra rb => BitVec.ofNat 8 (16 * ra.val + rb.val)
  | .inc ra => BitVec.ofNat 8 (16 * ra.val)
  | .dec ra => BitVec.ofNat 8 (16 * ra.val)
  | .lsh ra => BitVec.ofNat 8 (16 * ra.val)
  | .rsh ra => BitVec.ofNat 8 (16 * ra.val)
  | .inb ra _ => BitVec.ofNat 8 (16 * ra.val)
  | .outb ra _ => BitVec.ofNat 8 (16 * ra.val)
  | .tsti _ => 0
  | .tsto _ => 0
  | .br _ => 0
  | .jmp off => BitVec.ofInt 8 off
  | .jmpz off => BitVec.ofInt 8 off
  | .jmpnz off => BitVec.ofInt 8 off
  | .jmpn off => BitVec.ofInt 8 off
  | .jmpnn off => BitVec.ofInt 8 off
  | .jmpc off => BitVec.ofInt 8 off
  | .jmpv off => BitVec.ofInt 8 off
  | .call _ => 0
  | .ret => 0
  | .hlt => 0

/-- The extension word of an instruction, if its format has one (R82, R84, R85). -/
def Instr.ext : Instr → Option Word
  | .mv _ _ => none
  | .push _ => none
  | .pop _ => none
  | .sprd _ => none
  | .spwr _ => none
  | .ldwi _ imm => some imm
  | .ldbi _ imm => some imm
  | .ldwa _ addr => some addr
  | .ldba _ addr => some addr
  | .stwa _ addr => some addr
  | .stba _ addr => some addr
  | .ldwr _ _ => none
  | .ldbr _ _ => none
  | .stwr _ _ => none
  | .stbr _ _ => none
  | .add _ _ => none
  | .sub _ _ => none
  | .not _ => none
  | .and _ _ => none
  | .or _ _ => none
  | .xor _ _ => none
  | .inc _ => none
  | .dec _ => none
  | .lsh _ => none
  | .rsh _ => none
  | .inb _ port => some port
  | .outb _ port => some port
  | .tsti port => some port
  | .tsto port => some port
  | .br target => some target
  | .jmp _ => none
  | .jmpz _ => none
  | .jmpnz _ => none
  | .jmpn _ => none
  | .jmpnn _ => none
  | .jmpc _ => none
  | .jmpv _ => none
  | .call target => some target
  | .ret => none
  | .hlt => none

/-- The instruction word (R81, R82): the row's high byte over the register or offset byte. -/
def Instr.word (i : Instr) : Word := wordOfBytes i.lowByte i.op.hi

/-- The words of an instruction, in the order they stand in memory (R80). -/
def encode (i : Instr) : List Word :=
  match i.ext with
  | none => [i.word]
  | some x => [i.word, x]

/-- Words as bytes, low byte first (R60). -/
def bytesOfWords : List Word → List Byte
  | [] => []
  | w :: ws => loByte w :: hiByte w :: bytesOfWords ws

/-- The bytes of an instruction, in the order they stand in memory (R60, R80). -/
def encodeBytes (i : Instr) : List Byte := bytesOfWords (encode i)

end Sys2Proof
end

