-- ==== Sys2Proof/Machine/Operands.lean ====
section
/-! DEFINITION. Machine/Operands.lean: the operand forms (30_encoding.md R83 to R86, R91) and the phase that fetches
them (40_phase_machine.md R103 to R107, R111). -/

namespace Sys2Proof.Machine

/-- The source register of a two-register form: `ra` (R83, D2). -/
def srcReg (ra _rb : Reg) : Reg := ra

/-- The destination register, and left operand, of a two-register form: `rb` (R83, D2). -/
def dstReg (_ra rb : Reg) : Reg := rb

/-- The operand latch: the value of `bus.data` at the start of IE (R111). -/
def State.opnd (s : State) : Word := s.bus.data

/-- What a byte load writes: the low byte, zero-extended (R84, R126, R128, R130, D8). -/
def byteLoadValue (v : Word) : Word := zextByte (loByte v)

/-- `RelTarget()` (44_control.md R182): `pc`, already past the instruction word, plus the byte offset. -/
def State.relTarget (s : State) (off : Int) : Word := s.pc + sextOffset off

/-- `is_X(ir)` (R103): the triple of `ir` is that of row `o`. -/
def isOp (o : Op) (ir : Word) : Bool := hiByte ir == o.hi

/-- `needs_of(ir)` (R103): whether decode sends the machine through the operand fetch, legal triple or not. -/
def needsOf (ir : Word) : Bool :=
  (modeOf ir != 0 && !isOp .stwr ir && !isOp .stbr ir) || grpOf ir == 2 || (isOp .br ir || isOp .call ir)

/-- `pc <- pc +_16 2` (R22). -/
def State.advancePc (s : State) : State := { s with pc := s.pc + 2 }

/-- `OfFollowingWord()` (R105): the extension word is left on `bus.data`. -/
def ofFollowingWord (s : State) : Res := andThen (memRead s.pc .word s) fun t => .next t.advancePc

/-- `OfAbsolute()` (R106): the address word, then for LDWA and LDBA a second read at that address. -/
def ofAbsolute (s : State) : Res :=
  andThen (memRead s.pc .word s) fun t =>
    if isOp .ldwa t.ir then memRead t.bus.data .word t.advancePc
    else if isOp .ldba t.ir then memRead t.bus.data .byte t.advancePc
    else .next t.advancePc

/-- `OfRegisterIndirect()` (R107): one read at the address in `rb`. -/
def ofRegisterIndirect (s : State) : Res :=
  if isOp .ldbr s.ir then memRead (s.reg (rbOf s.ir)) .byte s else memRead (s.reg (rbOf s.ir)) .word s

/-- The reads of the operand fetch, by addressing mode (R104). -/
def operandReads (s : State) : Res :=
  if modeOf s.ir = 2 then ofAbsolute s
  else if modeOf s.ir = 3 then ofRegisterIndirect s
  else ofFollowingWord s

end Sys2Proof.Machine
end

