-- ==== Sys2Proof/Machine/Alu.lean ====
section
/-! DEFINITION. Machine/Alu.lean: the IE arms of group 1 (42_alu.md R142 to R151). All four flags are always written,
no flag is read (R140). -/

namespace Sys2Proof.Machine

/-- The end of every ALU arm: the result and all four flags. -/
def aluResult (r : Reg) (v : Word) (f : Flags) (s : State) : Res := finish ((s.setReg r v).setFlags f)

/-- ADD (R142). -/
def execAdd (ra rb : Reg) (s : State) : Res :=
  let a := s.reg (dstReg ra rb)
  let b := s.reg (srcReg ra rb)
  aluResult (dstReg ra rb) (a + b) (addFlags a b) s

/-- SUB (R143). -/
def execSub (ra rb : Reg) (s : State) : Res :=
  let a := s.reg (dstReg ra rb)
  let b := s.reg (srcReg ra rb)
  aluResult (dstReg ra rb) (a - b) (subFlags s.cfg.subVRule a b) s

/-- NOT (R144). -/
def execNot (ra : Reg) (s : State) : Res :=
  let r := ~~~s.reg ra
  aluResult ra r (logicFlags r) s

/-- AND (R145). -/
def execAnd (ra rb : Reg) (s : State) : Res :=
  let r := s.reg (dstReg ra rb) &&& s.reg (srcReg ra rb)
  aluResult (dstReg ra rb) r (logicFlags r) s

/-- OR (R146). -/
def execOr (ra rb : Reg) (s : State) : Res :=
  let r := s.reg (dstReg ra rb) ||| s.reg (srcReg ra rb)
  aluResult (dstReg ra rb) r (logicFlags r) s

/-- XOR (R147). -/
def execXor (ra rb : Reg) (s : State) : Res :=
  let r := s.reg (dstReg ra rb) ^^^ s.reg (srcReg ra rb)
  aluResult (dstReg ra rb) r (logicFlags r) s

/-- INC (R148). -/
def execInc (ra : Reg) (s : State) : Res := aluResult ra (s.reg ra + 1) (incFlags (s.reg ra)) s

/-- DEC (R149). -/
def execDec (ra : Reg) (s : State) : Res := aluResult ra (s.reg ra - 1) (decFlags (s.reg ra)) s

/-- LSH (R150). -/
def execLsh (ra : Reg) (s : State) : Res := aluResult ra (lshValue (s.reg ra)) (lshFlags (s.reg ra)) s

/-- RSH (R151). -/
def execRsh (ra : Reg) (s : State) : Res := aluResult ra (rshValue (s.reg ra)) (rshFlags (s.reg ra)) s

end Sys2Proof.Machine
end

