-- ==== Sys2Proof/Machine/Control.lean ====
section
/-! DEFINITION. Machine/Control.lean: the IE arms of group 3 (44_control.md R170 to R182). No arm writes a flag. -/

namespace Sys2Proof.Machine

/-- A relative jump, taken when `taken` holds; not taken it changes nothing (R182). -/
def relJump (taken : Bool) (off : Int) (s : State) : Res :=
  finish (if taken then { s with pc := s.relTarget off } else s)

/-- BR (R170): `target` is the extension word, which is `opnd`. -/
def execBr (target : Word) (s : State) : Res := finish { s with pc := target }

/-- JMP (R171). -/
def execJmp (off : Int) (s : State) : Res := relJump true off s

/-- JMPZ (R172). -/
def execJmpz (off : Int) (s : State) : Res := relJump s.flags.z off s

/-- JMPNZ (R173). -/
def execJmpnz (off : Int) (s : State) : Res := relJump (!s.flags.z) off s

/-- JMPN (R174). -/
def execJmpn (off : Int) (s : State) : Res := relJump s.flags.n off s

/-- JMPNN (R175). -/
def execJmpnn (off : Int) (s : State) : Res := relJump (!s.flags.n) off s

/-- JMPC (R176). -/
def execJmpc (off : Int) (s : State) : Res := relJump s.flags.c off s

/-- JMPV (R177). -/
def execJmpv (off : Int) (s : State) : Res := relJump s.flags.v off s

/-- CALL (R178): the pushed word is `pc`, which is the address after the CALL; `target` was taken from the bus before
the push. -/
def execCall (target : Word) (s : State) : Res :=
  andThen (pushWord s.pc s) fun t => finish { t with pc := target }

/-- RET (R179): `pc` takes the popped word. -/
def execRet (s : State) : Res := andThen (popWord s) fun t => finish { t with pc := t.bus.data }

/-- HLT (R180). -/
def execHlt (s : State) : Res := haltMachine s

end Sys2Proof.Machine
end

