-- ==== Sys2Proof/Machine/DataTransfer.lean ====
section
/-! DEFINITION. Machine/DataTransfer.lean: the IE arms of group 0 (41_data_transfer.md R120 to R134). An arm runs on the
state at the start of IE: the extension word, or the operand the OF phase read, is on `bus.data` (R111). -/

namespace Sys2Proof.Machine

/-- The end of a load: the register and `SetZN` (R135). -/
def loadReg (ra : Reg) (v : Word) (s : State) : Res := finish ((s.setReg ra v).setZN v)

/-- MV (R120): `x[rb] <- x[ra]`, no flag. -/
def execMv (ra rb : Reg) (s : State) : Res := finish (s.setReg (dstReg ra rb) (s.reg (srcReg ra rb)))

/-- PUSH (R121). -/
def execPush (ra : Reg) (s : State) : Res := andThen (pushWord (s.reg ra) s) finish

/-- POP (R122). -/
def execPop (ra : Reg) (s : State) : Res := andThen (popWord s) fun t => finish (t.setReg ra t.bus.data)

/-- SPRD (R123): `x[ra] <- sp`. -/
def execSprd (ra : Reg) (s : State) : Res := finish (s.setReg ra s.sp)

/-- SPWR (R124): `sp <- x[ra]`. -/
def execSpwr (ra : Reg) (s : State) : Res := finish { s with sp := s.reg ra }

/-- LDWI (R125): `imm` is the extension word, which is `opnd`. -/
def execLdwi (ra : Reg) (imm : Word) (s : State) : Res := loadReg ra imm s

/-- LDBI (R126): the low byte of the extension word. -/
def execLdbi (ra : Reg) (imm : Word) (s : State) : Res := loadReg ra (byteLoadValue imm) s

/-- LDWA (R127): `opnd` is the word at the address; OF has already read it (R106). -/
def execLdwa (ra : Reg) (_addr : Word) (s : State) : Res := loadReg ra s.opnd s

/-- LDBA (R128): `opnd` is the byte at the address; OF has already read it (R106). -/
def execLdba (ra : Reg) (_addr : Word) (s : State) : Res := loadReg ra (byteLoadValue s.opnd) s

/-- LDWR (R129): `opnd` is the word at the address in `rb`; OF has already read it (R107). -/
def execLdwr (ra _rb : Reg) (s : State) : Res := loadReg ra s.opnd s

/-- LDBR (R130): `opnd` is the byte at the address in `rb`; OF has already read it (R107). -/
def execLdbr (ra _rb : Reg) (s : State) : Res := loadReg ra (byteLoadValue s.opnd) s

/-- STWA (R131): `addr` is the extension word, which is `opnd`. -/
def execStwa (ra : Reg) (addr : Word) (s : State) : Res := andThen (memWrite addr .word (s.reg ra) s) finish

/-- STBA (R132). -/
def execStba (ra : Reg) (addr : Word) (s : State) : Res := andThen (memWrite addr .byte (s.reg ra) s) finish

/-- STWR (R133): the data register is `ra`, the address register `rb`. -/
def execStwr (ra rb : Reg) (s : State) : Res := andThen (memWrite (s.reg rb) .word (s.reg ra) s) finish

/-- STBR (R134). -/
def execStbr (ra rb : Reg) (s : State) : Res := andThen (memWrite (s.reg rb) .byte (s.reg ra) s) finish

end Sys2Proof.Machine
end

