-- ==== Sys2Proof/Machine/Io.lean ====
section
/-! DEFINITION. Machine/Io.lean: the IE arms of group 2 (43_io.md R160 to R164). `port` is the extension word, which is
`opnd` (R164). -/

namespace Sys2Proof.Machine

/-- INB (R160): the low byte of the answer, zero-extended. A port that does not answer leaves the data line as it was,
which in IE is the port number that OF left there (R71 (e)). -/
def execInb (ra : Reg) (port : Word) (s : State) : Res :=
  andThen (ioRead port .byte s) fun t => finish (t.setReg ra (byteLoadValue t.bus.data))

/-- OUTB (R161): the whole register is driven, the IOD takes its low byte. -/
def execOutb (ra : Reg) (port : Word) (s : State) : Res := andThen (ioWrite port .byte (s.reg ra) s) finish

/-- TSTI (R162): `Z` alone, no bus transaction, the key is not consumed. -/
def execTsti (port : Word) (s : State) : Res := finish (s.setZ (inputReady s port))

/-- TSTO (R163): `Z` alone, no bus transaction. -/
def execTsto (port : Word) (s : State) : Res := finish (s.setZ (outputReady port))

end Sys2Proof.Machine
end

