-- ==== Sys2Proof/Machine/Dispatch.lean ====
section
/-! DEFINITION. Machine/Dispatch.lean: the dispatch of IE to the arm of each instruction (40_phase_machine.md R108). -/

namespace Sys2Proof.Machine

/-- The IE arm of an instruction, run on the state at the start of IE (R108). -/
def exec (i : Instr) (s : State) : Host.Outcome State Fault Refusal :=
  match i with
  | .mv ra rb => Sys2Proof.Machine.execMv ra rb s
  | .push ra => Sys2Proof.Machine.execPush ra s
  | .pop ra => Sys2Proof.Machine.execPop ra s
  | .sprd ra => Sys2Proof.Machine.execSprd ra s
  | .spwr ra => Sys2Proof.Machine.execSpwr ra s
  | .ldwi ra imm => Sys2Proof.Machine.execLdwi ra imm s
  | .ldbi ra imm => Sys2Proof.Machine.execLdbi ra imm s
  | .ldwa ra addr => Sys2Proof.Machine.execLdwa ra addr s
  | .ldba ra addr => Sys2Proof.Machine.execLdba ra addr s
  | .stwa ra addr => Sys2Proof.Machine.execStwa ra addr s
  | .stba ra addr => Sys2Proof.Machine.execStba ra addr s
  | .ldwr ra rb => Sys2Proof.Machine.execLdwr ra rb s
  | .ldbr ra rb => Sys2Proof.Machine.execLdbr ra rb s
  | .stwr ra rb => Sys2Proof.Machine.execStwr ra rb s
  | .stbr ra rb => Sys2Proof.Machine.execStbr ra rb s
  | .add ra rb => Sys2Proof.Machine.execAdd ra rb s
  | .sub ra rb => Sys2Proof.Machine.execSub ra rb s
  | .not ra => Sys2Proof.Machine.execNot ra s
  | .and ra rb => Sys2Proof.Machine.execAnd ra rb s
  | .or ra rb => Sys2Proof.Machine.execOr ra rb s
  | .xor ra rb => Sys2Proof.Machine.execXor ra rb s
  | .inc ra => Sys2Proof.Machine.execInc ra s
  | .dec ra => Sys2Proof.Machine.execDec ra s
  | .lsh ra => Sys2Proof.Machine.execLsh ra s
  | .rsh ra => Sys2Proof.Machine.execRsh ra s
  | .inb ra port => Sys2Proof.Machine.execInb ra port s
  | .outb ra port => Sys2Proof.Machine.execOutb ra port s
  | .tsti port => Sys2Proof.Machine.execTsti port s
  | .tsto port => Sys2Proof.Machine.execTsto port s
  | .br target => Sys2Proof.Machine.execBr target s
  | .jmp off => Sys2Proof.Machine.execJmp off s
  | .jmpz off => Sys2Proof.Machine.execJmpz off s
  | .jmpnz off => Sys2Proof.Machine.execJmpnz off s
  | .jmpn off => Sys2Proof.Machine.execJmpn off s
  | .jmpnn off => Sys2Proof.Machine.execJmpnn off s
  | .jmpc off => Sys2Proof.Machine.execJmpc off s
  | .jmpv off => Sys2Proof.Machine.execJmpv off s
  | .call target => Sys2Proof.Machine.execCall target s
  | .ret => Sys2Proof.Machine.execRet s
  | .hlt => Sys2Proof.Machine.execHlt s

end Sys2Proof.Machine
end

