-- ==== Sys2Proof/Machine/Phases.lean ====
section
/-! DEFINITION. Machine/Phases.lean: the tick and the four phases (40_phase_machine.md R100 to R111), the host's key
schedule between ticks (70_reset_and_hazards.md R216), and the run of ticks that is one instruction (R110). -/

namespace Sys2Proof.Machine

/-- `Fetch()` (R102). -/
def fetch (s : State) : Res :=
  andThen (memRead s.pc .word s) fun t => .next { t.advancePc with ir := t.bus.data, phaseNext := .ID }

/-- `Decode()` (R103): the bus is cleared; the fields are functions of `ir`. -/
def decodePhase (s : State) : State :=
  { s.resetBus with phaseNext := if needsOf s.ir then .OF else .IE }

/-- `OperandFetch()` (R104). -/
def operandFetch (s : State) : Res := andThen (operandReads s) fun t => .next { t with phaseNext := .IE }

/-- `Execute()` (R108, R109): the arm of the instruction `ir` and the operand latch give, or the fault. -/
def execute (s : State) : Res :=
  match decodeWords s.ir s.opnd with
  | .ok i => exec i s
  | .error _ => raiseIllegal s

/-- `Tick()` (R100, R101). -/
def tick (s : State) : Res :=
  match s.phaseNext with
  | .IF => fetch { s with phaseNow := .IF }
  | .ID => .next (decodePhase { s with phaseNow := .ID })
  | .OF => operandFetch { s with phaseNow := .OF }
  | .IE => execute { s with phaseNow := .IE }
  | .HALTED => .next { s with phaseNow := .HALTED }
  | .FAULT => .next { s with phaseNow := .FAULT }

/-- The host between two ticks (R216): the next entry of its schedule latches a key, or does nothing. -/
def takeKey (s : State) : State :=
  match s.keyInputs with
  | [] => s
  | none :: ks => { s with keyInputs := ks }
  | some k :: ks => { s.latchKey k with keyInputs := ks }

/-- One tick under the host's schedule. -/
def hostTick (s : State) : Res := tick (takeKey s)

/-- Whether the tick that ran was an instruction's last, or a tick of a stopped machine (R110). -/
def Phase.isLast : Phase → Bool
  | .IF | .ID | .OF => false
  | .IE | .HALTED | .FAULT => true

/-- Tick until a tick has run IE, at most `n` times (R110). -/
def runPhases : Nat → State → Res
  | 0, s => .next s
  | n + 1, s => andThen (hostTick s) fun t => if t.phaseNow.isLast then .next t else runPhases n t

/-- The longest run of ticks of one instruction: IF, ID, OF, IE (R110). -/
def maxTicks : Nat := 4

/-- The word the fetch delivers (R102): the word at `pc`, or the stale `bus.data` where `pc` is outside RAM (R71 (a)). -/
def State.fetchedWord (s : State) : Word := s.memAnswer s.pc true

/-- The word an operand fetch reads at `pc + 2`, or 0x0000 where that is outside RAM (R105). -/
def State.followingWord (s : State) : Word :=
  if (s.pc + 2).toNat < s.ramSize then s.memValue (s.pc + 2).toNat true else 0

/-- The ticks of an instruction before its IE, from its IF on: fetch, decode and, where `needs_of` holds, the operand
fetch, each under the host's schedule; then the host's entry before IE. The result is the state IE starts in. -/
def toExecute (s : State) : Res :=
  andThen (hostTick s) fun t =>
    andThen (hostTick t) fun u =>
      if u.phaseNext = .OF then andThen (hostTick u) fun v => .next { takeKey v with phaseNow := .IE }
      else .next { takeKey u with phaseNow := .IE }

/-! Placing an instruction for the next step -/

/-- Whether four bytes at `pc` lie in RAM without a wrap. -/
def State.roomAtPc (s : State) : Bool := decide (s.pc.toNat + 4 ≤ s.ramSize) && decide (s.pc.toNat + 4 ≤ 65536)

/-- `s` about to fetch, with four bytes of RAM at `pc`; where there is no such room, `pc` is 0 and RAM has at least four
bytes. -/
def State.readyToFetch (s : State) : State :=
  if s.roomAtPc then { s with phaseNext := .IF }
  else { s with phaseNext := .IF, pc := 0, ramSize := max s.ramSize 4 }

/-- `s` with bytes stored from `pc` on, as an image load would place them (R212). -/
def State.withBytesAtPc (s : State) (bs : List Byte) : State :=
  { s with mem := Memory.place s.ramSize s.pc.toNat bs s.mem }

end Sys2Proof.Machine
end

