-- ==== Sys2Proof/Machine/Step.lean ====
section
/-! DEFINITION. Machine/Step.lean: the step of the model is one instruction, the run of ticks from its IF to its IE
(40_phase_machine.md R110); from a state inside an instruction it finishes that instruction. -/

namespace Sys2Proof.Machine

/-- One instruction-level step (R110). Every tick in it is preceded by the host's entry for it (R216). -/
def step : State → Host.Outcome State Fault Refusal := runPhases maxTicks

/-- `s` with an instruction of `nbits` bits `w`, and zeros up to four bytes, where the next step fetches. -/
def State.withFetchWord (s : State) (nbits w : Nat) : State := s.readyToFetch.withBytesAtPc (tableBytes nbits w)

end Sys2Proof.Machine
end

