-- ==== Sys2Proof/Machine/Display.lean ====
section
/-! DEFINITION. Machine/Display.lean: what the host reads that is a function of State (60_exceptions.md R203, R206;
10_state.md R28, R29). Nothing here is read by a step. -/

namespace Sys2Proof.Machine

/-- The 8-bit phase tags (R28, R100). -/
def Phase.tag : Phase → Byte
  | .IF => 0x00
  | .ID => 0x01
  | .OF => 0x02
  | .IE => 0x03
  | .HALTED => 0xF0
  | .FAULT => 0xFF

/-- The mnemonic of a row (R87). -/
def Op.mnemonic : Op → String
  | .mv => "MV"
  | .push => "PUSH"
  | .pop => "POP"
  | .sprd => "SPRD"
  | .spwr => "SPWR"
  | .ldwi => "LDWI"
  | .ldbi => "LDBI"
  | .ldwa => "LDWA"
  | .ldba => "LDBA"
  | .stwa => "STWA"
  | .stba => "STBA"
  | .ldwr => "LDWR"
  | .ldbr => "LDBR"
  | .stwr => "STWR"
  | .stbr => "STBR"
  | .add => "ADD"
  | .sub => "SUB"
  | .not => "NOT"
  | .and => "AND"
  | .or => "OR"
  | .xor => "XOR"
  | .inc => "INC"
  | .dec => "DEC"
  | .lsh => "LSH"
  | .rsh => "RSH"
  | .inb => "INB"
  | .outb => "OUTB"
  | .tsti => "TSTI"
  | .tsto => "TSTO"
  | .br => "BR"
  | .jmp => "JMP"
  | .jmpz => "JMPZ"
  | .jmpnz => "JMPNZ"
  | .jmpn => "JMPN"
  | .jmpnn => "JMPNN"
  | .jmpc => "JMPC"
  | .jmpv => "JMPV"
  | .call => "CALL"
  | .ret => "RET"
  | .hlt => "HLT"

/-- The displayed instruction name: the mnemonic of the matched row, or none for the error sentinel of an unmatched
triple, whose text the spec does not give (R29, R109, N19). -/
def State.mnemonic (s : State) : Option String := (opOfHi (hiByte s.ir)).map Op.mnemonic

/-- The monitor's four lines, `l3` the bottom one (R203). -/
structure MonitorLines where
  l0 : List Byte
  l1 : List Byte
  l2 : List Byte
  l3 : List Byte
deriving DecidableEq, Repr

/-- The four lines after reset (R203, R204). -/
def emptyLines : MonitorLines := { l0 := [], l1 := [], l2 := [], l3 := [] }

/-- The number of columns of a line (R203). -/
def columns : Nat := 20

/-- `Scroll()` (R203). -/
def scrollLines (m : MonitorLines) : MonitorLines := { l0 := m.l1, l1 := m.l2, l2 := m.l3, l3 := [] }

/-- One byte of output on the lines (R203, D24): newline, carriage return, or any other byte. -/
def putByte (m : MonitorLines) (b : Byte) : MonitorLines :=
  if b = 0x0A then scrollLines m
  else if b = 0x0D then
    if m.l3.length = columns then scrollLines m
    else { m with l3 := m.l3 ++ List.replicate (columns - m.l3.length) 0x20 }
  else
    let n := if m.l3.length = columns then scrollLines m else m
    { n with l3 := n.l3 ++ [b] }

/-- The monitor's lines as a function of `iod.out` (R203). -/
def monitorLines (out : List Byte) : MonitorLines := out.foldl putByte emptyLines

end Sys2Proof.Machine
end

