-- ==== Sys2Proof/Machine/HostOps.lean ====
section
/-! DEFINITION. Machine/HostOps.lean: what the host may do to the machine between ticks (70_reset_and_hazards.md R216;
40_phase_machine.md R100; 60_exceptions.md R200). -/

namespace Sys2Proof.Machine

/-- The host's operations; reading a getter changes nothing and needs none (R206). -/
inductive HostOp where
  /-- `Tick()`: the due phase (R100). -/
  | tick
  /-- One of the four phase operations called by name (R100, D25, U20). -/
  | phase (p : Phase)
  /-- `Reset(cfg)` (R210). -/
  | reset (r : ResetConfig)
  /-- `Input(k)` (R200). -/
  | input (k : Byte)
deriving DecidableEq, Repr

/-- A host reset, in any state; the host's own schedule of keys is not the machine's and stays (R210). R210 gives a reset
three arguments and leaves open whether it may change STACK_ORDER, STRADDLE_POLICY and SUB_V_RULE; here they are those of
`r`, the old ones or others (DESIGN CHOICE, log entry 37). -/
def resetMachine (r : ResetConfig) (s : State) : Res :=
  if ramSizeOk r.ramSize then .next { State.resetWith r with keyInputs := s.keyInputs }
  else .refused (.badRamSize r.ramSize)

/-- The effect of a host operation (R216). A phase called when another is due is outside the spec's model (D25). -/
def host (op : HostOp) (s : State) : Res :=
  match op with
  | .tick => tick s
  | .phase p => if p = s.phaseNext then tick s else .refused (.phaseOutOfTurn p s.phaseNext)
  | .reset r => resetMachine r s
  | .input k => .next (s.latchKey k)

/-- Host operations in order, stopping at the first fault or refusal. -/
def hostRun : List HostOp → State → Res
  | [], s => .next s
  | op :: ops, s => andThen (host op s) (hostRun ops)

end Sys2Proof.Machine
end

