-- ==== Sys2Proof/Safety.lean ====
section
/-! DEFINITION. Safety.lean: the terms claims are stated in: what a stopped machine is, the invariant every step keeps,
when a word access has a step, and what it means that an instruction leaves a piece of state alone. -/

namespace Sys2Proof.Machine

/-- A run has ended: HALTED or FAULT (70_reset_and_hazards.md R217). -/
def State.stopped (s : State) : Bool := decide (s.phaseNext = .HALTED) || decide (s.phaseNext = .FAULT)

/-- The bus as `reset_bus()` leaves it (R51). -/
def clearedBus : Bus := { address := 0, data := 0, read := false, msel := false, word := false }

/-- Which phase the last tick can have run, given the one that is due (R100 to R109); after reset both are IF. -/
def phasePair (now next : Phase) : Bool :=
  match next with
  | .IF => decide (now = .IF) || decide (now = .IE)
  | .ID => decide (now = .IF)
  | .OF => decide (now = .ID)
  | .IE => decide (now = .ID) || decide (now = .OF)
  | .HALTED => decide (now = .IE) || decide (now = .HALTED)
  | .FAULT => decide (now = .IE) || decide (now = .FAULT)

/-- RAM is well formed: its size is in range, its contents are in canonical form and lie inside it (R7, R32). -/
def State.memInv (s : State) : Prop :=
  ramSizeOk s.ramSize = true ∧ s.mem.wf = true ∧ s.mem.below s.ramSize = true

/-- The phase machine is coherent: the pair of tags is one the transitions produce; after ID the bus is cleared and OF is
due exactly when `needs_of` holds; OF runs only where `needs_of` holds; a halted machine has HLT in `ir` and a faulted one
an illegal triple (R101 to R104, R109, R180, R191). -/
def State.phaseInv (s : State) : Prop :=
  phasePair s.phaseNow s.phaseNext = true ∧
  (s.phaseNow = .ID → s.bus = clearedBus ∧ (s.phaseNext = .OF ↔ needsOf s.ir = true)) ∧
  (s.phaseNow = .OF → needsOf s.ir = true) ∧
  (s.phaseNext = .HALTED → opOfHi (hiByte s.ir) = some .hlt) ∧
  (s.phaseNext = .FAULT → opOfHi (hiByte s.ir) = none)

/-- The invariant of the machine. -/
def State.Inv (s : State) : Prop := s.memInv ∧ s.phaseInv

/-- A word access at `a` has a step: under the default policy always, under STRADDLE_POLICY = fault unless `a` is the last
RAM byte (R57). -/
def State.wordAccessOk (s : State) (a : Word) : Prop :=
  s.cfg.straddlePolicy = .bytewise ∨ a.toNat + 1 ≠ s.ramSize

/-- Whether the instruction about to be fetched has an extension word: `needs_of` holds and the mode is not 3 (R91). -/
def State.takesFollowingWord (s : State) : Prop := needsOf s.fetchedWord = true ∧ modeOf s.fetchedWord ≠ 3

/-- The fetch and operand fetch of the instruction at `pc` have a step: under the default policy always, under
STRADDLE_POLICY = fault where none of their word reads is at the last RAM byte (R57, R102, R105 to R107). -/
def State.fetchOk (s : State) : Prop :=
  s.cfg.straddlePolicy = .bytewise ∨
  (s.pc.toNat + 1 ≠ s.ramSize ∧
   (s.takesFollowingWord → (s.pc + 2).toNat + 1 ≠ s.ramSize) ∧
   (isOp .ldwa s.fetchedWord = true → s.followingWord.toNat + 1 ≠ s.ramSize) ∧
   (needsOf s.fetchedWord = true → modeOf s.fetchedWord = 3 → isOp .ldbr s.fetchedWord = false →
     (s.reg (rbOf s.fetchedWord)).toNat + 1 ≠ s.ramSize))

/-- What no arm of IE changes: the parameters, the RAM size, `ir`, `phase_now` and the host's schedule. -/
def SameMachine (s t : State) : Prop :=
  t.cfg = s.cfg ∧ t.ramSize = s.ramSize ∧ t.ir = s.ir ∧ t.phaseNow = s.phaseNow ∧ t.keyInputs = s.keyInputs

/-- Every register but `r` is unchanged. -/
def SameRegsBut (r : Reg) (s t : State) : Prop := ∀ q : Reg, q ≠ r → t.reg q = s.reg q

/-- Every register is unchanged. -/
def SameRegs (s t : State) : Prop := ∀ q : Reg, t.reg q = s.reg q

/-- Every byte of memory reads as before. -/
def SameMem (s t : State) : Prop := ∀ a : Nat, t.peek a = s.peek a

/-- Every byte outside the `n` bytes from `a` on reads as before. -/
def SameMemBut (a n : Nat) (s t : State) : Prop := ∀ x : Nat, (x < a ∨ a + n ≤ x) → t.peek x = s.peek x

/-- No bus transaction: the latches, `ar` and `dr` are unchanged. -/
def SameBus (s t : State) : Prop := t.bus = s.bus ∧ t.ar = s.ar ∧ t.dr = s.dr

/-- A bus read of width `word` in space `msel` was made at `a`, and the data line and `dr` hold `v` (R58). -/
def BusReadSeen (a v : Word) (msel word : Bool) (t : State) : Prop :=
  t.bus = { address := a, data := v, read := true, msel := msel, word := word } ∧ t.ar = a ∧ t.dr = v

/-- A bus write of width `word` in space `msel` was made at `a` with data `v` (R58). -/
def BusWriteSeen (a v : Word) (msel word : Bool) (t : State) : Prop :=
  t.bus = { address := a, data := v, read := false, msel := msel, word := word } ∧ t.ar = a ∧ t.dr = v

/-- The word `v` was stored at `a` (R55 to R57): its low byte at `a` and its high byte at `a + 1`, each only where that
address is in RAM, nothing at all where `a` is not, and no other byte. -/
def WordStored (a v : Word) (s t : State) : Prop :=
  (a.toNat < s.ramSize → t.peek a.toNat = v.extractLsb' 0 8) ∧
  (a.toNat + 1 < s.ramSize → t.peek (a.toNat + 1) = v.extractLsb' 8 8) ∧
  (s.ramSize ≤ a.toNat → SameMem s t) ∧ SameMemBut a.toNat 2 s t

/-- The low byte of `v` was stored at `a` (R55, R56): only where `a` is in RAM, and no other byte. -/
def ByteStored (a v : Word) (s t : State) : Prop :=
  (a.toNat < s.ramSize → t.peek a.toNat = v.extractLsb' 0 8) ∧
  (s.ramSize ≤ a.toNat → SameMem s t) ∧ SameMemBut a.toNat 1 s t

/-- `Z` and `N` are those of the result `r`: `Z` where it is 0, `N` where its bit 15 is set (R135, R140, R152). -/
def ZNFrom (r : Word) (f : Flags) : Prop := (f.z = true ↔ r.toNat = 0) ∧ (f.n = true ↔ 32768 ≤ r.toNat)

/-- An integer that no 16-bit two's-complement number is. -/
def outOfRange (x : Int) : Prop := x < -32768 ∨ 32767 < x

/-- The frame of an arm that writes registers and flags only: all else is unchanged, and the next phase is IF. -/
def RegisterArm (s t : State) : Prop :=
  SameMachine s t ∧ SameMem s t ∧ SameBus s t ∧ t.iod = s.iod ∧ t.pc = s.pc ∧ t.sp = s.sp ∧ t.phaseNext = .IF

/-- The frame of an arm that makes one transaction and writes no register and no flag: memory, the latches, `sp` and `pc`
aside, all is unchanged, and the next phase is IF. -/
def TransferArm (s t : State) : Prop :=
  SameMachine s t ∧ SameRegs s t ∧ t.flags = s.flags ∧ t.phaseNext = .IF

/-- A jump: only `pc` and the next phase may differ. -/
def JumpArm (s t : State) : Prop :=
  SameMachine s t ∧ SameRegs s t ∧ t.flags = s.flags ∧ SameMem s t ∧ SameBus s t ∧ t.iod = s.iod ∧ t.sp = s.sp ∧
  t.phaseNext = .IF

/-- A relative jump on the condition `taken`: where it holds `pc` moves by `off` bytes modulo 2^16, where it does not
nothing but the phase changes (R182). -/
def RelJumped (taken : Prop) (off : Int) (s t : State) : Prop :=
  JumpArm s t ∧ (taken → (t.pc.toNat : Int) = ((s.pc.toNat : Int) + off) % 65536) ∧ (¬ taken → t.pc = s.pc)

/-- The bits of the instruction word that an instruction of row `o` uses: the triple, and the register or offset fields
its format and rule name (R82, R83, R88; the letters other than `x` in the table's patterns). -/
def usedBits (o : Op) : Word :=
  match o with
  | .mv | .ldwr | .ldbr | .stwr | .stbr | .add | .sub | .and | .or | .xor => 0xFFFF
  | .jmp | .jmpz | .jmpnz | .jmpn | .jmpnn | .jmpc | .jmpv => 0xFFFF
  | .push | .pop | .sprd | .spwr | .not | .inc | .dec | .lsh | .rsh => 0xFFF0
  | .ldwi | .ldbi | .ldwa | .ldba | .stwa | .stba | .inb | .outb => 0xFFF0
  | .tsti | .tsto | .br | .call | .ret | .hlt => 0xFF00

/-- The rows of group 1. -/
def isAlu (o : Op) : Bool :=
  match o with
  | .add | .sub | .not | .and | .or | .xor | .inc | .dec | .lsh | .rsh => true
  | _ => false

/-- The six load instructions. -/
def isLoad (o : Op) : Bool :=
  match o with
  | .ldwi | .ldbi | .ldwa | .ldba | .ldwr | .ldbr => true
  | _ => false

/-- Group 3. -/
def isControl (o : Op) : Bool :=
  match o with
  | .br | .jmp | .jmpz | .jmpnz | .jmpn | .jmpnn | .jmpc | .jmpv | .call | .ret | .hlt => true
  | _ => false

/-- The instructions that write memory. -/
def isStore (o : Op) : Bool :=
  match o with
  | .stwa | .stba | .stwr | .stbr | .push | .call => true
  | _ => false

/-- A key latched after the result of a tick, where there is one. -/
def latchAfter (k : Byte) (r : Res) : Res := andThen r fun t => .next (t.latchKey k)

/-- `s` and `t` agree on everything but `ar`, `dr` and `phase_now`, the display registers (R27, R28). -/
def SameButDisplay (s t : State) : Prop :=
  { t with ar := s.ar, dr := s.dr, phaseNow := s.phaseNow } = s

/-- Two results of a step are alike but for the display registers. -/
def AlikeButDisplay (x y : Res) : Prop :=
  match x, y with
  | .next s, .next t => SameButDisplay s t
  | .fault a, .fault b => a = b
  | .refused a, .refused b => a = b
  | _, _ => False

/-- A host operation that is no reset. -/
def isReset (op : HostOp) : Bool :=
  match op with
  | .reset _ => true
  | _ => false

end Sys2Proof.Machine
end

