-- ==== Sys2Proof/Certificates/Slice0/Obligations.lean ====
section
/-! DEFINITION. Certificates/Slice0/Obligations.lean: the statements about the model, each a Prop to be proved. -/

open Sys2Proof Sys2Proof.Machine

/-! Encoding -/

/-- 30_encoding.md R80 to R86: decoding the bytes of a well-formed instruction, whatever follows them, gives it back with
every operand, and the bytes that follow.
Rests on choices the spec marks as its own: D1, D2 (log entries 5, 6). -/
def Obligations.DecodingTheEncodingGivesTheInstructionBack : Prop :=
  ∀ (i : Instr) (rest : List Byte), WellFormed i → decodeBytes (encodeBytes i ++ rest) = .ok (i, rest)

/-- R88, R92: whatever decodes is well formed, its instruction word is the decoded word with the ignored bits cleared, and
its extension word, where it has one, is the one decoded.
Rests on choices the spec marks as its own: D1, D2, D26 (log entries 5, 6, 26). -/
def Obligations.EncodingADecodedWordClearsOnlyIgnoredBits : Prop :=
  ∀ (w x : Word) (i : Instr), decodeWords w x = .ok i →
    WellFormed i ∧ i.word = w &&& usedBits i.op ∧ i.op.hi = w.extractLsb' 8 8 ∧ (i.ext = none ∨ i.ext = some x)

/-- R89: exactly the triples the rule lists, group by group and mode by mode, are illegal.
Rests on choices the spec marks as its own: D1 (log entry 5). -/
def Obligations.IllegalTriplesAreThoseOutsideTheCatalog : Prop :=
  ∀ (w x : Word), (∃ h, decodeWords w x = .error (.illegalTriple h)) ↔
    ¬ ((grpOf w = 0 ∧ modeOf w = 0 ∧ opcOf w ∈ ([4, 8, 9, 0xD, 0xE] : List (BitVec 4))) ∨
       (grpOf w = 0 ∧ modeOf w = 1 ∧ opcOf w ∈ ([0, 1] : List (BitVec 4))) ∨
       (grpOf w = 0 ∧ (modeOf w = 2 ∨ modeOf w = 3) ∧ opcOf w ∈ ([0, 1, 2, 3] : List (BitVec 4))) ∨
       (grpOf w = 1 ∧ modeOf w = 0 ∧ opcOf w ∈ ([0, 1, 2, 3, 4, 5, 8, 9, 0xA, 0xB] : List (BitVec 4))) ∨
       (grpOf w = 2 ∧ modeOf w = 0 ∧ opcOf w ∈ ([1, 3, 4, 5] : List (BitVec 4))) ∨
       (grpOf w = 3 ∧ modeOf w = 0 ∧ opcOf w ∉ ([0xA, 0xB, 0xC, 0xD, 0xE] : List (BitVec 4))))

/-- R91: a legal instruction has an extension word exactly when `needs_of(ir)` holds and the mode is not 3.
Rests on choices the spec marks as its own: D1 (log entry 5). -/
def Obligations.ExtensionWordExactlyWhenNeedsOfAndModeNotThree : Prop :=
  ∀ (w x : Word) (i : Instr), decodeWords w x = .ok i →
    (i.ext.isSome = true ↔ needsOf w = true ∧ modeOf w ≠ 3)

/-- A sanity statement: words written out from the encodings of R120, R125, R133, R142, R160, R171 and R178 decode to the
instructions they stand for.
Rests on choices the spec marks as its own: D1, D2 (log entries 5, 6). -/
def Obligations.WordsOfTheSpecDecode : Prop :=
  decodeWords 0b0000010000010010 0 = .ok (.mv 1 2) ∧
  decodeWords 0b0001000000000000 0x1234 = .ok (.ldwi 0 0x1234) ∧
  decodeWords 0b0011001000010010 0 = .ok (.stwr 1 2) ∧
  decodeWords 0b0100000000010000 0 = .ok (.add 1 0) ∧
  decodeWords 0b1000000100110000 1 = .ok (.inb 3 1) ∧
  decodeWords 0b1100000111110100 0 = .ok (.jmp (-12)) ∧
  decodeWords 0b1100100000000000 0x0010 = .ok (.call 0x0010)

/-! Reset and the host -/

/-- 10_state.md R34: what a reset leaves in every item of state, for every RAM size, start address and image.
Rests on choices the spec marks as its own: D20, D22, D23 (log entries 21, 23). -/
def Obligations.ResetLeavesTheTabledValues : Prop :=
  ∀ r : ResetConfig, ramSizeOk r.ramSize = true →
    (∀ q : Reg, (State.resetWith r).reg q = 0) ∧
    (State.resetWith r).pc = r.startAddress ∧
    (State.resetWith r).sp.toNat = r.ramSize - 2 ∧
    (State.resetWith r).ir = 0 ∧ (State.resetWith r).ar = 0 ∧ (State.resetWith r).dr = 0 ∧
    (State.resetWith r).flags = { z := false, n := false, c := false, v := false } ∧
    (State.resetWith r).phaseNext = .IF ∧ (State.resetWith r).phaseNow = .IF ∧
    (State.resetWith r).bus = { address := 0, data := 0, read := false, msel := false, word := false } ∧
    (State.resetWith r).ramSize = r.ramSize ∧
    (∀ a : Nat, a < r.ramSize → (State.resetWith r).peek a = r.image.getD a 0) ∧
    (∀ a : Nat, r.ramSize ≤ a → (State.resetWith r).peek a = 0) ∧
    (State.resetWith r).iod = { key := 0, out := [] }

/-- 70_reset_and_hazards.md R211: the first tick after a reset is a fetch from START_ADDRESS; R102: what that fetch leaves.
Rests on choices the spec marks as its own: D6, D21 (log entries 13, 22). -/
def Obligations.FirstTickAfterResetFetchesAtStartAddress : Prop :=
  ∀ r : ResetConfig, (State.resetWith r).wordAccessOk r.startAddress →
    ∃ t, tick (State.resetWith r) = .next t ∧ t.phaseNow = .IF ∧ t.ar = r.startAddress ∧
      t.bus.address = r.startAddress ∧ t.bus.read = true ∧ t.bus.msel = true ∧ t.bus.word = true ∧
      t.pc = r.startAddress + 2 ∧ t.ir = (State.resetWith r).memAnswer r.startAddress true

/-- R216, R200, R210, R100: a key replaces the one not yet read and changes nothing else, a reset in any state leaves
the reset state of its configuration (the three parameters of R8 with it), a phase called out of turn is refused, and the
tick under the host's schedule is the tick after the key its first entry latches, with the entries after it left.
Rests on choices the spec marks as its own: D25 (log entry 25). Rests also on the model's own choices (log entries 2,
37). -/
def Obligations.HostOperationsHaveTheirEffects : Prop :=
  (∀ (k : Byte) (s : State), ∃ t, host (.input k) s = .next t ∧ t.iod.key = k ∧ t.iod.out = s.iod.out ∧
    { t with iod := s.iod } = s) ∧
  (∀ (r : ResetConfig) (s : State), ramSizeOk r.ramSize = true →
    ∃ t, host (.reset r) s = .next t ∧ t.keyInputs = s.keyInputs ∧ { t with keyInputs := [] } = State.resetWith r) ∧
  (∀ (p : Phase) (s : State), p ≠ s.phaseNext → host (.phase p) s = .refused (.phaseOutOfTurn p s.phaseNext)) ∧
  (∀ s : State, host (.phase s.phaseNext) s = host .tick s ∧ host .tick s = tick s) ∧
  (∀ (k : Byte) (ks : List (Option Byte)) (s : State), s.keyInputs = some k :: ks →
    hostTick s = tick { s with iod := { key := k, out := s.iod.out }, keyInputs := ks }) ∧
  (∀ (ks : List (Option Byte)) (s : State), s.keyInputs = none :: ks → hostTick s = tick { s with keyInputs := ks }) ∧
  (∀ s : State, s.keyInputs = [] → hostTick s = tick s)

/-! The bus and its slaves -/

/-- 20_memory.md R53: the bus cycle is the answer of the one slave `bus.msel` names, the memory controller or the IOD; the
other one's state neither plays a part in it nor changes; and the master runs it once a transaction, after it has written
the latches. What the answers are, and what `ar` and `dr` take, is not said here. -/
def Obligations.ExactlyOneSlaveLooksAtATransaction : Prop :=
  (∀ s : State, s.bus.msel = true → busCycle s = memoryOperate s) ∧
  (∀ s : State, s.bus.msel = false → busCycle s = .next (iodOperate s)) ∧
  (∀ (s : State) (x : Iod), s.bus.msel = true →
    busCycle { s with iod := x } = andThen (busCycle s) fun t => .next { t with iod := x }) ∧
  (∀ (s : State) (n : Nat) (m : Memory), s.bus.msel = false →
    busCycle { s with ramSize := n, mem := m } = andThen (busCycle s) fun t => .next { t with ramSize := n, mem := m }) ∧
  (∀ (a : Word) (sel : Bool) (n : Width) (s : State), ∃ (x : Word) (f : State → Word),
    busRead a sel n s = andThen (busCycle { s with
      bus := { address := a, data := s.bus.data, read := true, msel := sel, word := n.isWord }, ar := x })
      fun t => .next { t with dr := f t }) ∧
  (∀ (a v : Word) (sel : Bool) (n : Width) (s : State), ∃ x y : Word,
    busWrite a sel n v s = busCycle { s with
      bus := { address := a, data := v, read := false, msel := sel, word := n.isWord }, ar := x, dr := y })

/-- 20_memory.md R54: the memory's answer to a read in range, and that nothing but the data latch changes. The high byte of
a word whose second byte is outside RAM is 0 (R57).
Rests on choices the spec marks as its own: D5, D6 (log entries 12, 13). -/
def Obligations.MemoryAnswersAReadInRange : Prop :=
  ∀ s : State, s.bus.msel = true → s.bus.read = true → s.bus.address.toNat < s.ramSize →
    (s.bus.word = false ∨ s.wordAccessOk s.bus.address) →
    ∃ t, busCycle s = .next t ∧ { t with bus := { t.bus with data := s.bus.data } } = s ∧
      t.bus.data.toNat = (s.peek s.bus.address.toNat).toNat +
        (if s.bus.word = true ∧ s.bus.address.toNat + 1 < s.ramSize then
          256 * (s.peek (s.bus.address.toNat + 1)).toNat else 0)

/-- R55: the memory's answer to a write in range: the low byte, for a word the high byte too where it is in RAM, no other
byte, no latch.
Rests on choices the spec marks as its own: D5, D6 (log entries 12, 13). -/
def Obligations.MemoryTakesAWriteInRange : Prop :=
  ∀ s : State, s.bus.msel = true → s.bus.read = false → s.bus.address.toNat < s.ramSize →
    (s.bus.word = false ∨ s.wordAccessOk s.bus.address) →
    ∃ t, busCycle s = .next t ∧ { t with mem := s.mem } = s ∧
      t.peek s.bus.address.toNat = s.bus.data.extractLsb' 0 8 ∧
      (s.bus.word = true → s.bus.address.toNat + 1 < s.ramSize →
        t.peek (s.bus.address.toNat + 1) = s.bus.data.extractLsb' 8 8) ∧
      SameMemBut s.bus.address.toNat (if s.bus.word then 2 else 1) s t

/-- R56, R58, R71: a transaction outside RAM changes nothing; a read then delivers what was on the data line.
Rests on choices the spec marks as its own: D21 (log entry 22). Rests also on the model's own choices (log entry 29). -/
def Obligations.MemoryIgnoresAddressesOutsideRam : Prop :=
  (∀ s : State, s.bus.msel = true → s.ramSize ≤ s.bus.address.toNat → busCycle s = .next s) ∧
  (∀ (a : Word) (n : Width) (s : State), s.ramSize ≤ a.toNat →
    ∃ t, memRead a n s = .next t ∧ t.bus.data = s.bus.data ∧ t.dr = s.bus.data ∧ SameMem s t) ∧
  (∀ (a v : Word) (n : Width) (s : State), s.ramSize ≤ a.toNat →
    ∃ t, memWrite a n v s = .next t ∧ SameMem s t)

/-- R57: a word access at the last RAM byte, under either value of STRADDLE_POLICY.
Rests on choices the spec marks as its own: D6 (log entry 13). -/
def Obligations.StraddlingWordFollowsTheStraddlePolicy : Prop :=
  ∀ s : State, s.bus.msel = true → s.bus.word = true → s.bus.address.toNat + 1 = s.ramSize →
    (s.cfg.straddlePolicy = .bytewise → s.bus.read = true →
      ∃ t, busCycle s = .next t ∧ t.bus.data.toNat = (s.peek s.bus.address.toNat).toNat) ∧
    (s.cfg.straddlePolicy = .bytewise → s.bus.read = false →
      ∃ t, busCycle s = .next t ∧ t.peek s.bus.address.toNat = s.bus.data.extractLsb' 0 8 ∧
        SameMemBut s.bus.address.toNat 1 s t) ∧
    (s.cfg.straddlePolicy = .fault → busCycle s = .fault (.straddlingWord s.bus.address))

/-- 60_exceptions.md R199, R201, R202: what the IOD answers, and that it answers nothing else; `bus.word` is not looked at.
Rests on choices the spec marks as its own: D18 (log entry 19). -/
def Obligations.IodAnswersPortOneReadsAndPortZeroWritesOnly : Prop :=
  ∀ s : State, s.bus.msel = false →
    (s.bus.read = true → s.bus.address = 1 →
      ∃ t, busCycle s = .next t ∧ t.bus.data.toNat = s.iod.key.toNat ∧ t.iod.key = 0 ∧ t.iod.out = s.iod.out ∧
        { t with bus := { t.bus with data := s.bus.data }, iod := s.iod } = s) ∧
    (s.bus.read = false → s.bus.address = 0 →
      ∃ t, busCycle s = .next t ∧ t.iod.out = s.iod.out ++ [s.bus.data.extractLsb' 0 8] ∧ t.iod.key = s.iod.key ∧
        { t with iod := s.iod } = s) ∧
    (¬ (s.bus.read = true ∧ s.bus.address = 1) → ¬ (s.bus.read = false ∧ s.bus.address = 0) → busCycle s = .next s)

/-- R60, R54, 95_test_vectors.md S6: a word written at an address reads back, its low byte stands at the address and its high
byte at the next, byte reads see them there, and every other byte is as it was; the instruction word and the extension word
the machine fetches have their low byte at the lower address.
Rests on choices the spec marks as its own: D5 (log entry 12). -/
def Obligations.WordWrittenReadsBackLittleEndian : Prop :=
  (∀ (a v : Word) (s t : State), a.toNat + 1 < s.ramSize → memWrite a .word v s = .next t →
    t.peek a.toNat = v.extractLsb' 0 8 ∧ t.peek (a.toNat + 1) = v.extractLsb' 8 8 ∧ SameMemBut a.toNat 2 s t ∧
    (∃ u, memRead a .word t = .next u ∧ u.bus.data = v) ∧
    (∃ u, memRead a .byte t = .next u ∧ u.bus.data.toNat = v.toNat % 256) ∧
    (a.toNat + 1 < 65536 → ∃ u, memRead (a + 1) .byte t = .next u ∧ u.bus.data.toNat = v.toNat / 256)) ∧
  (∀ s : State, s.roomAtPc = true →
    s.fetchedWord = (s.peek (s.pc.toNat + 1) ++ s.peek s.pc.toNat : Word) ∧
    s.followingWord = (s.peek (s.pc.toNat + 3) ++ s.peek (s.pc.toNat + 2) : Word))

/-! The phases -/

/-- 40_phase_machine.md R102, R57, R58: the fetch.
Rests on choices the spec marks as its own: D6, D21 (log entries 13, 22). Rests also on the model's own choices (log
entry 29). -/
def Obligations.FetchTickLoadsTheInstructionRegister : Prop :=
  ∀ s : State, s.phaseNext = .IF → s.wordAccessOk s.pc →
    ∃ t, tick s = .next t ∧ t.ir = s.fetchedWord ∧ t.pc = s.pc + 2 ∧ t.phaseNow = .IF ∧ t.phaseNext = .ID ∧
      BusReadSeen s.pc s.fetchedWord true true t ∧
      (s.pc.toNat + 1 < s.ramSize →
        s.fetchedWord = (s.peek (s.pc.toNat + 1) ++ s.peek s.pc.toNat : Word)) ∧
      (s.pc.toNat + 1 = s.ramSize → s.fetchedWord.toNat = (s.peek s.pc.toNat).toNat) ∧
      (s.ramSize ≤ s.pc.toNat → s.fetchedWord = s.bus.data) ∧
      SameRegs s t ∧ SameMem s t ∧ t.flags = s.flags ∧ t.sp = s.sp ∧ t.iod = s.iod ∧ t.cfg = s.cfg ∧
      t.ramSize = s.ramSize ∧ t.keyInputs = s.keyInputs

/-- R103: the decode phase clears the bus and decides on the operand fetch by mode, group and name; it changes nothing
else.
Rests on choices the spec marks as its own: D1 (log entry 5). -/
def Obligations.DecodeTickClearsTheBusAndChoosesTheNextPhase : Prop :=
  ∀ s : State, s.phaseNext = .ID →
    ∃ t, tick s = .next t ∧
      t.bus = { address := 0, data := 0, read := false, msel := false, word := false } ∧ t.phaseNow = .ID ∧
      (((s.ir.extractLsb' 12 2).toNat > 0 ∧ (s.ir.extractLsb' 8 8).toNat ≠ 0x32 ∧ (s.ir.extractLsb' 8 8).toNat ≠ 0x33) ∨
        (s.ir.extractLsb' 14 2).toNat = 2 ∨ (s.ir.extractLsb' 8 8).toNat = 0xC0 ∨
        (s.ir.extractLsb' 8 8).toNat = 0xC8 → t.phaseNext = .OF) ∧
      (¬ (((s.ir.extractLsb' 12 2).toNat > 0 ∧ (s.ir.extractLsb' 8 8).toNat ≠ 0x32 ∧
          (s.ir.extractLsb' 8 8).toNat ≠ 0x33) ∨
        (s.ir.extractLsb' 14 2).toNat = 2 ∨ (s.ir.extractLsb' 8 8).toNat = 0xC0 ∨
        (s.ir.extractLsb' 8 8).toNat = 0xC8) → t.phaseNext = .IE) ∧
      { t with bus := s.bus, phaseNow := s.phaseNow, phaseNext := s.phaseNext } = s

/-- R105: the operand fetch of modes 0 and 1 reads the word at `pc` onto the bus and moves `pc` past it.
Rests on choices the spec marks as its own: D7, D21 (log entries 14, 22). -/
def Obligations.OperandTickReadsTheFollowingWord : Prop :=
  ∀ s : State, s.phaseNext = .OF → (modeOf s.ir = 0 ∨ modeOf s.ir = 1) → s.wordAccessOk s.pc →
    ∃ t, tick s = .next t ∧ BusReadSeen s.pc (s.memAnswer s.pc true) true true t ∧ t.pc = s.pc + 2 ∧
      (s.ramSize ≤ s.pc.toNat → t.bus.data = s.bus.data) ∧
      { t with bus := s.bus, ar := s.ar, dr := s.dr, pc := s.pc, phaseNow := s.phaseNow, phaseNext := s.phaseNext } = s ∧
      t.phaseNow = .OF ∧ t.phaseNext = .IE

/-- R106: the operand fetch of mode 2 reads the address word at `pc`, then for LDWA the word and for LDBA the byte at that
address; for any other triple of the mode the address word stays on the bus.
Rests on choices the spec marks as its own: D5, D7, D21 (log entries 12, 14, 22). Rests also on the model's own choices
(log entry 29). -/
def Obligations.OperandTickReadsThroughTheAbsoluteAddress : Prop :=
  ∀ s : State, s.phaseNext = .OF → modeOf s.ir = 2 → s.wordAccessOk s.pc →
    (s.ir.extractLsb' 8 8 = 0x20 → s.wordAccessOk (s.memAnswer s.pc true)) →
    ∃ t, tick s = .next t ∧ t.pc = s.pc + 2 ∧ t.phaseNow = .OF ∧ t.phaseNext = .IE ∧
      (s.ir.extractLsb' 8 8 = 0x20 → (s.memAnswer s.pc true).toNat < s.ramSize →
        BusReadSeen (s.memAnswer s.pc true) (s.memValue (s.memAnswer s.pc true).toNat true) true true t) ∧
      (s.ir.extractLsb' 8 8 = 0x21 → (s.memAnswer s.pc true).toNat < s.ramSize →
        BusReadSeen (s.memAnswer s.pc true) (s.memValue (s.memAnswer s.pc true).toNat false) true false t) ∧
      (s.ir.extractLsb' 8 8 = 0x20 → s.ramSize ≤ (s.memAnswer s.pc true).toNat →
        BusReadSeen (s.memAnswer s.pc true) (s.memAnswer s.pc true) true true t) ∧
      (s.ir.extractLsb' 8 8 = 0x21 → s.ramSize ≤ (s.memAnswer s.pc true).toNat →
        BusReadSeen (s.memAnswer s.pc true) (s.memAnswer s.pc true) true false t) ∧
      (s.ir.extractLsb' 8 8 ≠ 0x20 → s.ir.extractLsb' 8 8 ≠ 0x21 →
        BusReadSeen s.pc (s.memAnswer s.pc true) true true t) ∧
      { t with bus := s.bus, ar := s.ar, dr := s.dr, pc := s.pc, phaseNow := s.phaseNow, phaseNext := s.phaseNext } = s

/-- R107: the operand fetch of mode 3 makes one read at the address in `rb`, a byte for LDBR and a word otherwise; `pc` does
not move.
Rests on choices the spec marks as its own: D5, D7, D21 (log entries 12, 14, 22). Rests also on the model's own choices
(log entry 29). -/
def Obligations.OperandTickReadsAtTheRegisterAddress : Prop :=
  ∀ s : State, s.phaseNext = .OF → modeOf s.ir = 3 →
    (s.ir.extractLsb' 8 8 ≠ 0x31 → s.wordAccessOk (s.reg (rbOf s.ir))) →
    ∃ t, tick s = .next t ∧ t.phaseNow = .OF ∧ t.phaseNext = .IE ∧
      (s.ir.extractLsb' 8 8 = 0x31 → (s.reg (rbOf s.ir)).toNat < s.ramSize →
        BusReadSeen (s.reg (rbOf s.ir)) (s.memValue (s.reg (rbOf s.ir)).toNat false) true false t) ∧
      (s.ir.extractLsb' 8 8 ≠ 0x31 → (s.reg (rbOf s.ir)).toNat < s.ramSize →
        BusReadSeen (s.reg (rbOf s.ir)) (s.memValue (s.reg (rbOf s.ir)).toNat true) true true t) ∧
      (s.ir.extractLsb' 8 8 = 0x31 → s.ramSize ≤ (s.reg (rbOf s.ir)).toNat →
        BusReadSeen (s.reg (rbOf s.ir)) s.bus.data true false t) ∧
      (s.ir.extractLsb' 8 8 ≠ 0x31 → s.ramSize ≤ (s.reg (rbOf s.ir)).toNat →
        BusReadSeen (s.reg (rbOf s.ir)) s.bus.data true true t) ∧
      { t with bus := s.bus, ar := s.ar, dr := s.dr, phaseNow := s.phaseNow, phaseNext := s.phaseNext } = s

/-- R109, R191, R194: an unmatched triple. In IE it sets `phase_next` to FAULT and changes nothing else; run from its
fetch, the state it faults in is the state IE started in, the one its own IF, ID and OF left, with FAULT due.
Rests on choices the spec marks as its own: D7, D30 (log entries 14, 28). Rests also on the model's own choices (log
entry 33). Read from the spec by inference (log entry 4). -/
def Obligations.IllegalInstructionFaultsAndChangesNothingElse : Prop :=
  (∀ s : State, s.phaseNext = .IE → (∀ o : Op, s.ir.extractLsb' 8 8 ≠ o.hi) →
    tick s = .next { s with phaseNow := .IE, phaseNext := .FAULT }) ∧
  (∀ s u : State, s.phaseNext = .IF → (∀ o : Op, s.fetchedWord.extractLsb' 8 8 ≠ o.hi) → toExecute s = .next u →
    step s = .next { u with phaseNext := .FAULT }) ∧
  (∀ s : State, s.phaseNext = .IF → s.fetchOk → (∀ o : Op, s.fetchedWord.extractLsb' 8 8 ≠ o.hi) →
    ∃ t, step s = .next t ∧ t.phaseNow = .IE ∧ t.phaseNext = .FAULT ∧ t.mnemonic = none ∧ t.ir = s.fetchedWord ∧
      (s.takesFollowingWord → t.pc = s.pc + 4 ∧ t.bus.data = s.followingWord) ∧
      (¬ s.takesFollowingWord → t.pc = s.pc + 2) ∧
      (needsOf s.fetchedWord = false → t.bus = clearedBus) ∧
      (needsOf s.fetchedWord = true → modeOf s.fetchedWord = 3 →
        t.bus.data = if (s.reg (rbOf s.fetchedWord)).toNat < s.ramSize then
          s.memValue (s.reg (rbOf s.fetchedWord)).toNat true else 0) ∧
      SameRegs s t ∧ SameMem s t ∧ t.flags = s.flags ∧ t.sp = s.sp ∧ t.iod.out = s.iod.out ∧ t.cfg = s.cfg ∧
      t.ramSize = s.ramSize ∧ (∃ u, toExecute s = .next u ∧ t = { u with phaseNext := .FAULT }))

/-- R101: a stopped machine. A tick copies `phase_next` into `phase_now`; after that a tick is the identity; and whatever the
host does short of a reset, the machine stays stopped, with its registers, flags, memory and output.
Rests on choices the spec marks as its own: D19 (log entry 20). -/
def Obligations.StoppedMachineStaysStoppedUntilReset : Prop :=
  (∀ s : State, s.stopped = true →
    tick s = .next { s with phaseNow := s.phaseNext } ∧
    tick { s with phaseNow := s.phaseNext } = .next { s with phaseNow := s.phaseNext }) ∧
  (∀ (ops : List HostOp) (s t : State), s.stopped = true → (∀ op ∈ ops, isReset op = false) →
    hostRun ops s = .next t →
    t.phaseNext = s.phaseNext ∧ { t with phaseNow := s.phaseNow, iod := { t.iod with key := s.iod.key } } = s)

/-- R100 to R108, R111: when the words at the program counter decode to an instruction, the step is that instruction's arm on
the state its own fetch, decode and operand fetch left. The first clause takes the two words as the machine's reads deliver
them, in RAM or not; the second takes the bytes in RAM at `pc`.
Rests on choices the spec marks as its own: D4 (log entry 11). Read from the spec by inference (log entries 30, 31). -/
def Obligations.StepRunsTheDecodedInstruction : Prop :=
  (∀ (s : State) (i : Instr), s.phaseNext = .IF → decodeWords s.fetchedWord s.followingWord = .ok i →
    step s = andThen (toExecute s) (exec i)) ∧
  (∀ (s : State) (i : Instr) (rest : List Byte), s.phaseNext = .IF → s.roomAtPc = true →
    decodeBytes [s.peek s.pc.toNat, s.peek (s.pc.toNat + 1), s.peek (s.pc.toNat + 2), s.peek (s.pc.toNat + 3)] =
      .ok (i, rest) →
    step s = andThen (toExecute s) (exec i))

/-- R71, R102 to R107, R111: the state an instruction's IE starts in: `pc` past the instruction, the operand on the data line
(0 where there was no operand fetch; the extension word; what the absolute or register-indirect address reads, or where no
memory answers the stale value), and registers, flags, memory, `sp` and output as before the instruction.
Rests on choices the spec marks as its own: D4, D5, D7 (log entries 11, 12, 14). Rests also on the model's own choices
(log entry 29). -/
def Obligations.OperandFetchDeliversTheOperand : Prop :=
  ∀ s : State, s.phaseNext = .IF → s.fetchOk →
    ∃ u, toExecute s = .next u ∧ u.ir = s.fetchedWord ∧ u.phaseNow = .IE ∧ u.phaseNext = .IE ∧
      (s.takesFollowingWord → u.pc = s.pc + 4) ∧ (¬ s.takesFollowingWord → u.pc = s.pc + 2) ∧
      (needsOf s.fetchedWord = false → u.bus = clearedBus) ∧
      (needsOf s.fetchedWord = true → modeOf s.fetchedWord = 0 ∨ modeOf s.fetchedWord = 1 →
        u.opnd = s.followingWord) ∧
      (isOp .ldwa s.fetchedWord = true → u.opnd =
        if s.followingWord.toNat < s.ramSize then s.memValue s.followingWord.toNat true else s.followingWord) ∧
      (isOp .ldba s.fetchedWord = true → u.opnd =
        if s.followingWord.toNat < s.ramSize then s.memValue s.followingWord.toNat false else s.followingWord) ∧
      (modeOf s.fetchedWord = 2 → isOp .ldwa s.fetchedWord = false → isOp .ldba s.fetchedWord = false →
        u.opnd = s.followingWord) ∧
      (isOp .ldbr s.fetchedWord = true → u.opnd =
        if (s.reg (rbOf s.fetchedWord)).toNat < s.ramSize then
          s.memValue (s.reg (rbOf s.fetchedWord)).toNat false else 0) ∧
      (needsOf s.fetchedWord = true → modeOf s.fetchedWord = 3 → isOp .ldbr s.fetchedWord = false → u.opnd =
        if (s.reg (rbOf s.fetchedWord)).toNat < s.ramSize then
          s.memValue (s.reg (rbOf s.fetchedWord)).toNat true else 0) ∧
      SameRegs s u ∧ SameMem s u ∧ u.flags = s.flags ∧ u.sp = s.sp ∧ u.iod.out = s.iod.out ∧ u.cfg = s.cfg ∧
      u.ramSize = s.ramSize ∧ (s.keyInputs = [] → u.iod = s.iod)

/-- R110: an instruction takes four ticks where `needs_of` holds and three where it does not: so many entries of the host's
schedule are used. From any state, a step is a tick under that schedule and, where the tick ran IF, ID or OF, the step from
there on.
Rests on the model's own choices (log entry 2). Read from the spec by inference (log entry 30). -/
def Obligations.InstructionTakesThreeOrFourTicks : Prop :=
  (∀ s t : State, s.phaseNext = .IF → step s = .next t →
    t.keyInputs = s.keyInputs.drop (if needsOf s.fetchedWord = true then 4 else 3)) ∧
  (∀ s : State, step s = andThen (hostTick s) fun t =>
    if t.phaseNow = .IF ∨ t.phaseNow = .ID ∨ t.phaseNow = .OF then step t else .next t)

/-! The whole machine -/

/-- Every step keeps the invariant: RAM's size in range and its contents canonical and inside it, and a coherent phase
machine (R7, R28, R32, R101 to R104, R109, R180, R191). -/
def Obligations.StepKeepsTheInvariant : Prop :=
  ∀ s t : State, s.Inv → step s = .next t → t.Inv

/-- Every reset state has the invariant, the model's own `State.reset` among them.
Rests on choices the spec marks as its own: D20, D22 (log entries 21, 23). Rests also on the model's own choices (log
entry 1). -/
def Obligations.ResetHasTheInvariant : Prop :=
  State.reset.Inv ∧ ∀ r : ResetConfig, ramSizeOk r.ramSize = true → (State.resetWith r).Inv

/-- Any sequence of host operations, ticks among them, keeps the invariant (R216).
Rests on choices the spec marks as its own: D25 (log entry 25). -/
def Obligations.HostRunKeepsTheInvariant : Prop :=
  ∀ (ops : List HostOp) (s t : State), s.Inv → hostRun ops s = .next t → t.Inv

/-- R219: every tick, and so every step, is enabled in every state under the default STRADDLE_POLICY.
Rests on choices the spec marks as its own: D6 (log entry 13). -/
def Obligations.EveryTickIsEnabledInEveryState : Prop :=
  ∀ s : State, s.cfg.straddlePolicy = .bytewise → (∃ t, tick s = .next t) ∧ (∃ t, step s = .next t)

/-- R190, R57: a step is never refused, and the one thing that can stop it is a straddling word under STRADDLE_POLICY =
fault.
Rests on choices the spec marks as its own: D6 (log entry 13). -/
def Obligations.OnlyAStraddlingWordStopsAStep : Prop :=
  ∀ s : State, (∀ r, step s ≠ .refused r) ∧
    (∀ f, step s = .fault f → s.cfg.straddlePolicy = .fault ∧ ∃ a : Word, f = .straddlingWord a ∧ a.toNat + 1 = s.ramSize)

/-- R110, R101: from any state a step ends with an instruction finished or a stopped machine: its last tick ran IE, or, of
a machine that was stopped before it, the terminal phase that is due; and IF, HALTED or FAULT is due.
Rests on choices the spec marks as its own: D19 (log entry 20). Read from the spec by inference (log entry 30). -/
def Obligations.StepEndsBetweenInstructions : Prop :=
  ∀ s t : State, step s = .next t →
    (t.phaseNow = .IE ∨ (t.phaseNow = t.phaseNext ∧ (t.phaseNext = .HALTED ∨ t.phaseNext = .FAULT))) ∧
    (s.stopped = false → t.phaseNow = .IE) ∧ (s.stopped = true → t.phaseNow = s.phaseNext ∧ t.phaseNext = s.phaseNext) ∧
    (t.phaseNext = .IF ∨ t.phaseNext = .HALTED ∨ t.phaseNext = .FAULT)

/-- R190, R191, R193: an instruction ends in HALTED exactly when its triple is HLT's and in FAULT exactly when its triple is
no row of the map.
Rests on choices the spec marks as its own: D1 (log entry 5). -/
def Obligations.HaltedByHltAloneAndFaultedByIllegalTriplesAlone : Prop :=
  ∀ s t : State, s.phaseNext = .IF → step s = .next t →
    (t.phaseNext = .HALTED ↔ s.fetchedWord.extractLsb' 8 8 = 0xCF) ∧
    (t.phaseNext = .FAULT ↔ ∀ o : Op, s.fetchedWord.extractLsb' 8 8 ≠ o.hi)

/-- R23: the writers of the flags. ALU instructions aside, `C` and `V` are kept by all; the loads write `Z` and `N`, TSTI and
TSTO write `Z` alone, and no other instruction writes a flag.
Rests on choices the spec marks as its own: D9, D10 (log entry 9). -/
def Obligations.OnlyTheNamedInstructionsWriteFlags : Prop :=
  ∀ (i : Instr) (s t : State), exec i s = .next t →
    (isAlu i.op = false → t.flags.c = s.flags.c ∧ t.flags.v = s.flags.v) ∧
    (isAlu i.op = false → isLoad i.op = false → t.flags.n = s.flags.n) ∧
    (isAlu i.op = false → isLoad i.op = false → i.op ≠ .tsti → i.op ≠ .tsto → t.flags = s.flags)

/-- R22, R25, R131 to R134, R160, R161, R180: in IE only group 3 writes `pc`, only PUSH, POP, CALL, RET and SPWR write `sp`,
only stores, PUSH and CALL write memory, only INB touches the key and only OUTB the output, only HLT leaves IF aside, and
no arm touches the parameters, the RAM size, `ir`, `phase_now` or the host's schedule.
Rests on choices the spec marks as its own: D17 (log entry 10). Rests also on the model's own choices (log entries 2,
3). -/
def Obligations.OnlyTheNamedInstructionsWriteEachPieceOfState : Prop :=
  ∀ (i : Instr) (s t : State), exec i s = .next t →
    (isControl i.op = false → t.pc = s.pc) ∧
    (i.op ∉ [.push, .pop, .call, .ret, .spwr] → t.sp = s.sp) ∧
    (isStore i.op = false → SameMem s t) ∧
    (i.op ≠ .inb → t.iod.key = s.iod.key) ∧
    (i.op ≠ .outb → t.iod.out = s.iod.out) ∧
    (i.op ≠ .hlt → t.phaseNext = .IF) ∧
    SameMachine s t

/-- R27, R28: `ar`, `dr` and `phase_now` cannot affect any other state: two states that differ in them alone step to states
that differ in them alone, or stop alike.
Rests on choices the spec marks as its own: D21 (log entry 22). -/
def Obligations.DisplayRegistersAffectNothing : Prop :=
  ∀ s t : State, SameButDisplay s t → AlikeButDisplay (step s) (step t)

/-- R192, R200, R216: a key latched before the IF, ID or OF tick of an instruction is the same as the key latched after it, so
where in an instruction the host latches a key, before IE, makes no difference. -/
def Obligations.KeyBeforeOrAfterAPhaseBeforeExecuteIsTheSame : Prop :=
  ∀ (k : Byte) (s : State), s.phaseNext ≠ .IE → tick (s.latchKey k) = latchAfter k (tick s)

/-- R202: the output only grows, by at most one byte an instruction, and only OUTB to port 0 adds one.
Rests on choices the spec marks as its own: D1 (log entry 5). -/
def Obligations.OutputOnlyGrowsAndOnlyByOutb : Prop :=
  ∀ s t : State, s.phaseNext = .IF → step s = .next t →
    (∃ out, t.iod.out = s.iod.out ++ out ∧ out.length ≤ 1) ∧
    (t.iod.out ≠ s.iod.out → s.fetchedWord.extractLsb' 8 8 = 0x83 ∧ s.followingWord = 0)

/-! Data transfer -/

/-- R120, R123, R124: MV, SPRD, SPWR complete in every state with these values and this frame; no flag is written.
Rests on choices the spec marks as its own: D2, D10 (log entries 6, 9). -/
def Obligations.RegisterMovesCopyAndWriteNoFlag : Prop :=
  (∀ (ra rb : Reg) (s : State), ∃ t, exec (.mv ra rb) s = .next t ∧ t.reg rb = s.reg ra ∧ SameRegsBut rb s t ∧
    t.flags = s.flags ∧ RegisterArm s t) ∧
  (∀ (ra : Reg) (s : State), ∃ t, exec (.sprd ra) s = .next t ∧ t.reg ra = s.sp ∧ SameRegsBut ra s t ∧
    t.flags = s.flags ∧ RegisterArm s t) ∧
  (∀ (ra : Reg) (s : State), ∃ t, exec (.spwr ra) s = .next t ∧ t.sp = s.reg ra ∧
    TransferArm s t ∧ SameMem s t ∧ SameBus s t ∧ t.iod = s.iod ∧ t.pc = s.pc)

/-- R125, R126, R135: LDWI writes the extension word, LDBI its low byte zero-extended, and both set `Z` and `N` from the
16-bit value written and keep `C` and `V`.
Rests on choices the spec marks as its own: D8, D9 (log entries 7, 9). -/
def Obligations.ImmediateLoadsWriteTheExtensionWord : Prop :=
  (∀ (ra : Reg) (imm : Word) (s : State), ∃ t, exec (.ldwi ra imm) s = .next t ∧ t.reg ra = imm ∧ ZNFrom imm t.flags ∧
    t.flags.c = s.flags.c ∧ t.flags.v = s.flags.v ∧ SameRegsBut ra s t ∧ RegisterArm s t) ∧
  (∀ (ra : Reg) (imm : Word) (s : State), ∃ t, exec (.ldbi ra imm) s = .next t ∧
    (t.reg ra).toNat = imm.toNat % 256 ∧ ZNFrom (t.reg ra) t.flags ∧ t.flags.n = false ∧
    t.flags.c = s.flags.c ∧ t.flags.v = s.flags.v ∧ SameRegsBut ra s t ∧ RegisterArm s t)

/-- R127 to R130, R135: the memory loads write the operand OF left on the data line, the byte loads its low byte
zero-extended, and set `Z` and `N` from the 16-bit value written; `C`, `V`, the base register and all else are kept.
Rests on choices the spec marks as its own: D4, D8, D9 (log entries 7, 9, 11). Read from the spec by inference (log
entry 31). -/
def Obligations.MemoryLoadsWriteTheOperandOnTheBus : Prop :=
  (∀ (ra : Reg) (addr : Word) (s : State), ∃ t, exec (.ldwa ra addr) s = .next t ∧ t.reg ra = s.bus.data ∧
    ZNFrom s.bus.data t.flags ∧ t.flags.c = s.flags.c ∧ t.flags.v = s.flags.v ∧ SameRegsBut ra s t ∧ RegisterArm s t) ∧
  (∀ (ra : Reg) (addr : Word) (s : State), ∃ t, exec (.ldba ra addr) s = .next t ∧
    (t.reg ra).toNat = s.bus.data.toNat % 256 ∧ ZNFrom (t.reg ra) t.flags ∧ t.flags.n = false ∧
    t.flags.c = s.flags.c ∧ t.flags.v = s.flags.v ∧ SameRegsBut ra s t ∧ RegisterArm s t) ∧
  (∀ (ra rb : Reg) (s : State), ∃ t, exec (.ldwr ra rb) s = .next t ∧ t.reg ra = s.bus.data ∧
    ZNFrom s.bus.data t.flags ∧ t.flags.c = s.flags.c ∧ t.flags.v = s.flags.v ∧ SameRegsBut ra s t ∧ RegisterArm s t) ∧
  (∀ (ra rb : Reg) (s : State), ∃ t, exec (.ldbr ra rb) s = .next t ∧
    (t.reg ra).toNat = s.bus.data.toNat % 256 ∧ ZNFrom (t.reg ra) t.flags ∧ t.flags.n = false ∧
    t.flags.c = s.flags.c ∧ t.flags.v = s.flags.v ∧ SameRegsBut ra s t ∧ RegisterArm s t)

/-- R127, R129: run from its fetch, LDWR delivers the word in memory at the address in `rb`, and LDWA the word at its
extension word, where these lie in RAM.
Rests on choices the spec marks as its own: D2, D4, D7 (log entries 6, 11, 14). -/
def Obligations.LoadStepsDeliverTheWordInMemory : Prop :=
  (∀ (ra rb : Reg) (s : State), s.phaseNext = .IF → s.fetchOk → decodeWords s.fetchedWord s.followingWord = .ok (.ldwr ra rb) →
    (s.reg rb).toNat + 1 < s.ramSize →
    ∃ t, step s = .next t ∧ t.reg ra = (s.peek ((s.reg rb).toNat + 1) ++ s.peek (s.reg rb).toNat : Word) ∧
      SameRegsBut ra s t ∧ t.pc = s.pc + 2) ∧
  (∀ (ra : Reg) (addr : Word) (s : State), s.phaseNext = .IF → s.fetchOk →
    decodeWords s.fetchedWord s.followingWord = .ok (.ldwa ra addr) → addr.toNat + 1 < s.ramSize →
    ∃ t, step s = .next t ∧ t.reg ra = (s.peek (addr.toNat + 1) ++ s.peek addr.toNat : Word) ∧
      SameRegsBut ra s t ∧ t.pc = s.pc + 4)

/-- R121: PUSH under either value of STACK_ORDER: `sp` goes down by 2, the word goes to the address the model's push uses
(`sp - 2` by default), no flag and no register changes; a straddling word under STRADDLE_POLICY = fault stops.
Rests on choices the spec marks as its own: D6, D10, D14, D16 (log entries 9, 13, 17, 18). -/
def Obligations.PushStoresTheRegisterOnTheStack : Prop :=
  ∀ (ra : Reg) (s : State),
    (s.cfg.stackOrder = .predecPostinc → s.pushAddress = s.sp - 2) ∧
    (s.cfg.stackOrder = .postdecPreinc → s.pushAddress = s.sp) ∧
    (s.wordAccessOk s.pushAddress →
      ∃ t, exec (.push ra) s = .next t ∧ t.sp = s.sp - 2 ∧ WordStored s.pushAddress (s.reg ra) s t ∧
        BusWriteSeen s.pushAddress (s.reg ra) true true t ∧ TransferArm s t ∧ t.iod = s.iod ∧ t.pc = s.pc) ∧
    (¬ s.wordAccessOk s.pushAddress → exec (.push ra) s = .fault (.straddlingWord s.pushAddress))

/-- R122: POP under either value of STACK_ORDER: the register takes the word at the address the model's pop uses (`sp` by
default), or the stale data line where that is outside RAM, and `sp` goes up by 2; no flag, no byte of memory changes.
Rests on choices the spec marks as its own: D6, D10, D14, D16 (log entries 9, 13, 17, 18). Rests also on the model's own
choices (log entry 29). -/
def Obligations.PopLoadsTheRegisterFromTheStack : Prop :=
  ∀ (ra : Reg) (s : State),
    (s.cfg.stackOrder = .predecPostinc → s.popAddress = s.sp) ∧
    (s.cfg.stackOrder = .postdecPreinc → s.popAddress = s.sp + 2) ∧
    (s.wordAccessOk s.popAddress →
      ∃ t, exec (.pop ra) s = .next t ∧ t.sp = s.sp + 2 ∧ t.reg ra = s.memAnswer s.popAddress true ∧
        (s.popAddress.toNat + 1 < s.ramSize →
          t.reg ra = (s.peek (s.popAddress.toNat + 1) ++ s.peek s.popAddress.toNat : Word)) ∧
        (s.ramSize ≤ s.popAddress.toNat → t.reg ra = s.bus.data) ∧
        SameRegsBut ra s t ∧ BusReadSeen s.popAddress (s.memAnswer s.popAddress true) true true t ∧
        SameMachine s t ∧ SameMem s t ∧ t.flags = s.flags ∧ t.iod = s.iod ∧ t.pc = s.pc ∧ t.phaseNext = .IF) ∧
    (¬ s.wordAccessOk s.popAddress → exec (.pop ra) s = .fault (.straddlingWord s.popAddress))

/-- 95_test_vectors.md S9, R121, R122: PUSH of one register and POP into another, under either STACK_ORDER: the second
holds the first's value and `sp` is back, where the stack word is in RAM. R178, R179: a RET right after a CALL, the stack
word in RAM, returns to the address after the CALL with `sp` as before.
Rests on choices the spec marks as its own: D14 (log entry 17). -/
def Obligations.PopUndoesPushAndRetUndoesCall : Prop :=
  (∀ (ra rb : Reg) (s t : State), exec (.push ra) s = .next t → s.pushAddress.toNat + 1 < s.ramSize →
    ∃ u, exec (.pop rb) t = .next u ∧ u.reg rb = s.reg ra ∧ u.sp = s.sp ∧ SameRegsBut rb s u ∧ u.flags = s.flags) ∧
  (∀ (target : Word) (s t : State), exec (.call target) s = .next t → s.pushAddress.toNat + 1 < s.ramSize →
    ∃ u, exec .ret t = .next u ∧ u.pc = s.pc ∧ u.sp = s.sp ∧ SameRegs s u ∧ u.flags = s.flags)

/-- R131 to R134: STWA and STBA store the word or the low byte at their extension word, STWR and STBR at the address in
`rb`; a straddling word under STRADDLE_POLICY = fault stops.
Rests on choices the spec marks as its own: D2, D5, D6, D10 (log entries 6, 9, 12, 13). -/
def Obligations.StoresStoreAtTheirAddress : Prop :=
  (∀ (ra : Reg) (addr : Word) (s : State), s.wordAccessOk addr →
    ∃ t, exec (.stwa ra addr) s = .next t ∧ WordStored addr (s.reg ra) s t ∧
      BusWriteSeen addr (s.reg ra) true true t ∧ TransferArm s t ∧ t.iod = s.iod ∧ t.pc = s.pc ∧ t.sp = s.sp) ∧
  (∀ (ra : Reg) (addr : Word) (s : State), ¬ s.wordAccessOk addr →
    exec (.stwa ra addr) s = .fault (.straddlingWord addr)) ∧
  (∀ (ra : Reg) (addr : Word) (s : State),
    ∃ t, exec (.stba ra addr) s = .next t ∧ ByteStored addr (s.reg ra) s t ∧
      BusWriteSeen addr (s.reg ra) true false t ∧ TransferArm s t ∧ t.iod = s.iod ∧ t.pc = s.pc ∧ t.sp = s.sp) ∧
  (∀ (ra rb : Reg) (s : State), s.wordAccessOk (s.reg rb) →
    ∃ t, exec (.stwr ra rb) s = .next t ∧ WordStored (s.reg rb) (s.reg ra) s t ∧
      BusWriteSeen (s.reg rb) (s.reg ra) true true t ∧ TransferArm s t ∧ t.iod = s.iod ∧ t.pc = s.pc ∧ t.sp = s.sp) ∧
  (∀ (ra rb : Reg) (s : State), ¬ s.wordAccessOk (s.reg rb) →
    exec (.stwr ra rb) s = .fault (.straddlingWord (s.reg rb))) ∧
  (∀ (ra rb : Reg) (s : State),
    ∃ t, exec (.stbr ra rb) s = .next t ∧ ByteStored (s.reg rb) (s.reg ra) s t ∧
      BusWriteSeen (s.reg rb) (s.reg ra) true false t ∧ TransferArm s t ∧ t.iod = s.iod ∧ t.pc = s.pc ∧ t.sp = s.sp)

/-! Arithmetic and logic -/

/-- 42_alu.md R141: the two's-complement helper: all bits inverted and 1 added, the carry out of bit 15 dropped; an
involution that keeps 0x0000 and 0x8000. -/
def Obligations.TwosIsTheTwosComplement : Prop :=
  (∀ v : Word, twos v = ~~~v + 1 ∧ (twos v).toNat = (65536 - v.toNat) % 65536 ∧ twos (twos v) = v) ∧
  twos 0x0000 = 0x0000 ∧ twos 0x8000 = 0x8000

/-- 42_alu.md R142: ADD.
Rests on choices the spec marks as its own: D2, D28 (log entries 6, 27). -/
def Obligations.AddWritesTheSumAndItsFlags : Prop :=
  ∀ (ra rb : Reg) (s : State), ∃ t, exec (.add ra rb) s = .next t ∧
    (t.reg rb).toNat = ((s.reg rb).toNat + (s.reg ra).toNat) % 65536 ∧
    (t.flags.c = true ↔ 65535 < (s.reg rb).toNat + (s.reg ra).toNat) ∧
    (t.flags.v = true ↔ outOfRange ((s.reg rb).toInt + (s.reg ra).toInt)) ∧
    ZNFrom (t.reg rb) t.flags ∧ SameRegsBut rb s t ∧ RegisterArm s t

/-- R143, R141: SUB. `C` is set exactly when the subtrahend is not zero and not above the minuend; `V` is the signed overflow
of the difference, or under the other SUB_V_RULE of the addition of `twos(b)`.
Rests on choices the spec marks as its own: D2, D13 (log entries 6, 16). -/
def Obligations.SubWritesTheDifferenceAndItsFlags : Prop :=
  ∀ (ra rb : Reg) (s : State), ∃ t, exec (.sub ra rb) s = .next t ∧
    ((t.reg rb).toNat : Int) = ((s.reg rb).toNat - (s.reg ra).toNat : Int) % 65536 ∧
    (t.flags.c = true ↔ (s.reg ra).toNat ≠ 0 ∧ (s.reg ra).toNat ≤ (s.reg rb).toNat) ∧
    (s.cfg.subVRule = .trueSigned →
      (t.flags.v = true ↔ outOfRange ((s.reg rb).toInt - (s.reg ra).toInt))) ∧
    (s.cfg.subVRule = .twosAddition →
      (t.flags.v = true ↔ outOfRange ((s.reg rb).toInt + (BitVec.ofInt 16 (- (s.reg ra).toInt)).toInt))) ∧
    ZNFrom (t.reg rb) t.flags ∧ SameRegsBut rb s t ∧ RegisterArm s t

/-- R144 to R147: NOT, AND, OR, XOR, bit by bit; `C` and `V` cleared.
Rests on choices the spec marks as its own: D2 (log entry 6). -/
def Obligations.LogicWritesTheBitsAndClearsCarryAndOverflow : Prop :=
  (∀ (ra : Reg) (s : State), ∃ t, exec (.not ra) s = .next t ∧
    (t.reg ra).toNat = 65535 - (s.reg ra).toNat ∧ t.flags.c = false ∧ t.flags.v = false ∧
    ZNFrom (t.reg ra) t.flags ∧ SameRegsBut ra s t ∧ RegisterArm s t) ∧
  (∀ (ra rb : Reg) (s : State), ∃ t, exec (.and ra rb) s = .next t ∧
    (∀ k, (t.reg rb).getLsbD k = ((s.reg rb).getLsbD k && (s.reg ra).getLsbD k)) ∧
    t.flags.c = false ∧ t.flags.v = false ∧ ZNFrom (t.reg rb) t.flags ∧ SameRegsBut rb s t ∧ RegisterArm s t) ∧
  (∀ (ra rb : Reg) (s : State), ∃ t, exec (.or ra rb) s = .next t ∧
    (∀ k, (t.reg rb).getLsbD k = ((s.reg rb).getLsbD k || (s.reg ra).getLsbD k)) ∧
    t.flags.c = false ∧ t.flags.v = false ∧ ZNFrom (t.reg rb) t.flags ∧ SameRegsBut rb s t ∧ RegisterArm s t) ∧
  (∀ (ra rb : Reg) (s : State), ∃ t, exec (.xor ra rb) s = .next t ∧
    (∀ k, (t.reg rb).getLsbD k = ((s.reg rb).getLsbD k != (s.reg ra).getLsbD k)) ∧
    t.flags.c = false ∧ t.flags.v = false ∧ ZNFrom (t.reg rb) t.flags ∧ SameRegsBut rb s t ∧ RegisterArm s t)

/-- R148, R149: INC and DEC, with the carry and overflow of their boundary values; DEC's carry is always 1.
Rests on choices the spec marks as its own: D11 (log entry 15). -/
def Obligations.IncAndDecWriteTheResultAndBoundaryFlags : Prop :=
  (∀ (ra : Reg) (s : State), ∃ t, exec (.inc ra) s = .next t ∧
    (t.reg ra).toNat = ((s.reg ra).toNat + 1) % 65536 ∧
    (t.flags.c = true ↔ (s.reg ra).toNat = 65535) ∧ (t.flags.v = true ↔ (s.reg ra).toNat = 32767) ∧
    ZNFrom (t.reg ra) t.flags ∧ SameRegsBut ra s t ∧ RegisterArm s t) ∧
  (∀ (ra : Reg) (s : State), ∃ t, exec (.dec ra) s = .next t ∧
    (t.reg ra).toNat = ((s.reg ra).toNat + 65535) % 65536 ∧
    t.flags.c = true ∧ (t.flags.v = true ↔ (s.reg ra).toNat = 32768) ∧
    ZNFrom (t.reg ra) t.flags ∧ SameRegsBut ra s t ∧ RegisterArm s t)

/-- R150, R151: LSH and RSH shift by one with a zero entering; `C` is the bit shifted out, `V` is cleared.
Rests on choices the spec marks as its own: D12 (log entry 8). -/
def Obligations.ShiftsMoveByOneAndCarryTheBitShiftedOut : Prop :=
  (∀ (ra : Reg) (s : State), ∃ t, exec (.lsh ra) s = .next t ∧
    (t.reg ra).toNat = 2 * (s.reg ra).toNat % 65536 ∧
    (t.flags.c = true ↔ 32768 ≤ (s.reg ra).toNat) ∧ t.flags.v = false ∧
    ZNFrom (t.reg ra) t.flags ∧ SameRegsBut ra s t ∧ RegisterArm s t) ∧
  (∀ (ra : Reg) (s : State), ∃ t, exec (.rsh ra) s = .next t ∧
    (t.reg ra).toNat = (s.reg ra).toNat / 2 ∧
    (t.flags.c = true ↔ (s.reg ra).toNat % 2 = 1) ∧ t.flags.v = false ∧ t.flags.n = false ∧
    ZNFrom (t.reg ra) t.flags ∧ SameRegsBut ra s t ∧ RegisterArm s t)

/-! Input and output -/

/-- 43_io.md R160: INB. From port 1 the register takes the key, zero-extended, and the key is cleared; from any other port it
takes the low byte of what the operand fetch left on the data line (the port number, by
`OperandFetchDeliversTheOperand`), which stays there. No flag is written.
Rests on choices the spec marks as its own: D10, D18 (log entries 9, 19). Rests also on the model's own choices (log
entry 29). -/
def Obligations.InbReadsTheKeyOrTheUnansweredPort : Prop :=
  ∀ (ra : Reg) (port : Word) (s : State),
    ∃ t, exec (.inb ra port) s = .next t ∧
      (port = 1 → (t.reg ra).toNat = s.iod.key.toNat ∧ t.iod.key = 0 ∧
        BusReadSeen 1 (s.iod.key.setWidth 16) false false t) ∧
      (port ≠ 1 → (t.reg ra).toNat = s.opnd.toNat % 256 ∧ t.iod.key = s.iod.key ∧
        BusReadSeen port s.opnd false false t) ∧
      t.iod.out = s.iod.out ∧ SameRegsBut ra s t ∧ t.flags = s.flags ∧ SameMachine s t ∧ SameMem s t ∧
      t.pc = s.pc ∧ t.sp = s.sp ∧ t.phaseNext = .IF

/-- R161: OUTB. To port 0 the low byte of the register joins the output; to any other port nothing takes it.
Rests on choices the spec marks as its own: D5, D10, D18 (log entries 9, 12, 19). -/
def Obligations.OutbAppendsTheLowByteAtPortZero : Prop :=
  ∀ (ra : Reg) (port : Word) (s : State),
    ∃ t, exec (.outb ra port) s = .next t ∧
      (port = 0 → t.iod.out = s.iod.out ++ [(s.reg ra).extractLsb' 0 8]) ∧
      (port ≠ 0 → t.iod.out = s.iod.out) ∧ t.iod.key = s.iod.key ∧
      BusWriteSeen port (s.reg ra) false false t ∧ TransferArm s t ∧ SameMem s t ∧ t.pc = s.pc ∧ t.sp = s.sp

/-- R162, R163: TSTI and TSTO write `Z` alone, make no transaction and consume nothing.
Rests on choices the spec marks as its own: D17 (log entry 10). -/
def Obligations.PortTestsWriteZAlone : Prop :=
  (∀ (port : Word) (s : State), ∃ t, exec (.tsti port) s = .next t ∧
    (t.flags.z = true ↔ port.toNat = 1 ∧ s.iod.key.toNat ≠ 0) ∧
    t.flags.n = s.flags.n ∧ t.flags.c = s.flags.c ∧ t.flags.v = s.flags.v ∧ SameRegs s t ∧ RegisterArm s t) ∧
  (∀ (port : Word) (s : State), ∃ t, exec (.tsto port) s = .next t ∧ (t.flags.z = true ↔ port.toNat = 0) ∧
    t.flags.n = s.flags.n ∧ t.flags.c = s.flags.c ∧ t.flags.v = s.flags.v ∧ SameRegs s t ∧ RegisterArm s t)

/-! Control -/

/-- 44_control.md R170: BR goes to its extension word and nothing else changes. R171 to R177, R182: the relative jumps, each
on its condition. All complete in every state.
Rests on choices the spec marks as its own: D10, D15, D16 (log entries 9, 18). -/
def Obligations.JumpsGoToTheirTargets : Prop :=
  (∀ (target : Word) (s : State), ∃ t, exec (.br target) s = .next t ∧ t.pc = target ∧ JumpArm s t) ∧
  ∀ (off : Int) (s : State),
    (∃ t, exec (.jmp off) s = .next t ∧ RelJumped True off s t) ∧
    (∃ t, exec (.jmpz off) s = .next t ∧ RelJumped (s.flags.z = true) off s t) ∧
    (∃ t, exec (.jmpnz off) s = .next t ∧ RelJumped (s.flags.z = false) off s t) ∧
    (∃ t, exec (.jmpn off) s = .next t ∧ RelJumped (s.flags.n = true) off s t) ∧
    (∃ t, exec (.jmpnn off) s = .next t ∧ RelJumped (s.flags.n = false) off s t) ∧
    (∃ t, exec (.jmpc off) s = .next t ∧ RelJumped (s.flags.c = true) off s t) ∧
    (∃ t, exec (.jmpv off) s = .next t ∧ RelJumped (s.flags.v = true) off s t)

/-- 30_encoding.md R86, 44_control.md R182: the offset of a word that decodes to a jump of the JMP family is its bits 7:0,
signed, a byte count from -128 to 127; what a taken jump adds to `pc`, as `pc` stands in IE, is that number, sign-extended
to 16 bits and not scaled. The sums that are 16-bit numbers are meant here; JumpsGoToTheirTargets says what becomes of the
others. The byte unit, the missing scale and the base `pc` are the spec's own choice.
Rests on choices the spec marks as its own: D15 (log entry 18). -/
def Obligations.RelativeOffsetIsTheSignExtendedLowByte : Prop :=
  ∀ (w x : Word) (off : Int) (s : State), ∀ p ∈ [(Instr.jmp off, true), (.jmpz off, s.flags.z), (.jmpnz off, !s.flags.z),
      (.jmpn off, s.flags.n), (.jmpnn off, !s.flags.n), (.jmpc off, s.flags.c), (.jmpv off, s.flags.v)],
    decodeWords w x = .ok p.1 →
      off = (w.extractLsb' 0 8).toInt ∧ -128 ≤ off ∧ off ≤ 127 ∧
      sextOffset off = (w.extractLsb' 0 8).signExtend 16 ∧
      (p.2 = true → 0 ≤ (s.pc.toNat : Int) + off → (s.pc.toNat : Int) + off < 65536 →
        ∃ t, exec p.1 s = .next t ∧ (t.pc.toNat : Int) = (s.pc.toNat : Int) + off)

/-- R178: CALL pushes `pc`, the address after it, as PUSH would, and goes to its extension word.
Rests on choices the spec marks as its own: D6, D10, D14 (log entries 9, 13, 17). -/
def Obligations.CallPushesTheReturnAddressAndBranches : Prop :=
  ∀ (target : Word) (s : State),
    (s.wordAccessOk s.pushAddress →
      ∃ t, exec (.call target) s = .next t ∧ t.pc = target ∧ t.sp = s.sp - 2 ∧ WordStored s.pushAddress s.pc s t ∧
        BusWriteSeen s.pushAddress s.pc true true t ∧ TransferArm s t ∧ t.iod = s.iod) ∧
    (¬ s.wordAccessOk s.pushAddress → exec (.call target) s = .fault (.straddlingWord s.pushAddress))

/-- R179: RET pops `pc`; outside RAM it takes the stale data line.
Rests on choices the spec marks as its own: D6, D10, D14 (log entries 9, 13, 17). Rests also on the model's own choices
(log entry 29). -/
def Obligations.RetPopsTheProgramCounter : Prop :=
  ∀ s : State,
    (s.wordAccessOk s.popAddress →
      ∃ t, exec .ret s = .next t ∧ t.pc = s.memAnswer s.popAddress true ∧
        (s.popAddress.toNat + 1 < s.ramSize →
          t.pc = (s.peek (s.popAddress.toNat + 1) ++ s.peek s.popAddress.toNat : Word)) ∧
        (s.ramSize ≤ s.popAddress.toNat → t.pc = s.bus.data) ∧ t.sp = s.sp + 2 ∧
        BusReadSeen s.popAddress (s.memAnswer s.popAddress true) true true t ∧ TransferArm s t ∧ SameMem s t ∧
        t.iod = s.iod) ∧
    (¬ s.wordAccessOk s.popAddress → exec .ret s = .fault (.straddlingWord s.popAddress))

/-- R180: HLT enters HALTED and changes nothing else.
Rests on choices the spec marks as its own: D10 (log entry 9). -/
def Obligations.HltEntersHaltedAndChangesNothingElse : Prop :=
  ∀ s : State, ∃ t, exec .hlt s = .next t ∧ t.phaseNext = .HALTED ∧ t.pc = s.pc ∧ t.sp = s.sp ∧ t.flags = s.flags ∧
    SameRegs s t ∧ SameMem s t ∧ SameBus s t ∧ t.iod = s.iod ∧ SameMachine s t

/-! The display -/

/-- 60_exceptions.md R203: the monitor's four lines, `l3` the bottom one: empty at first, never more than twenty characters
each; and, for each next byte, what a newline, a carriage return and any other byte make of them, on a bottom line that is
full and on one that is not.
Rests on choices the spec marks as its own: D24 (log entry 24). -/
def Obligations.MonitorLinesStayWithinTwentyColumns : Prop :=
  (monitorLines [] = { l0 := [], l1 := [], l2 := [], l3 := [] }) ∧
  ∀ (out : List Byte) (b : Byte) (m n : MonitorLines), m = monitorLines out → n = monitorLines (out ++ [b]) →
    (m.l0.length ≤ 20 ∧ m.l1.length ≤ 20 ∧ m.l2.length ≤ 20 ∧ m.l3.length ≤ 20) ∧
    (b = 0x0A → n = { l0 := m.l1, l1 := m.l2, l2 := m.l3, l3 := [] }) ∧
    (b = 0x0D → m.l3.length < 20 → n = { l0 := m.l0, l1 := m.l1, l2 := m.l2, l3 := n.l3 } ∧ n.l3.length = 20 ∧
      n.l3 = m.l3 ++ List.replicate (20 - m.l3.length) 0x20) ∧
    (b = 0x0D → m.l3.length = 20 → n = { l0 := m.l1, l1 := m.l2, l2 := m.l3, l3 := [] }) ∧
    (b ≠ 0x0A → b ≠ 0x0D → m.l3.length < 20 → n = { l0 := m.l0, l1 := m.l1, l2 := m.l2, l3 := m.l3 ++ [b] }) ∧
    (b ≠ 0x0A → b ≠ 0x0D → m.l3.length = 20 → n = { l0 := m.l1, l1 := m.l2, l2 := m.l3, l3 := [b] })
end

