-- ==== Sys2Proof/Laws/Memory.lean ====
section
/-! SUPPORT. Laws/Memory.lean: reading after writing, the canonical form, and the placing of bytes. -/

namespace Sys2Proof.Machine

@[simp] theorem Memory.read_nil (a : Nat) : Memory.read [] a = blankByte := rfl

theorem Memory.read_cons (k : Nat) (b : Byte) (m : Memory) (a : Nat) :
    Memory.read ((k, b) :: m) a = if k = a then b else Memory.read m a := rfl

theorem Memory.read_erase (m : Memory) (a x : Nat) :
    Memory.read (Memory.erase m a) x = if x = a then blankByte else Memory.read m x := by
  induction m with
  | nil => simp [Memory.erase]
  | cons c m ih =>
    obtain ⟨k, b⟩ := c
    simp only [Memory.erase] at ih
    by_cases hk : k = a
    · simp only [Memory.erase, hk, List.filter_cons, ne_eq, not_true, decide_false, Bool.false_eq_true,
        if_false, ih, Memory.read_cons]
      split <;> rename_i hx
      · rfl
      · simp [Ne.symm hx]
    · simp only [Memory.erase, List.filter_cons, ne_eq, hk, not_false_eq_true, decide_true, if_true,
        Memory.read_cons, ih]
      by_cases hx : x = a
      · simp [hx, hk]
      · simp [hx]

theorem Memory.read_insert (m : Memory) (a : Nat) (b : Byte) (x : Nat) (h : Memory.read m a = blankByte)
    (hm : ∀ c ∈ m, c.1 ≠ a) :
    Memory.read (Memory.insert m a b) x = if x = a then b else Memory.read m x := by
  induction m with
  | nil =>
    by_cases hx : x = a
    · simp [Memory.insert, Memory.read_cons, hx]
    · simp [Memory.insert, Memory.read_cons, hx, show ¬ a = x from fun e => hx e.symm]
  | cons c m ih =>
    obtain ⟨k, d⟩ := c
    have hk : k ≠ a := hm (k, d) (by simp)
    have hm' : ∀ c ∈ m, c.1 ≠ a := fun c hc => hm c (by simp [hc])
    have h' : Memory.read m a = blankByte := by simpa [Memory.read_cons, hk] using h
    simp only [Memory.insert]
    split
    · simp only [Memory.read_cons, eq_comm (a := a)]
    · simp only [Memory.read_cons, ih h' hm']
      by_cases hx : x = a
      · simp [hx, hk]
      · simp [hx]

theorem Memory.erase_ne (m : Memory) (a : Nat) : ∀ c ∈ Memory.erase m a, c.1 ≠ a := by
  intro c hc
  simpa using (List.mem_filter.mp hc).2

/-- A read after a write: the byte written at its address, every other address as before. -/
theorem Memory.read_write (m : Memory) (a : Nat) (b : Byte) (x : Nat) :
    Memory.read (Memory.write m a b) x = if x = a then b else Memory.read m x := by
  unfold Memory.write
  split <;> rename_i hb
  · simp [Memory.read_erase, hb]
  · rw [Memory.read_insert _ _ _ _ (by simp [Memory.read_erase]) (Memory.erase_ne m a), Memory.read_erase]
    split <;> simp_all

theorem Memory.sortedFrom_mono {lo lo' : Nat} {m : Memory} (h : lo' ≤ lo) (hs : Memory.sortedFrom lo m = true) :
    Memory.sortedFrom lo' m = true := by
  cases m with
  | nil => rfl
  | cons c m => obtain ⟨k, b⟩ := c; simp [Memory.sortedFrom] at hs ⊢; exact ⟨⟨by omega, hs.1.2⟩, hs.2⟩

theorem Memory.sortedFrom_erase {lo : Nat} {m : Memory} (a : Nat) (hs : Memory.sortedFrom lo m = true) :
    Memory.sortedFrom lo (Memory.erase m a) = true := by
  induction m generalizing lo with
  | nil => rfl
  | cons c m ih =>
    obtain ⟨k, b⟩ := c
    simp [Memory.sortedFrom] at hs
    have ih' : Memory.sortedFrom (k + 1) (Memory.erase m a) = true := ih hs.2
    simp only [Memory.erase] at ih' ⊢
    rw [List.filter_cons]
    split
    · simp only [Memory.sortedFrom, ih', hs.1, Bool.and_true]; simpa using hs.1.2
    · exact Memory.sortedFrom_mono (by omega) ih'

theorem Memory.sortedFrom_insert {lo : Nat} {m : Memory} {a : Nat} {b : Byte} (hlo : lo ≤ a) (hb : b ≠ blankByte)
    (hm : ∀ c ∈ m, c.1 ≠ a) (hs : Memory.sortedFrom lo m = true) :
    Memory.sortedFrom lo (Memory.insert m a b) = true := by
  induction m generalizing lo with
  | nil => simp [Memory.insert, Memory.sortedFrom, hlo, hb]
  | cons c m ih =>
    obtain ⟨k, d⟩ := c
    have hk : k ≠ a := hm (k, d) (by simp)
    simp [Memory.sortedFrom] at hs
    simp only [Memory.insert]
    split
    · simp [Memory.sortedFrom, hlo, hb, hs]; omega
    · simp [Memory.sortedFrom, hs]
      exact ih (by omega) (fun c hc => hm c (by simp [hc])) hs.2

/-- A write keeps the canonical form. -/
theorem Memory.wf_write {m : Memory} (a : Nat) (b : Byte) (h : m.wf = true) : (Memory.write m a b).wf = true := by
  unfold Memory.write Memory.wf
  split
  · exact Memory.sortedFrom_erase a h
  · rename_i hb
    exact Memory.sortedFrom_insert (Nat.zero_le a) hb (Memory.erase_ne m a) (Memory.sortedFrom_erase a h)

theorem Memory.mem_insert {m : Memory} {a : Nat} {b : Byte} {c : Host.Cell} (h : c ∈ Memory.insert m a b) :
    c = (a, b) ∨ c ∈ m := by
  induction m with
  | nil => simpa [Memory.insert] using h
  | cons d m ih =>
    simp only [Memory.insert] at h
    split at h
    · simpa using h
    · rcases List.mem_cons.mp h with h | h
      · simp [h]
      · rcases ih h with h | h <;> simp [h]

/-- A write inside RAM keeps the contents inside RAM. -/
theorem Memory.below_write {n : Nat} {m : Memory} {a : Nat} {b : Byte} (ha : a < n) (h : m.below n = true) :
    (Memory.write m a b).below n = true := by
  simp only [Memory.below, List.all_eq_true, decide_eq_true_eq] at h ⊢
  intro c hc
  unfold Memory.write at hc
  split at hc
  · exact h c (List.mem_filter.mp hc).1
  · rcases Memory.mem_insert hc with rfl | hc
    · exact ha
    · exact h c (List.mem_filter.mp hc).1

theorem Memory.wf_place (n a : Nat) (bs : List Byte) (m : Memory) (h : m.wf = true) :
    (Memory.place n a bs m).wf = true := by
  induction bs generalizing a m with
  | nil => exact h
  | cons b bs ih =>
    simp only [Memory.place]
    split
    · exact ih _ _ (Memory.wf_write a b h)
    · exact h

theorem Memory.below_place (n a : Nat) (bs : List Byte) (m : Memory) (h : m.below n = true) :
    (Memory.place n a bs m).below n = true := by
  induction bs generalizing a m with
  | nil => exact h
  | cons b bs ih =>
    simp only [Memory.place]
    split
    · exact ih _ _ (Memory.below_write ‹_› h)
    · exact h

/-- Bytes placed from `a` on stand there, up to the end of RAM; every other address reads as before. -/
theorem Memory.read_place (n a : Nat) (bs : List Byte) (m : Memory) (x : Nat) :
    Memory.read (Memory.place n a bs m) x =
      if a ≤ x ∧ x < a + bs.length ∧ x < n then bs.getD (x - a) 0 else Memory.read m x := by
  induction bs generalizing a m with
  | nil => simp only [Memory.place, List.length_nil]; rw [if_neg (by omega)]
  | cons b bs ih =>
    simp only [Memory.place, List.length_cons]
    split <;> rename_i ha
    · rw [ih, Memory.read_write]
      by_cases hx : x = a
      · subst hx; rw [if_neg (by omega), if_pos rfl, if_pos (by omega)]; simp
      · rw [if_neg hx]
        by_cases h : a + 1 ≤ x ∧ x < a + 1 + bs.length ∧ x < n
        · rw [if_pos h, if_pos (by omega)]
          obtain ⟨k, hk⟩ : ∃ k, x - a = k + 1 := ⟨x - a - 1, by omega⟩
          rw [hk, show x - (a + 1) = k by omega]; simp
        · rw [if_neg h, if_neg (by omega)]
    · rw [if_neg (by omega)]

/-- RAM after a reset is in canonical form, inside RAM, and holds the image from address 0 (R212). -/
theorem loadImage_wf (n : Nat) (image : List Byte) : (loadImage n image).wf = true := Memory.wf_place _ _ _ _ rfl

theorem loadImage_below (n : Nat) (image : List Byte) : (loadImage n image).below n = true :=
  Memory.below_place _ _ _ _ rfl

end Sys2Proof.Machine
end

