-- ==== Sys2Proof/Laws/State.lean ====
section
/-! SUPPORT. Laws/State.lean: what each named update of State leaves in each field it is read by. -/

namespace Sys2Proof.Machine

/-! setReg -/

@[simp] theorem reg_setReg_self (s : State) (r : Reg) (v : Word) : (s.setReg r v).reg r = v := by
  simp [State.reg, State.setReg, Vector.get_eq_getElem]

theorem reg_setReg_of_ne (s : State) (r q : Reg) (v : Word) (h : q ≠ r) : (s.setReg r v).reg q = s.reg q := by
  have h' : r.val ≠ q.val := fun e => h (Fin.ext e.symm)
  simp [State.reg, State.setReg, Vector.get_eq_getElem, Vector.getElem_set_ne, h']

@[simp] theorem setReg_pc (s : State) (r : Reg) (v : Word) : (s.setReg r v).pc = s.pc := rfl
@[simp] theorem setReg_sp (s : State) (r : Reg) (v : Word) : (s.setReg r v).sp = s.sp := rfl
@[simp] theorem setReg_ir (s : State) (r : Reg) (v : Word) : (s.setReg r v).ir = s.ir := rfl
@[simp] theorem setReg_ar (s : State) (r : Reg) (v : Word) : (s.setReg r v).ar = s.ar := rfl
@[simp] theorem setReg_dr (s : State) (r : Reg) (v : Word) : (s.setReg r v).dr = s.dr := rfl
@[simp] theorem setReg_flags (s : State) (r : Reg) (v : Word) : (s.setReg r v).flags = s.flags := rfl
@[simp] theorem setReg_phaseNow (s : State) (r : Reg) (v : Word) : (s.setReg r v).phaseNow = s.phaseNow := rfl
@[simp] theorem setReg_phaseNext (s : State) (r : Reg) (v : Word) : (s.setReg r v).phaseNext = s.phaseNext := rfl
@[simp] theorem setReg_bus (s : State) (r : Reg) (v : Word) : (s.setReg r v).bus = s.bus := rfl
@[simp] theorem setReg_ramSize (s : State) (r : Reg) (v : Word) : (s.setReg r v).ramSize = s.ramSize := rfl
@[simp] theorem setReg_mem (s : State) (r : Reg) (v : Word) : (s.setReg r v).mem = s.mem := rfl
@[simp] theorem setReg_iod (s : State) (r : Reg) (v : Word) : (s.setReg r v).iod = s.iod := rfl
@[simp] theorem setReg_cfg (s : State) (r : Reg) (v : Word) : (s.setReg r v).cfg = s.cfg := rfl
@[simp] theorem setReg_keyInputs (s : State) (r : Reg) (v : Word) : (s.setReg r v).keyInputs = s.keyInputs := rfl
@[simp] theorem setReg_peek (s : State) (r : Reg) (v : Word) (a : Nat) : (s.setReg r v).peek a = s.peek a := rfl

/-! Registers and memory are read through fields of their own, so an update of another field does not show. -/

theorem reg_congr {s t : State} (h : t.regs = s.regs) (r : Reg) : t.reg r = s.reg r := by simp [State.reg, h]

theorem peek_congr {s t : State} (hm : t.mem = s.mem) (hr : t.ramSize = s.ramSize) (a : Nat) :
    t.peek a = s.peek a := by simp [State.peek, hm, hr]

theorem memValue_congr {s t : State} (hm : t.mem = s.mem) (hr : t.ramSize = s.ramSize) (a : Nat) (w : Bool) :
    t.memValue a w = s.memValue a w := by simp [State.memValue, peek_congr hm hr]

/-! Flags -/

@[simp] theorem setFlags_flags (s : State) (f : Flags) : (s.setFlags f).flags = f := rfl
@[simp] theorem setFlags_regs (s : State) (f : Flags) : (s.setFlags f).regs = s.regs := rfl
@[simp] theorem setFlags_reg (s : State) (f : Flags) (r : Reg) : (s.setFlags f).reg r = s.reg r := rfl
@[simp] theorem setFlags_peek (s : State) (f : Flags) (a : Nat) : (s.setFlags f).peek a = s.peek a := rfl
@[simp] theorem setZN_z (s : State) (v : Word) : (s.setZN v).flags.z = zeroFlag v := rfl
@[simp] theorem setZN_n (s : State) (v : Word) : (s.setZN v).flags.n = negativeFlag v := rfl
@[simp] theorem setZN_c (s : State) (v : Word) : (s.setZN v).flags.c = s.flags.c := rfl
@[simp] theorem setZN_v (s : State) (v : Word) : (s.setZN v).flags.v = s.flags.v := rfl
@[simp] theorem setZN_regs (s : State) (v : Word) : (s.setZN v).regs = s.regs := rfl
@[simp] theorem setZN_reg (s : State) (v : Word) (r : Reg) : (s.setZN v).reg r = s.reg r := rfl
@[simp] theorem setZN_peek (s : State) (v : Word) (a : Nat) : (s.setZN v).peek a = s.peek a := rfl
@[simp] theorem setZ_z (s : State) (b : Bool) : (s.setZ b).flags.z = b := rfl
@[simp] theorem setZ_n (s : State) (b : Bool) : (s.setZ b).flags.n = s.flags.n := rfl
@[simp] theorem setZ_c (s : State) (b : Bool) : (s.setZ b).flags.c = s.flags.c := rfl
@[simp] theorem setZ_v (s : State) (b : Bool) : (s.setZ b).flags.v = s.flags.v := rfl

/-! The flag readings -/

theorem zeroFlag_iff (r : Word) : zeroFlag r = true ↔ r = 0 := by simp [zeroFlag]

theorem negativeFlag_iff (r : Word) : negativeFlag r = true ↔ 32768 ≤ r.toNat := by
  simp [negativeFlag, BitVec.msb_eq_decide]

/-! The bus -/

@[simp] theorem resetBus_bus (s : State) :
    s.resetBus.bus = { address := 0, data := 0, read := false, msel := false, word := false } := rfl

/-! andThen -/

@[simp] theorem andThen_next (s : State) (f : State → Res) : andThen (.next s) f = f s := rfl
@[simp] theorem andThen_fault (r : Fault) (f : State → Res) : andThen (.fault r) f = .fault r := rfl
@[simp] theorem andThen_refused (r : Refusal) (f : State → Res) : andThen (.refused r) f = .refused r := rfl

/-- A sequence answers a next state exactly when both its parts do. -/
theorem andThen_eq_next {o : Res} {f : State → Res} {t : State} :
    andThen o f = .next t ↔ ∃ u, o = .next u ∧ f u = .next t := by
  cases o <;> simp [andThen]

/-- A sequence faults exactly when one of its parts does. -/
theorem andThen_eq_fault {o : Res} {f : State → Res} {r : Fault} :
    andThen o f = .fault r ↔ o = .fault r ∨ ∃ u, o = .next u ∧ f u = .fault r := by
  cases o <;> simp [andThen]

/-- A sequence is refused exactly when one of its parts is. -/
theorem andThen_eq_refused {o : Res} {f : State → Res} {r : Refusal} :
    andThen o f = .refused r ↔ o = .refused r ∨ ∃ u, o = .next u ∧ f u = .refused r := by
  cases o <;> simp [andThen]

end Sys2Proof.Machine
end

