-- ==== Sys2Proof/Laws/Bus.lean ====
section
/-! SUPPORT. Laws/Bus.lean: everything a store, a transaction and a stack operation can do, said once. -/

namespace Sys2Proof.Machine

/-! A store changes `mem` alone. -/

/-- `s` with other RAM contents. -/
theorem poke_eq (s : State) (a : Nat) (b : Byte) : s.poke a b = { s with mem := (s.poke a b).mem } := by
  unfold State.poke; split <;> rfl

theorem memStore_eq (s : State) (a : Nat) (w : Bool) (v : Word) :
    s.memStore a w v = { s with mem := (s.memStore a w v).mem } := by
  unfold State.memStore
  split
  · conv_lhs => rw [poke_eq, poke_eq s]
    conv_rhs => rw [poke_eq, poke_eq s]
  · rw [poke_eq]

theorem peek_poke (s : State) (a : Nat) (b : Byte) (x : Nat) :
    (s.poke a b).peek x = if x = a ∧ a < s.ramSize then b else s.peek x := by
  unfold State.poke
  by_cases h : a < s.ramSize
  · simp only [h, if_true, State.peek, Memory.read_write, and_true]
    by_cases hx : x = a
    · simp [hx, h]
    · simp [hx]
  · simp [h]

theorem poke_ramSize (s : State) (a : Nat) (b : Byte) : (s.poke a b).ramSize = s.ramSize := by
  rw [poke_eq]

/-- Every byte after a store (R55 to R57): the low byte at `a` if that is in RAM, the high byte of a word at `a + 1` if
that is in RAM, every other byte as before. -/
theorem peek_memStore (s : State) (a : Nat) (w : Bool) (v : Word) (x : Nat) :
    (s.memStore a w v).peek x =
      if x = a ∧ a < s.ramSize then loByte v
      else if x = a + 1 ∧ w = true ∧ a + 1 < s.ramSize then hiByte v else s.peek x := by
  unfold State.memStore
  cases w
  · simp [peek_poke]
  · simp only [if_true, peek_poke, poke_ramSize]
    by_cases h1 : x = a
    · subst h1; simp
    · simp [h1]

/-- A store keeps RAM well formed. -/
theorem memStore_memInv (s : State) (a : Nat) (w : Bool) (v : Word) (h : s.memInv) : (s.memStore a w v).memInv := by
  have poke_inv : ∀ (s : State) (a : Nat) (b : Byte), s.memInv → (s.poke a b).memInv := by
    intro s a b h
    unfold State.poke
    split
    · exact ⟨h.1, Memory.wf_write a b h.2.1, Memory.below_write ‹_› h.2.2⟩
    · exact h
  unfold State.memStore
  split
  · exact poke_inv _ _ _ (poke_inv _ _ _ h)
  · exact poke_inv _ _ _ h

theorem memAnswer_congr {s t : State} (hm : t.mem = s.mem) (hr : t.ramSize = s.ramSize)
    (hd : t.bus.data = s.bus.data) (a : Word) (w : Bool) : t.memAnswer a w = s.memAnswer a w := by
  simp [State.memAnswer, memValue_congr hm hr, hr, hd]

/-! Memory transactions -/

/-- The state after a memory read at `a` that has a step: the latches, `ar` and `dr`, nothing else (R54, R56 to R58). -/
def afterRead (a : Word) (n : Width) (s : State) : State :=
  { s with
    bus := { address := a, data := s.memAnswer a n.isWord, read := true, msel := true, word := n.isWord }
    ar := a
    dr := s.memAnswer a n.isWord }

/-- The state after a memory write at `a` that has a step, the store aside (R55 to R58). -/
def afterWriteLatches (a : Word) (n : Width) (v : Word) (s : State) : State :=
  { s with
    bus := { address := a, data := v, read := false, msel := true, word := n.isWord }, ar := a, dr := v }

/-- The state after a memory write at `a` that has a step. -/
def afterWrite (a : Word) (n : Width) (v : Word) (s : State) : State :=
  if a.toNat < s.ramSize then (afterWriteLatches a n v s).memStore a.toNat n.isWord v else afterWriteLatches a n v s

/-- A transaction of width `n` at `a` has a step. -/
def accessOk (a : Word) (n : Width) (s : State) : Prop := n = .byte ∨ s.wordAccessOk a

theorem accessOk_or_straddles (a : Word) (n : Width) (s : State) :
    accessOk a n s ∨ (n = .word ∧ s.cfg.straddlePolicy = .fault ∧ a.toNat + 1 = s.ramSize) := by
  unfold accessOk State.wordAccessOk
  cases n
  · simp
  · cases hp : s.cfg.straddlePolicy
    · simp
    · by_cases h : a.toNat + 1 = s.ramSize <;> simp [h]

/-- A memory read that has a step. -/
theorem memRead_next {a : Word} {n : Width} {s : State} (h : accessOk a n s) :
    memRead a n s = .next (afterRead a n s) := by
  unfold memRead busRead busCycle memoryOperate afterRead State.memAnswer
  simp only [if_true]
  by_cases hr : s.ramSize ≤ a.toNat
  · simp [hr, Nat.not_lt.mpr hr]
  · have hs : ¬ (n.isWord = true ∧ a.toNat + 1 = s.ramSize ∧ s.cfg.straddlePolicy = .fault) := by
      rintro ⟨hw, ha, hp⟩
      rcases h with h | h | h
      · simp [h, Width.isWord] at hw
      · simp [h] at hp
      · exact h ha
    simp only [hr, if_false, State.straddles, Bool.and_eq_true, decide_eq_true_eq, and_assoc, hs,
      Nat.lt_of_not_le hr, if_true, andThen_next]
    rfl

/-- A memory write that has a step. -/
theorem memWrite_next {a : Word} {n : Width} {v : Word} {s : State} (h : accessOk a n s) :
    memWrite a n v s = .next (afterWrite a n v s) := by
  unfold memWrite busWrite busCycle memoryOperate afterWrite afterWriteLatches
  simp only [if_true]
  by_cases hr : s.ramSize ≤ a.toNat
  · simp [hr, Nat.not_lt.mpr hr]
  · have hs : ¬ (n.isWord = true ∧ a.toNat + 1 = s.ramSize ∧ s.cfg.straddlePolicy = .fault) := by
      rintro ⟨hw, ha, hp⟩
      rcases h with h | h | h
      · simp [h, Width.isWord] at hw
      · simp [h] at hp
      · exact h ha
    simp only [hr, if_false, State.straddles, Bool.and_eq_true, decide_eq_true_eq, and_assoc, hs,
      Nat.lt_of_not_le hr, if_true, Bool.false_eq_true]

/-- A straddling word under STRADDLE_POLICY = fault has no step, read or write (R57). -/
theorem memRead_straddles {a : Word} {s : State} (hp : s.cfg.straddlePolicy = .fault)
    (ha : a.toNat + 1 = s.ramSize) : memRead a .word s = .fault (.straddlingWord a) := by
  unfold memRead busRead busCycle memoryOperate
  have hr : ¬ s.ramSize ≤ a.toNat := by omega
  simp [hr, State.straddles, Width.isWord, ha, hp]

theorem memWrite_straddles {a v : Word} {s : State} (hp : s.cfg.straddlePolicy = .fault)
    (ha : a.toNat + 1 = s.ramSize) : memWrite a .word v s = .fault (.straddlingWord a) := by
  unfold memWrite busWrite busCycle memoryOperate
  have hr : ¬ s.ramSize ≤ a.toNat := by omega
  simp [hr, State.straddles, Width.isWord, ha, hp]

/-- Everything a memory read can do. -/
theorem memRead_cases (a : Word) (n : Width) (s : State) :
    (accessOk a n s ∧ memRead a n s = .next (afterRead a n s)) ∨
    (n = .word ∧ s.cfg.straddlePolicy = .fault ∧ a.toNat + 1 = s.ramSize ∧
      memRead a n s = .fault (.straddlingWord a)) := by
  rcases accessOk_or_straddles a n s with h | ⟨rfl, hp, ha⟩
  · exact .inl ⟨h, memRead_next h⟩
  · exact .inr ⟨rfl, hp, ha, memRead_straddles hp ha⟩

/-- Everything a memory write can do. -/
theorem memWrite_cases (a : Word) (n : Width) (v : Word) (s : State) :
    (accessOk a n s ∧ memWrite a n v s = .next (afterWrite a n v s)) ∨
    (n = .word ∧ s.cfg.straddlePolicy = .fault ∧ a.toNat + 1 = s.ramSize ∧
      memWrite a n v s = .fault (.straddlingWord a)) := by
  rcases accessOk_or_straddles a n s with h | ⟨rfl, hp, ha⟩
  · exact .inl ⟨h, memWrite_next h⟩
  · exact .inr ⟨rfl, hp, ha, memWrite_straddles hp ha⟩

/-- A write leaves every field but the latches, `ar`, `dr` and `mem`. -/
theorem afterWrite_eq (a : Word) (n : Width) (v : Word) (s : State) :
    afterWrite a n v s = { afterWriteLatches a n v s with mem := (afterWrite a n v s).mem } := by
  unfold afterWrite
  split
  · rw [memStore_eq]
  · rfl

/-- Every byte after a write (R55 to R57). -/
theorem peek_afterWrite (a : Word) (n : Width) (v : Word) (s : State) (x : Nat) :
    (afterWrite a n v s).peek x =
      if x = a.toNat ∧ a.toNat < s.ramSize then loByte v
      else if x = a.toNat + 1 ∧ n = .word ∧ a.toNat + 1 < s.ramSize then hiByte v else s.peek x := by
  have hp : ∀ y, (afterWriteLatches a n v s).peek y = s.peek y := fun _ => rfl
  unfold afterWrite
  split <;> rename_i ha
  · rw [peek_memStore, hp]
    have : (afterWriteLatches a n v s).ramSize = s.ramSize := rfl
    rw [this]
    cases n <;> simp [Width.isWord]
  · rw [hp, if_neg (by omega), if_neg (by omega)]

/-- A write keeps RAM well formed. -/
theorem afterWrite_memInv (a : Word) (n : Width) (v : Word) (s : State) (h : s.memInv) :
    (afterWrite a n v s).memInv := by
  unfold afterWrite
  split
  · exact memStore_memInv _ _ _ _ h
  · exact h

/-! I/O transactions -/

/-- Everything an I/O read can do (R58, R199, R201). -/
theorem ioRead_eq (a : Word) (n : Width) (s : State) :
    ioRead a n s = .next
      { s with
        bus := { address := a, data := if a = 1 then zextByte s.iod.key else s.bus.data, read := true,
                 msel := false, word := n.isWord }
        ar := a
        dr := if a = 1 then zextByte s.iod.key else s.bus.data
        iod := if a = 1 then { s.iod with key := 0 } else s.iod } := by
  unfold ioRead busRead busCycle iodOperate
  by_cases h : a = 1#16 <;> simp [h]

/-- Everything an I/O write can do (R58, R199, R202). -/
theorem ioWrite_eq (a : Word) (n : Width) (v : Word) (s : State) :
    ioWrite a n v s = .next
      { s with
        bus := { address := a, data := v, read := false, msel := false, word := n.isWord }
        ar := a
        dr := v
        iod := if a = 0 then { s.iod with out := s.iod.out ++ [loByte v] } else s.iod } := by
  unfold ioWrite busWrite busCycle iodOperate
  by_cases h : a = 0#16 <;> simp [h]

/-! The stack -/

/-- Everything a push can do. -/
theorem pushWord_cases (v : Word) (s : State) :
    (s.wordAccessOk s.pushAddress ∧
      pushWord v s = .next (afterWrite s.pushAddress .word v { s with sp := s.sp - 2 })) ∨
    (s.cfg.straddlePolicy = .fault ∧ s.pushAddress.toNat + 1 = s.ramSize ∧
      pushWord v s = .fault (.straddlingWord s.pushAddress)) := by
  unfold pushWord
  rcases memWrite_cases s.pushAddress .word v { s with sp := s.sp - 2 } with ⟨h, e⟩ | ⟨_, hp, ha, e⟩
  · refine .inl ⟨?_, e⟩
    rcases h with h | h
    · simp at h
    · exact h
  · exact .inr ⟨hp, ha, e⟩

/-- Everything a pop can do. -/
theorem popWord_cases (s : State) :
    (s.wordAccessOk s.popAddress ∧
      popWord s = .next (afterRead s.popAddress .word { s with sp := s.sp + 2 })) ∨
    (s.cfg.straddlePolicy = .fault ∧ s.popAddress.toNat + 1 = s.ramSize ∧
      popWord s = .fault (.straddlingWord s.popAddress)) := by
  unfold popWord
  rcases memRead_cases s.popAddress .word { s with sp := s.sp + 2 } with ⟨h, e⟩ | ⟨_, hp, ha, e⟩
  · refine .inl ⟨?_, e⟩
    rcases h with h | h
    · simp at h
    · exact h
  · exact .inr ⟨hp, ha, e⟩

end Sys2Proof.Machine
end

