-- ==== Sys2Proof/Laws/Decode.lean ====
section
/-! SUPPORT. Laws/Decode.lean: bytes and words, the opcode map read both ways, and what a decoded word is. -/

namespace Sys2Proof

/-! Bytes and words -/

theorem toNat_wordOfBytes (lo hi : Byte) : (wordOfBytes lo hi).toNat = lo.toNat + 256 * hi.toNat := by
  have hlo := lo.isLt
  have h : (hi ++ lo : BitVec (8 + 8)).toNat = hi.toNat <<< 8 ||| lo.toNat := BitVec.toNat_append hi lo
  have e : (wordOfBytes lo hi).toNat = hi.toNat <<< 8 ||| lo.toNat := h
  rw [e, ← Nat.shiftLeft_add_eq_or_of_lt (by omega : lo.toNat < 2 ^ 8), Nat.shiftLeft_eq]
  omega

theorem toNat_loByte (w : Word) : (loByte w).toNat = w.toNat % 256 := by simp [loByte]

theorem toNat_hiByte (w : Word) : (hiByte w).toNat = w.toNat / 256 := by
  have := w.isLt
  simp [hiByte, Nat.shiftRight_eq_div_pow]
  omega

theorem toNat_zextByte (b : Byte) : (zextByte b).toNat = b.toNat := by
  have := b.isLt
  simp [zextByte]
  omega

@[simp] theorem hiByte_wordOfBytes (lo hi : Byte) : hiByte (wordOfBytes lo hi) = hi := by
  have := lo.isLt
  apply BitVec.eq_of_toNat_eq
  rw [toNat_hiByte, toNat_wordOfBytes]
  omega

@[simp] theorem loByte_wordOfBytes (lo hi : Byte) : loByte (wordOfBytes lo hi) = lo := by
  have := lo.isLt
  apply BitVec.eq_of_toNat_eq
  rw [toNat_loByte, toNat_wordOfBytes]
  omega

@[simp] theorem wordOfBytes_lo_hi (w : Word) : wordOfBytes (loByte w) (hiByte w) = w := by
  apply BitVec.eq_of_toNat_eq
  rw [toNat_wordOfBytes, toNat_hiByte, toNat_loByte]
  omega

/-! Fields -/

theorem raOf_val (w : Word) : (raOf w).val = (loByte w).toNat / 16 := by
  simp [raOf, loByte, Nat.shiftRight_eq_div_pow]
  try omega

theorem rbOf_val (w : Word) : (rbOf w).val = (loByte w).toNat % 16 := by simp [rbOf, loByte]

theorem modeOf_eq (w : Word) : modeOf w = (hiByte w).extractLsb' 4 2 := by
  unfold modeOf hiByte
  ext k hk
  simp [BitVec.getLsbD_extractLsb', ← Nat.add_assoc]
  try omega

theorem grpOf_eq (w : Word) : grpOf w = (hiByte w).extractLsb' 6 2 := by
  unfold grpOf hiByte
  ext k hk
  simp [BitVec.getLsbD_extractLsb', ← Nat.add_assoc]
  try omega

theorem opcOf_eq (w : Word) : opcOf w = (hiByte w).extractLsb' 0 4 := by
  unfold opcOf hiByte
  ext k hk
  simp [BitVec.getLsbD_extractLsb']
  try omega

/-! The opcode map -/

theorem Op.mem_all (o : Op) : o ∈ Op.all := by cases o <;> decide

@[simp] theorem opOfHi_hi (o : Op) : opOfHi o.hi = some o := by cases o <;> decide

theorem hi_of_opOfHi {h : Byte} {o : Op} (e : opOfHi h = some o) : o.hi = h := by
  simpa using List.find?_some e

theorem opOfHi_eq_none {h : Byte} : opOfHi h = none ↔ ∀ o : Op, o.hi ≠ h := by
  unfold opOfHi
  rw [List.find?_eq_none]
  exact ⟨fun H o e => H o (Op.mem_all o) (by simp [e]), fun H o _ e => H o (by simpa using e)⟩

theorem Machine.isOp_iff (o : Op) (w : Word) : Machine.isOp o w = true ↔ hiByte w = o.hi := by simp [Machine.isOp]

/-! Decoded words -/

@[simp] theorem op_instrOf (o : Op) (w x : Word) : (instrOf o w x).op = o := by cases o <;> rfl

/-- Everything a successful decoding says. -/
theorem decodeWords_eq_ok {w x : Word} {i : Instr} :
    decodeWords w x = .ok i ↔ opOfHi (hiByte w) = some i.op ∧ i = instrOf i.op w x := by
  unfold decodeWords
  constructor
  · intro h
    split at h
    · rename_i o ho
      injection h with h
      subst h
      exact ⟨by rw [op_instrOf, ho], by rw [op_instrOf]⟩
    · cases h
  · rintro ⟨h1, h2⟩
    rw [h1]
    simp [← h2]

/-- Decoding fails exactly where the triple is no row of the map. -/
theorem decodeWords_error {w x : Word} :
    (∃ e, decodeWords w x = .error e) ↔ opOfHi (hiByte w) = none := by
  unfold decodeWords
  cases opOfHi (hiByte w) <;> simp

end Sys2Proof
end

