-- ==== Sys2Proof/Laws/Display.lean ====
section
/-! SUPPORT. Laws/Display.lean: the monitor's lines, one byte at a time. -/

namespace Sys2Proof.Machine

/-- No output, no characters. -/
@[simp] theorem monitorLines_nil : monitorLines [] = emptyLines := rfl

/-- A byte more of output is one `putByte` more. -/
theorem monitorLines_append (out : List Byte) (b : Byte) : monitorLines (out ++ [b]) = putByte (monitorLines out) b := by
  unfold monitorLines; rw [List.foldl_append]; rfl

/-- A newline scrolls. -/
theorem putByte_newline (m : MonitorLines) : putByte m 0x0A = scrollLines m := rfl

/-- A carriage return on a full bottom line scrolls. -/
theorem putByte_return_full {m : MonitorLines} (h : m.l3.length = columns) : putByte m 0x0D = scrollLines m := by
  unfold putByte; rw [if_neg (by decide), if_pos rfl, if_pos h]

/-- A carriage return on another bottom line pads it. -/
theorem putByte_return_pads {m : MonitorLines} (h : m.l3.length ≠ columns) :
    putByte m 0x0D = { m with l3 := m.l3 ++ List.replicate (columns - m.l3.length) 0x20 } := by
  unfold putByte; rw [if_neg (by decide), if_pos rfl, if_neg h]

/-- Any other byte on a full bottom line scrolls first. -/
theorem putByte_full {m : MonitorLines} {b : Byte} (hn : b ≠ 0x0A) (hr : b ≠ 0x0D) (h : m.l3.length = columns) :
    putByte m b = { scrollLines m with l3 := [b] } := by
  unfold putByte; rw [if_neg hn, if_neg hr, if_pos h]; rfl

/-- Any other byte on another bottom line is appended. -/
theorem putByte_appends {m : MonitorLines} {b : Byte} (hn : b ≠ 0x0A) (hr : b ≠ 0x0D) (h : m.l3.length ≠ columns) :
    putByte m b = { m with l3 := m.l3 ++ [b] } := by
  unfold putByte; rw [if_neg hn, if_neg hr, if_neg h]

end Sys2Proof.Machine
end

