-- ==== Sys2Proof/Laws/Phases.lean ====
section
/-! SUPPORT. Laws/Phases.lean: one equation for each phase of the tick, and what the host's entry before a tick changes. -/

namespace Sys2Proof.Machine

theorem tick_IF {s : State} (h : s.phaseNext = .IF) : tick s = fetch { s with phaseNow := .IF } := by
  unfold tick; split <;> simp_all

theorem tick_ID {s : State} (h : s.phaseNext = .ID) : tick s = .next (decodePhase { s with phaseNow := .ID }) := by
  unfold tick; split <;> simp_all

theorem tick_OF {s : State} (h : s.phaseNext = .OF) : tick s = operandFetch { s with phaseNow := .OF } := by
  unfold tick; split <;> simp_all

theorem tick_IE {s : State} (h : s.phaseNext = .IE) : tick s = execute { s with phaseNow := .IE } := by
  unfold tick; split <;> simp_all

theorem tick_stopped {s : State} (h : s.stopped = true) : tick s = .next { s with phaseNow := s.phaseNext } := by
  unfold tick; split <;> simp_all [State.stopped]

/-- The state after a fetch that has a step (R102). -/
def afterFetch (s : State) : State :=
  { afterRead s.pc .word s with pc := s.pc + 2, ir := s.fetchedWord, phaseNow := .IF, phaseNext := .ID }

/-- Everything a tick with IF due can do. -/
theorem tick_IF_cases {s : State} (h : s.phaseNext = .IF) :
    (s.wordAccessOk s.pc ∧ tick s = .next (afterFetch s)) ∨
    (s.cfg.straddlePolicy = .fault ∧ s.pc.toNat + 1 = s.ramSize ∧ tick s = .fault (.straddlingWord s.pc)) := by
  rw [tick_IF h, fetch]
  rcases memRead_cases s.pc .word { s with phaseNow := .IF } with ⟨ho, e⟩ | ⟨-, hp, ha, e⟩
  · refine .inl ⟨?_, ?_⟩
    · rcases ho with ho | ho
      · cases ho
      · exact ho
    · simp only [e, andThen_next]; rfl
  · exact .inr ⟨hp, ha, by simp only [e, andThen_fault]⟩

/-- Taking the host's entry changes the schedule and the key alone. -/
theorem takeKey_eq (s : State) :
    takeKey s = { s with keyInputs := (takeKey s).keyInputs, iod := { s.iod with key := (takeKey s).iod.key } } := by
  unfold takeKey State.latchKey; split <;> rfl

theorem takeKey_keyInputs (s : State) : (takeKey s).keyInputs = s.keyInputs.drop 1 := by
  unfold takeKey; split <;> simp_all

@[simp] theorem takeKey_out (s : State) : (takeKey s).iod.out = s.iod.out := by rw [takeKey_eq]
@[simp] theorem takeKey_pc (s : State) : (takeKey s).pc = s.pc := by rw [takeKey_eq]
@[simp] theorem takeKey_ir (s : State) : (takeKey s).ir = s.ir := by rw [takeKey_eq]
@[simp] theorem takeKey_regs (s : State) : (takeKey s).regs = s.regs := by rw [takeKey_eq]
@[simp] theorem takeKey_mem (s : State) : (takeKey s).mem = s.mem := by rw [takeKey_eq]
@[simp] theorem takeKey_ramSize (s : State) : (takeKey s).ramSize = s.ramSize := by rw [takeKey_eq]
@[simp] theorem takeKey_bus (s : State) : (takeKey s).bus = s.bus := by rw [takeKey_eq]
@[simp] theorem takeKey_cfg (s : State) : (takeKey s).cfg = s.cfg := by rw [takeKey_eq]
@[simp] theorem takeKey_flags (s : State) : (takeKey s).flags = s.flags := by rw [takeKey_eq]
@[simp] theorem takeKey_sp (s : State) : (takeKey s).sp = s.sp := by rw [takeKey_eq]
@[simp] theorem takeKey_phaseNow (s : State) : (takeKey s).phaseNow = s.phaseNow := by rw [takeKey_eq]
@[simp] theorem takeKey_phaseNext (s : State) : (takeKey s).phaseNext = s.phaseNext := by rw [takeKey_eq]

/-- An entry that is a key latches it. -/
theorem takeKey_some {s : State} {k : Byte} {ks : List (Option Byte)} (h : s.keyInputs = some k :: ks) :
    takeKey s = { s.latchKey k with keyInputs := ks } := by unfold takeKey; rw [h]

/-- An entry that is none latches nothing. -/
theorem takeKey_none {s : State} {ks : List (Option Byte)} (h : s.keyInputs = none :: ks) :
    takeKey s = { s with keyInputs := ks } := by unfold takeKey; rw [h]

/-- With no schedule the host's entry does nothing. -/
theorem takeKey_nil {s : State} (h : s.keyInputs = []) : takeKey s = s := by unfold takeKey; rw [h]

end Sys2Proof.Machine
end

