-- ==== Sys2Proof/Laws/Exec.lean ====
section
/-! SUPPORT. Laws/Exec.lean: what the shared endings of the arms do, each said once: a register with flags, a load, a
store, a push, a pop, a relative jump; and how a tick of IE ends. -/

namespace Sys2Proof.Machine

/-! Flags and bytes -/

/-- `Z` and `N` of a result in the terms of the claims (R152). -/
theorem znFrom_flags (v : Word) : (zeroFlag v = true ↔ v.toNat = 0) ∧ (negativeFlag v = true ↔ 32768 ≤ v.toNat) := by
  refine ⟨?_, negativeFlag_iff v⟩
  rw [zeroFlag_iff, ← BitVec.toNat_inj]
  rfl

/-- A byte load's value is below 256 (R84). -/
theorem toNat_byteLoadValue (v : Word) : (byteLoadValue v).toNat = v.toNat % 256 := by
  simp [byteLoadValue, toNat_zextByte, toNat_loByte]

/-- A wrapped integer differs from the integer exactly where that is no 16-bit number: the overflow test of R152. -/
theorem ne_toInt_iff_outOfRange {x : Int} {r : Word} (h : r.toInt = x.bmod 65536) :
    decide (x ≠ r.toInt) = true ↔ outOfRange x := by
  rw [decide_eq_true_eq, h]
  unfold outOfRange Int.bmod
  simp only
  split <;> omega

/-! Arms that write a register -/

/-- Everything an ALU arm's ending does. -/
theorem aluResult_next (s : State) (r : Reg) (v : Word) (f : Flags) :
    ∃ t, aluResult r v f s = .next t ∧ t.reg r = v ∧ t.flags = f ∧ SameRegsBut r s t ∧ RegisterArm s t :=
  ⟨_, rfl, reg_setReg_self s r v, rfl, fun q hq => reg_setReg_of_ne s r q v hq,
    ⟨rfl, rfl, rfl, rfl, rfl⟩, fun _ => rfl, ⟨rfl, rfl, rfl⟩, rfl, rfl, rfl, rfl⟩

/-- Everything a load's ending does (R135). -/
theorem loadReg_next (s : State) (r : Reg) (v : Word) :
    ∃ t, loadReg r v s = .next t ∧ t.reg r = v ∧ ZNFrom v t.flags ∧ t.flags.c = s.flags.c ∧ t.flags.v = s.flags.v ∧
      SameRegsBut r s t ∧ RegisterArm s t :=
  ⟨_, rfl, reg_setReg_self s r v, znFrom_flags v, rfl, rfl, fun q hq => reg_setReg_of_ne s r q v hq,
    ⟨rfl, rfl, rfl, rfl, rfl⟩, fun _ => rfl, ⟨rfl, rfl, rfl⟩, rfl, rfl, rfl, rfl⟩

/-! Arms that store -/

/-- What a write does to memory, in the terms of the claims, for a word. -/
theorem wordStored_afterWrite (a v : Word) (s : State) : WordStored a v s (afterWrite a .word v s) := by
  refine ⟨fun h => ?_, fun h => ?_, fun h x => ?_, fun x hx => ?_⟩ <;> rw [peek_afterWrite]
  · rw [if_pos ⟨rfl, h⟩]; rfl
  · rw [if_neg (by omega), if_pos ⟨rfl, rfl, h⟩]; rfl
  · rw [if_neg (by omega), if_neg (by omega)]
  · rw [if_neg (by omega), if_neg (by omega)]

/-- The same for a byte. -/
theorem byteStored_afterWrite (a v : Word) (s : State) : ByteStored a v s (afterWrite a .byte v s) := by
  refine ⟨fun h => ?_, fun h x => ?_, fun x hx => ?_⟩ <;> rw [peek_afterWrite]
  · rw [if_pos ⟨rfl, h⟩]; rfl
  · rw [if_neg (by omega), if_neg (by simp)]
  · rw [if_neg (by omega), if_neg (by simp)]

/-- A write leaves everything but the latches, `ar`, `dr` and memory. -/
theorem afterWrite_frame (a : Word) (n : Width) (v : Word) (s : State) :
    SameMachine s (afterWrite a n v s) ∧ SameRegs s (afterWrite a n v s) ∧ (afterWrite a n v s).flags = s.flags ∧
    (afterWrite a n v s).iod = s.iod ∧ (afterWrite a n v s).pc = s.pc ∧ (afterWrite a n v s).sp = s.sp ∧
    BusWriteSeen a v true n.isWord (afterWrite a n v s) := by
  rw [afterWrite_eq]
  exact ⟨⟨rfl, rfl, rfl, rfl, rfl⟩, fun _ => rfl, rfl, rfl, rfl, rfl, rfl, rfl, rfl⟩

/-- The stored word and the frame of memory are read through `mem` and `ramSize`. -/
theorem WordStored.congr {a v : Word} {s t u : State} (h : WordStored a v s t) (hm : u.mem = t.mem)
    (hr : u.ramSize = t.ramSize) : WordStored a v s u := by
  have p := peek_congr hm hr
  unfold WordStored SameMem SameMemBut at *
  simpa only [p] using h

theorem ByteStored.congr {a v : Word} {s t u : State} (h : ByteStored a v s t) (hm : u.mem = t.mem)
    (hr : u.ramSize = t.ramSize) : ByteStored a v s u := by
  have p := peek_congr hm hr
  unfold ByteStored SameMem SameMemBut at *
  simpa only [p] using h

/-- The two ways a word access can be without a step. -/
theorem straddles_of_not_wordAccessOk {a : Word} {s : State} (h : ¬ s.wordAccessOk a) :
    s.cfg.straddlePolicy = .fault ∧ a.toNat + 1 = s.ramSize := by
  rcases accessOk_or_straddles a .word s with (h' | h') | h'
  · cases h'
  · exact absurd h' h
  · exact h'.2

/-- A straddling push or pop is the only one without a step. -/
theorem pushWord_next {v : Word} {s : State} (h : s.wordAccessOk s.pushAddress) :
    pushWord v s = .next (afterWrite s.pushAddress .word v { s with sp := s.sp - 2 }) := by
  rcases pushWord_cases v s with ⟨_, e⟩ | ⟨hp, ha, e⟩
  · exact e
  · rcases h with h | h
    · rw [h] at hp; cases hp
    · exact absurd ha h

theorem popWord_next {s : State} (h : s.wordAccessOk s.popAddress) :
    popWord s = .next (afterRead s.popAddress .word { s with sp := s.sp + 2 }) := by
  rcases popWord_cases s with ⟨_, e⟩ | ⟨hp, ha, e⟩
  · exact e
  · rcases h with h | h
    · rw [h] at hp; cases hp
    · exact absurd ha h

/-- What a word read delivers (R54, R56, R60). -/
theorem memAnswer_inRam {s : State} {a : Word} (h : a.toNat + 1 < s.ramSize) :
    s.memAnswer a true = (s.peek (a.toNat + 1) ++ s.peek a.toNat : Word) := by
  simp [State.memAnswer, State.memValue, show a.toNat < s.ramSize by omega, wordOfBytes]

theorem memAnswer_outside {s : State} {a : Word} (n : Bool) (h : s.ramSize ≤ a.toNat) :
    s.memAnswer a n = s.bus.data := by
  simp [State.memAnswer, Nat.not_lt.mpr h]

/-! Jumps -/

/-- Everything a relative jump does (R182). -/
theorem relJump_next (b : Bool) (off : Int) (s : State) :
    ∃ t, relJump b off s = .next t ∧ RelJumped (b = true) off s t := by
  refine ⟨_, rfl, ?_⟩
  cases b
  · exact ⟨⟨⟨rfl, rfl, rfl, rfl, rfl⟩, fun _ => rfl, rfl, fun _ => rfl, ⟨rfl, rfl, rfl⟩, rfl, rfl, rfl⟩,
      by simp, fun _ => rfl⟩
  · refine ⟨⟨⟨rfl, rfl, rfl, rfl, rfl⟩, fun _ => rfl, rfl, fun _ => rfl, ⟨rfl, rfl, rfl⟩, rfl, rfl, rfl⟩,
      fun _ => ?_, by simp⟩
    simp [State.relTarget, sextOffset, BitVec.toNat_add]
    omega

/-! IE -/

theorem execute_of_decode {u : State} {i : Instr} (h : decodeWords u.ir u.opnd = .ok i) : execute u = exec i u := by
  unfold execute; rw [h]

theorem execute_of_illegal {u : State} (h : opOfHi (hiByte u.ir) = none) : execute u = raiseIllegal u := by
  unfold execute decodeWords; rw [h]

/-! The operand fetch -/

/-- A memory read changes the latches, `ar` and `dr` alone. -/
theorem memRead_eq_next {a : Word} {n : Width} {s t : State} (h : memRead a n s = .next t) : t = afterRead a n s := by
  rcases memRead_cases a n s with ⟨_, e⟩ | ⟨_, _, _, e⟩ <;> rw [e] at h
  · injection h with h; exact h.symm
  · cases h

/-- The reads of the operand fetch change `pc`, the latches, `ar` and `dr` alone. -/
theorem operandReads_frame {s t : State} (h : operandReads s = .next t) :
    { t with pc := s.pc, bus := s.bus, ar := s.ar, dr := s.dr } = s := by
  unfold operandReads at h
  split at h
  · simp only [ofAbsolute, andThen_eq_next] at h
    obtain ⟨u, h1, h2⟩ := h
    have := memRead_eq_next h1; subst this
    split at h2
    · have := memRead_eq_next h2; subst this; rfl
    · split at h2
      · have := memRead_eq_next h2; subst this; rfl
      · injection h2 with h2; subst h2; rfl
  · split at h
    · unfold ofRegisterIndirect at h
      split at h <;> (have := memRead_eq_next h; subst this; rfl)
    · simp only [ofFollowingWord, andThen_eq_next] at h
      obtain ⟨u, h1, h2⟩ := h
      have := memRead_eq_next h1; subst this
      injection h2 with h2; subst h2; rfl

/-- Everything but what a tick with OF due writes (R104 to R107). -/
theorem tick_OF_frame {s t : State} (hp : s.phaseNext = .OF) (h : tick s = .next t) :
    t.phaseNow = .OF ∧ t.phaseNext = .IE ∧
    { t with pc := s.pc, bus := s.bus, ar := s.ar, dr := s.dr, phaseNow := s.phaseNow, phaseNext := s.phaseNext } = s := by
  rw [tick_OF hp, operandFetch, andThen_eq_next] at h
  obtain ⟨u, h1, h2⟩ := h
  have f := operandReads_frame h1
  injection h2 with h2; subst h2
  have n : u.phaseNow = .OF := congrArg State.phaseNow f
  have e := congrArg State.phaseNext f
  have g := congrArg (fun x : State => { x with phaseNow := s.phaseNow }) f
  simp only at g e
  simp only [e] at g
  exact ⟨n, rfl, g⟩

end Sys2Proof.Machine
end

