-- ==== Sys2Proof/Laws/PerInstr.lean ====
section
/-! SUPPORT. Laws/PerInstr.lean: one lemma for each instruction, family by family.
WordFields: the instruction word of every instruction has its row's high byte, which no other row has, over its low byte,
and it has an extension word exactly where its row has one (30_encoding.md R82, R87). -/

namespace Sys2Proof.Laws.WordFields

open Sys2Proof

/-- The fields of an instruction's words. -/
def Statement (i : Instr) : Prop :=
  opOfHi (hiByte i.word) = some i.op ∧ loByte i.word = i.lowByte ∧ i.ext.isSome = i.op.hasExt

/-- The high and low byte of any instruction word. -/
theorem of_ext {i : Instr} (h : i.ext.isSome = i.op.hasExt) : Statement i :=
  ⟨by rw [Instr.word, hiByte_wordOfBytes, opOfHi_hi], by rw [Instr.word, loByte_wordOfBytes], h⟩

theorem mv (ra rb : Reg) : Statement (.mv ra rb) := of_ext rfl
theorem push (ra : Reg) : Statement (.push ra) := of_ext rfl
theorem pop (ra : Reg) : Statement (.pop ra) := of_ext rfl
theorem sprd (ra : Reg) : Statement (.sprd ra) := of_ext rfl
theorem spwr (ra : Reg) : Statement (.spwr ra) := of_ext rfl
theorem ldwi (ra : Reg) (x : Word) : Statement (.ldwi ra x) := of_ext rfl
theorem ldbi (ra : Reg) (x : Word) : Statement (.ldbi ra x) := of_ext rfl
theorem ldwa (ra : Reg) (x : Word) : Statement (.ldwa ra x) := of_ext rfl
theorem ldba (ra : Reg) (x : Word) : Statement (.ldba ra x) := of_ext rfl
theorem stwa (ra : Reg) (x : Word) : Statement (.stwa ra x) := of_ext rfl
theorem stba (ra : Reg) (x : Word) : Statement (.stba ra x) := of_ext rfl
theorem ldwr (ra rb : Reg) : Statement (.ldwr ra rb) := of_ext rfl
theorem ldbr (ra rb : Reg) : Statement (.ldbr ra rb) := of_ext rfl
theorem stwr (ra rb : Reg) : Statement (.stwr ra rb) := of_ext rfl
theorem stbr (ra rb : Reg) : Statement (.stbr ra rb) := of_ext rfl
theorem add (ra rb : Reg) : Statement (.add ra rb) := of_ext rfl
theorem sub (ra rb : Reg) : Statement (.sub ra rb) := of_ext rfl
theorem not (ra : Reg) : Statement (.not ra) := of_ext rfl
theorem and (ra rb : Reg) : Statement (.and ra rb) := of_ext rfl
theorem or (ra rb : Reg) : Statement (.or ra rb) := of_ext rfl
theorem xor (ra rb : Reg) : Statement (.xor ra rb) := of_ext rfl
theorem inc (ra : Reg) : Statement (.inc ra) := of_ext rfl
theorem dec (ra : Reg) : Statement (.dec ra) := of_ext rfl
theorem lsh (ra : Reg) : Statement (.lsh ra) := of_ext rfl
theorem rsh (ra : Reg) : Statement (.rsh ra) := of_ext rfl
theorem inb (ra : Reg) (x : Word) : Statement (.inb ra x) := of_ext rfl
theorem outb (ra : Reg) (x : Word) : Statement (.outb ra x) := of_ext rfl
theorem tsti (x : Word) : Statement (.tsti x) := of_ext rfl
theorem tsto (x : Word) : Statement (.tsto x) := of_ext rfl
theorem br (x : Word) : Statement (.br x) := of_ext rfl
theorem jmp (off : Int) : Statement (.jmp off) := of_ext rfl
theorem jmpz (off : Int) : Statement (.jmpz off) := of_ext rfl
theorem jmpnz (off : Int) : Statement (.jmpnz off) := of_ext rfl
theorem jmpn (off : Int) : Statement (.jmpn off) := of_ext rfl
theorem jmpnn (off : Int) : Statement (.jmpnn off) := of_ext rfl
theorem jmpc (off : Int) : Statement (.jmpc off) := of_ext rfl
theorem jmpv (off : Int) : Statement (.jmpv off) := of_ext rfl
theorem call (x : Word) : Statement (.call x) := of_ext rfl
theorem ret : Statement (.ret) := of_ext rfl
theorem hlt : Statement (.hlt) := of_ext rfl

end Sys2Proof.Laws.WordFields
end

