-- ==== Sys2Proof/Tests/Slice0.lean ====
section
/-! SUPPORT. Tests/Slice0.lean: the model's own tests. Words are written out from 30_encoding.md R87; expected results are
those of spec/95_test_vectors.md (S and T numbers); then, for each obligation with hypotheses, inputs that meet them. -/

namespace Sys2Proof.Tests

open Sys2Proof Sys2Proof.Machine

/-! Small states -/

/-- The reset state with RAM_SIZE = 32, START_ADDRESS = 0 and an image. -/
def ram (image : List Byte) : State :=
  State.resetWith { ramSize := 32, startAddress := 0, image := image, config := defaultConfig }

/-- The same with the instruction at `pc`. -/
def ramAt (pc : Nat) (image : List Byte) : State :=
  { ram (List.replicate pc 0 ++ image) with pc := BitVec.ofNat 16 pc }

/-- Flags written in the vectors' order Z, N, C, V. -/
def zncv (z n c v : Bool) : Flags := { z := z, n := n, c := c, v := v }

/-- `s` under STRADDLE_POLICY = fault. -/
def strict (s : State) : State := { s with cfg := { s.cfg with straddlePolicy := .fault } }

/-- A bus, in the vectors' order. -/
def busOf (a d : Word) (r m w : Bool) : Bus := { address := a, data := d, read := r, msel := m, word := w }

/-- `p` holds of the state after one step. -/
def after (s : State) (p : State → Bool) : Bool :=
  match step s with
  | .next t => p t
  | .fault _ => false
  | .refused _ => false

/-! WellFormed: offsets outside -128 .. 127 are refused (R86), the bounds are not -/

theorem test_wf_jmp : ¬ WellFormed (.jmp 128) ∧ ¬ WellFormed (.jmp (-129)) ∧ WellFormed (.jmp 127) ∧
    WellFormed (.jmp (-128)) := by decide
theorem test_wf_jmpz : ¬ WellFormed (.jmpz 128) ∧ ¬ WellFormed (.jmpz (-129)) ∧ WellFormed (.jmpz 127) ∧
    WellFormed (.jmpz (-128)) := by decide
theorem test_wf_jmpnz : ¬ WellFormed (.jmpnz 128) ∧ ¬ WellFormed (.jmpnz (-129)) ∧ WellFormed (.jmpnz 127) ∧
    WellFormed (.jmpnz (-128)) := by decide
theorem test_wf_jmpn : ¬ WellFormed (.jmpn 128) ∧ ¬ WellFormed (.jmpn (-129)) ∧ WellFormed (.jmpn 127) ∧
    WellFormed (.jmpn (-128)) := by decide
theorem test_wf_jmpnn : ¬ WellFormed (.jmpnn 128) ∧ ¬ WellFormed (.jmpnn (-129)) ∧ WellFormed (.jmpnn 127) ∧
    WellFormed (.jmpnn (-128)) := by decide
theorem test_wf_jmpc : ¬ WellFormed (.jmpc 128) ∧ ¬ WellFormed (.jmpc (-129)) ∧ WellFormed (.jmpc 127) ∧
    WellFormed (.jmpc (-128)) := by decide
theorem test_wf_jmpv : ¬ WellFormed (.jmpv 128) ∧ ¬ WellFormed (.jmpv (-129)) ∧ WellFormed (.jmpv 127) ∧
    WellFormed (.jmpv (-128)) := by decide

/-! Decode: one word of each row, bit by bit as grp, mode, opc, ra, rb (R81, R82), an extension word above it -/

theorem test_decode_mv : decodeTableWord 16 0b00_00_0100_1010_0011 = some (.mv 10 3) := by decide
theorem test_decode_push : decodeTableWord 16 0b00_00_1000_1010_0000 = some (.push 10) := by decide
theorem test_decode_pop : decodeTableWord 16 0b00_00_1001_1010_0000 = some (.pop 10) := by decide
theorem test_decode_sprd : decodeTableWord 16 0b00_00_1101_1010_0000 = some (.sprd 10) := by decide
theorem test_decode_spwr : decodeTableWord 16 0b00_00_1110_1010_0000 = some (.spwr 10) := by decide
theorem test_decode_ldwi : decodeTableWord 32 0b1011111011101111_00_01_0000_1010_0000 = some (.ldwi 10 0xBEEF) := by decide
theorem test_decode_ldbi : decodeTableWord 32 0b1011111011101111_00_01_0001_1010_0000 = some (.ldbi 10 0xBEEF) := by decide
theorem test_decode_ldwa : decodeTableWord 32 0b1011111011101111_00_10_0000_1010_0000 = some (.ldwa 10 0xBEEF) := by decide
theorem test_decode_ldba : decodeTableWord 32 0b1011111011101111_00_10_0001_1010_0000 = some (.ldba 10 0xBEEF) := by decide
theorem test_decode_stwa : decodeTableWord 32 0b1011111011101111_00_10_0010_1010_0000 = some (.stwa 10 0xBEEF) := by decide
theorem test_decode_stba : decodeTableWord 32 0b1011111011101111_00_10_0011_1010_0000 = some (.stba 10 0xBEEF) := by decide
theorem test_decode_ldwr : decodeTableWord 16 0b00_11_0000_1010_0011 = some (.ldwr 10 3) := by decide
theorem test_decode_ldbr : decodeTableWord 16 0b00_11_0001_1010_0011 = some (.ldbr 10 3) := by decide
theorem test_decode_stwr : decodeTableWord 16 0b00_11_0010_1010_0011 = some (.stwr 10 3) := by decide
theorem test_decode_stbr : decodeTableWord 16 0b00_11_0011_1010_0011 = some (.stbr 10 3) := by decide
theorem test_decode_add : decodeTableWord 16 0b01_00_0000_1010_0011 = some (.add 10 3) := by decide
theorem test_decode_sub : decodeTableWord 16 0b01_00_0001_1010_0011 = some (.sub 10 3) := by decide
theorem test_decode_not : decodeTableWord 16 0b01_00_0010_1010_0000 = some (.not 10) := by decide
theorem test_decode_and : decodeTableWord 16 0b01_00_0011_1010_0011 = some (.and 10 3) := by decide
theorem test_decode_or : decodeTableWord 16 0b01_00_0100_1010_0011 = some (.or 10 3) := by decide
theorem test_decode_xor : decodeTableWord 16 0b01_00_0101_1010_0011 = some (.xor 10 3) := by decide
theorem test_decode_inc : decodeTableWord 16 0b01_00_1000_1010_0000 = some (.inc 10) := by decide
theorem test_decode_dec : decodeTableWord 16 0b01_00_1001_1010_0000 = some (.dec 10) := by decide
theorem test_decode_lsh : decodeTableWord 16 0b01_00_1010_1010_0000 = some (.lsh 10) := by decide
theorem test_decode_rsh : decodeTableWord 16 0b01_00_1011_1010_0000 = some (.rsh 10) := by decide
theorem test_decode_inb : decodeTableWord 32 0b1011111011101111_10_00_0001_1010_0000 = some (.inb 10 0xBEEF) := by decide
theorem test_decode_outb : decodeTableWord 32 0b1011111011101111_10_00_0011_1010_0000 = some (.outb 10 0xBEEF) := by decide
theorem test_decode_tsti : decodeTableWord 32 0b1011111011101111_10_00_0100_0000_0000 = some (.tsti 0xBEEF) := by decide
theorem test_decode_tsto : decodeTableWord 32 0b1011111011101111_10_00_0101_0000_0000 = some (.tsto 0xBEEF) := by decide
theorem test_decode_br : decodeTableWord 32 0b1011111011101111_11_00_0000_0000_0000 = some (.br 0xBEEF) := by decide
theorem test_decode_jmp : decodeTableWord 16 0b11_00_0001_1111_0100 = some (.jmp (-12)) := by decide
theorem test_decode_jmpz : decodeTableWord 16 0b11_00_0010_1111_0100 = some (.jmpz (-12)) := by decide
theorem test_decode_jmpnz : decodeTableWord 16 0b11_00_0011_1111_0100 = some (.jmpnz (-12)) := by decide
theorem test_decode_jmpn : decodeTableWord 16 0b11_00_0100_1111_0100 = some (.jmpn (-12)) := by decide
theorem test_decode_jmpnn : decodeTableWord 16 0b11_00_0101_1111_0100 = some (.jmpnn (-12)) := by decide
theorem test_decode_jmpc : decodeTableWord 16 0b11_00_0110_1111_0100 = some (.jmpc (-12)) := by decide
theorem test_decode_jmpv : decodeTableWord 16 0b11_00_0111_1111_0100 = some (.jmpv (-12)) := by decide
theorem test_decode_call : decodeTableWord 32 0b1011111011101111_11_00_1000_0000_0000 = some (.call 0xBEEF) := by decide
theorem test_decode_ret : decodeTableWord 16 0b11_00_1001_0000_0000 = some (.ret) := by decide
theorem test_decode_hlt : decodeTableWord 16 0b11_00_1111_0000_0000 = some (.hlt) := by decide
theorem test_decode_illegal : decodeTableWord 16 0b00_00_1111_0000_0000 = none := by decide
theorem test_decode_ignores_unused : decodeTableWord 16 0x420F = some (.not 0) := by decide
theorem test_decode_truncated : decodeBytes [0x00, 0x10, 0x34] = .error .truncated := by decide

/-! One step of each instruction: the vector named beside it -/

/-- T1. -/
theorem test_mv : after ({ (ram [0x12, 0x04]).setReg 1 0x8000 with flags := zncv true false false false })
    (fun t => t.reg 2 == 0x8000 && t.reg 1 == 0x8000 && decide (t.flags = zncv true false false false) && t.pc == 2) = true := by decide

/-- T3. -/
theorem test_push : after ((ram [0x30, 0x08]).setReg 3 0xA55A)
    (fun t => t.sp == 0x001C && t.peek 0x1C == 0x5A && t.peek 0x1D == 0xA5 && decide (t.bus = busOf 0x001C 0xA55A false true true) && t.peek 0x1E == 0x00 && t.ar == 0x001C && t.dr == 0xA55A) = true := by decide

/-- T6. -/
theorem test_push_wraps : after ({ ((ram [0x00, 0x08]).setReg 0 0x1234) with sp := 0, ramSize := 65536 })
    (fun t => t.sp == 0xFFFE && t.peek 0xFFFE == 0x34 && t.peek 0xFFFF == 0x12) = true := by decide

/-- T4. -/
theorem test_pop : after ({ ((ram [0x10, 0x09]).poke 0x1C 0x5A).poke 0x1D 0xA5 with sp := 0x001C })
    (fun t => t.reg 1 == 0xA55A && t.sp == 0x001E && decide (t.flags = zncv false false false false)) = true := by decide

/-- T5. -/
theorem test_pop_outside : after ({ ram [0x10, 0x09] with sp := 0x0100 })
    (fun t => t.reg 1 == 0x0000 && t.sp == 0x0102 && t.ar == 0x0100 && t.dr == 0) = true := by decide

/-- T7. -/
theorem test_sprd : after (ram [0x10, 0x0D])
    (fun t => t.reg 1 == 0x001E && decide (t.flags = zncv false false false false)) = true := by decide

/-- T8. -/
theorem test_spwr : after ((ram [0x10, 0x0E]).setReg 1 0x0011)
    (fun t => t.sp == 0x0011) = true := by decide

/-- S8. -/
theorem test_ldwi : after ({ ram [0x00, 0x10, 0x34, 0x12] with flags := zncv false false true true })
    (fun t => t.reg 0 == 0x1234 && t.pc == 4 && decide (t.flags = zncv false false true true) && decide (t.bus = busOf 0x0002 0x1234 true true true) && t.ar == 2 && t.dr == 0x1234) = true := by decide

/-- T9. -/
theorem test_ldwi_zero : after ({ (ram [0x00, 0x10, 0x00, 0x00]).setReg 0 0xFFFF with flags := zncv false true true true })
    (fun t => t.reg 0 == 0x0000 && decide (t.flags = zncv true false true true)) = true := by decide

/-- T11. -/
theorem test_ldbi : after (ram [0x10, 0x11, 0xCD, 0xAB])
    (fun t => t.reg 1 == 0x00CD && decide (t.flags = zncv false false false false) && t.pc == 4 && t.dr == 0xABCD) = true := by decide

/-- T13. -/
theorem test_ldwa : after (((ram [0x50, 0x20, 0x10, 0x00]).poke 0x10 0xEF).poke 0x11 0xBE)
    (fun t => t.reg 5 == 0xBEEF && decide (t.flags = zncv false true false false) && t.pc == 4 && t.ar == 0x0010 && t.dr == 0xBEEF) = true := by decide

/-- T43. -/
theorem test_ldwa_outside : after (ram [0x00, 0x20, 0x00, 0x01])
    (fun t => t.reg 0 == 0x0100 && decide (t.flags = zncv false false false false) && t.ar == 0x0100 && t.dr == 0x0100) = true := by decide

/-- T14. -/
theorem test_ldba : after (((ram [0x50, 0x21, 0x11, 0x00]).poke 0x10 0xEF).poke 0x11 0xBE)
    (fun t => t.reg 5 == 0x00BE && decide (t.flags = zncv false false false false) && decide (t.bus = busOf 0x0011 0x00BE true true false)) = true := by decide

/-- T15. -/
theorem test_ldwr : after ({ (((ram [0x02, 0x30]).poke 0x10 0x80).poke 0x11 0xFF).setReg 2 0x0010 with flags := zncv false false true true })
    (fun t => t.reg 0 == 0xFF80 && decide (t.flags = zncv false true true true) && t.pc == 2) = true := by decide

/-- T17. -/
theorem test_ldwr_same : after ((((ram [0x22, 0x30]).poke 0x10 0x34).poke 0x11 0x12).setReg 2 0x0010)
    (fun t => t.reg 2 == 0x1234) = true := by decide

/-- T16. -/
theorem test_ldbr : after ({ (((ram [0x02, 0x31]).poke 0x10 0x80).poke 0x11 0xFF).setReg 2 0x0010 with flags := zncv false false true true })
    (fun t => t.reg 0 == 0x0080 && decide (t.flags = zncv false false true true) && decide (t.bus = busOf 0x0010 0x0080 true true false)) = true := by decide

/-- T18. -/
theorem test_stwa : after (((ram [0x00, 0x22, 0x10, 0x00]).poke 0x11 0x77).setReg 0 0x1234)
    (fun t => t.peek 0x10 == 0x34 && t.peek 0x11 == 0x12 && decide (t.bus = busOf 0x0010 0x1234 false true true) && decide (t.flags = zncv false false false false)) = true := by decide

/-- T48. -/
theorem test_stwa_outside : after ((ram [0x00, 0x22, 0x00, 0x01]).setReg 0 0x1234)
    (fun t => decide (t.bus = busOf 0x0100 0x1234 false true true) && decide (t.mem = (ram [0x00, 0x22, 0x00, 0x01]).mem)) = true := by decide

/-- T19. -/
theorem test_stba : after (((ram [0x00, 0x23, 0x10, 0x00]).poke 0x11 0x77).setReg 0 0x1234)
    (fun t => t.peek 0x10 == 0x34 && t.peek 0x11 == 0x77 && decide (t.bus = busOf 0x0010 0x1234 false true false)) = true := by decide

/-- T20. -/
theorem test_stwr : after (((ram [0x12, 0x32]).setReg 1 0x1234).setReg 2 0x0014)
    (fun t => t.peek 0x14 == 0x34 && t.peek 0x15 == 0x12) = true := by decide

/-- T47. -/
theorem test_stwr_straddles : after (((ram [0x01, 0x32]).setReg 0 0xCDAB).setReg 1 0x001F)
    (fun t => t.peek 0x1F == 0xAB && t.peek 0x20 == 0x00) = true := by decide

/-- T21. -/
theorem test_stbr : after (((ram [0x12, 0x33]).setReg 1 0x1234).setReg 2 0x0014)
    (fun t => t.peek 0x14 == 0x34 && t.peek 0x15 == 0x00) = true := by decide

/-- S2. -/
theorem test_add_overflow : after (((ram [0x10, 0x40]).setReg 0 0x7FFF).setReg 1 0x0001)
    (fun t => t.reg 0 == 0x8000 && decide (t.flags = zncv false true false true) && t.pc == 2) = true := by decide

/-- S2. -/
theorem test_add_carry : after (((ram [0x10, 0x40]).setReg 0 0xFFFF).setReg 1 0x0001)
    (fun t => t.reg 0 == 0x0000 && decide (t.flags = zncv true false true false) && t.pc == 2) = true := by decide

/-- S3, T64. -/
theorem test_sub : after (((ram [0x10, 0x41]).setReg 0 0x0000).setReg 1 0x0001)
    (fun t => t.reg 0 == 0xFFFF && decide (t.flags = zncv false true false false) && t.pc == 2) = true := by decide

/-- T63. -/
theorem test_sub_intmin : after (((ram [0x10, 0x41]).setReg 0 0x0000).setReg 1 0x8000)
    (fun t => t.reg 0 == 0x8000 && decide (t.flags = zncv false true false true) && t.pc == 2) = true := by decide

/-- T67. -/
theorem test_not : after ((ram [0x00, 0x42]).setReg 0 0x00FF)
    (fun t => t.reg 0 == 0xFF00 && decide (t.flags = zncv false true false false) && t.pc == 2) = true := by decide

/-- T69. -/
theorem test_and : after ({ ((ram [0x10, 0x43]).setReg 0 0xF0F0).setReg 1 0x0FF0 with flags := zncv true true true true })
    (fun t => t.reg 0 == 0x00F0 && decide (t.flags = zncv false false false false) && t.pc == 2) = true := by decide

/-- T71. -/
theorem test_or : after (((ram [0x10, 0x44]).setReg 0 0xF000).setReg 1 0x000F)
    (fun t => t.reg 0 == 0xF00F && decide (t.flags = zncv false true false false) && t.pc == 2) = true := by decide

/-- T73. -/
theorem test_xor : after (((ram [0x10, 0x45]).setReg 0 0xFFFF).setReg 1 0x00FF)
    (fun t => t.reg 0 == 0xFF00 && decide (t.flags = zncv false true false false) && t.pc == 2) = true := by decide

/-- T76. -/
theorem test_inc_carry : after ((ram [0x00, 0x48]).setReg 0 0xFFFF)
    (fun t => t.reg 0 == 0x0000 && decide (t.flags = zncv true false true false) && t.pc == 2) = true := by decide

/-- T77. -/
theorem test_inc_overflow : after ((ram [0x00, 0x48]).setReg 0 0x7FFF)
    (fun t => t.reg 0 == 0x8000 && decide (t.flags = zncv false true false true) && t.pc == 2) = true := by decide

/-- T80. -/
theorem test_dec : after ((ram [0x00, 0x49]).setReg 0 0x8000)
    (fun t => t.reg 0 == 0x7FFF && decide (t.flags = zncv false false true true) && t.pc == 2) = true := by decide

/-- T79. -/
theorem test_dec_zero : after ((ram [0x00, 0x49]).setReg 0 0x0000)
    (fun t => t.reg 0 == 0xFFFF && decide (t.flags = zncv false true true false) && t.pc == 2) = true := by decide

/-- T82. -/
theorem test_lsh : after ((ram [0x00, 0x4A]).setReg 0 0x8001)
    (fun t => t.reg 0 == 0x0002 && decide (t.flags = zncv false false true false) && t.pc == 2) = true := by decide

/-- T83. -/
theorem test_lsh_sign : after ((ram [0x00, 0x4A]).setReg 0 0x4000)
    (fun t => t.reg 0 == 0x8000 && decide (t.flags = zncv false true false false) && t.pc == 2) = true := by decide

/-- T85. -/
theorem test_rsh : after ((ram [0x00, 0x4B]).setReg 0 0x8001)
    (fun t => t.reg 0 == 0x4000 && decide (t.flags = zncv false false true false) && t.pc == 2) = true := by decide

/-- T87. -/
theorem test_rsh_even : after ((ram [0x00, 0x4B]).setReg 0 0xFFFE)
    (fun t => t.reg 0 == 0x7FFF && decide (t.flags = zncv false false false false) && t.pc == 2) = true := by decide

/-- T32. -/
theorem test_inb : after ({ ((ram [0x00, 0x81, 0x01, 0x00]).setReg 0 0xFFFF).latchKey 0x41 with flags := zncv false true false false })
    (fun t => t.reg 0 == 0x0041 && t.iod.key == 0 && decide (t.bus = busOf 0x0001 0x0041 true false false) && decide (t.flags = zncv false true false false) && t.ar == 1 && t.dr == 0x0041) = true := by decide

/-- T33. -/
theorem test_inb_unanswered : after ((ram [0x00, 0x81, 0x05, 0x00]).setReg 0 0x1234)
    (fun t => t.reg 0 == 0x0005 && decide (t.bus = busOf 0x0005 0x0005 true false false)) = true := by decide

/-- T30. -/
theorem test_outb : after ((ram [0x50, 0x83, 0x00, 0x00]).setReg 5 0x1241)
    (fun t => decide (t.iod.out = [0x41]) && decide (t.bus = busOf 0x0000 0x1241 false false false) && t.pc == 4 && t.dr == 0x1241) = true := by decide

/-- T31. -/
theorem test_outb_unanswered : after ((ram [0x50, 0x83, 0x01, 0x00]).setReg 5 0x1241)
    (fun t => decide (t.iod.out = []) && decide (t.bus = busOf 0x0001 0x1241 false false false)) = true := by decide

/-- T35. -/
theorem test_tsti : after ({ (ram [0x00, 0x84, 0x01, 0x00]).latchKey 0x41 with flags := zncv false true true true })
    (fun t => decide (t.flags = zncv true true true true) && t.iod.key == 0x41 && t.ar == 2 && t.dr == 1) = true := by decide

/-- T37. -/
theorem test_tsti_port0 : after ({ (ram [0x00, 0x84, 0x00, 0x00]).latchKey 0x41 with flags := zncv true false false false })
    (fun t => decide (t.flags = zncv false false false false)) = true := by decide

/-- T38. -/
theorem test_tsto : after (ram [0x00, 0x85, 0x00, 0x00])
    (fun t => decide (t.flags = zncv true false false false)) = true := by decide

/-- T39. -/
theorem test_tsto_port1 : after ({ ram [0x00, 0x85, 0x01, 0x00] with flags := zncv true false false false })
    (fun t => decide (t.flags = zncv false false false false)) = true := by decide

/-- T100. -/
theorem test_br : after (ram [0x00, 0xC0, 0x10, 0x00])
    (fun t => t.pc == 0x0010 && decide (t.flags = zncv false false false false) && t.sp == 0x001E) = true := by decide

/-- T101. -/
theorem test_jmp : after (ram [0xFE, 0xC1])
    (fun t => t.pc == 0) = true := by decide

/-- T103. -/
theorem test_jmpz : after ({ ram [0x80, 0xC2] with flags := zncv true false false false })
    (fun t => t.pc == 0xFF82) = true := by decide

/-- T104. -/
theorem test_jmpz_not_taken : after (ram [0x04, 0xC2])
    (fun t => t.pc == 2) = true := by decide

/-- T105. -/
theorem test_jmpnz : after ({ ramAt 12 [0xFA, 0xC3] with flags := zncv false false false false })
    (fun t => t.pc == 0x0008) = true := by decide

/-- T105. -/
theorem test_jmpnz_not_taken : after ({ ramAt 12 [0xFA, 0xC3] with flags := zncv true false false false })
    (fun t => t.pc == 0x000E) = true := by decide

/-- T106. -/
theorem test_jmpn : after ({ ramAt 16 [0x04, 0xC4] with flags := zncv false true false false })
    (fun t => t.pc == 0x0016) = true := by decide

/-- T106. -/
theorem test_jmpn_not_taken : after ({ ramAt 16 [0x04, 0xC4] with flags := zncv false false false false })
    (fun t => t.pc == 0x0012) = true := by decide

/-- T107. -/
theorem test_jmpnn : after ({ ramAt 16 [0x04, 0xC5] with flags := zncv false false false false })
    (fun t => t.pc == 0x0016) = true := by decide

/-- T107. -/
theorem test_jmpnn_not_taken : after ({ ramAt 16 [0x04, 0xC5] with flags := zncv false true false false })
    (fun t => t.pc == 0x0012) = true := by decide

/-- T108. -/
theorem test_jmpc : after ({ ramAt 16 [0x02, 0xC6] with flags := zncv false false true false })
    (fun t => t.pc == 0x0014) = true := by decide

/-- T108. -/
theorem test_jmpc_not_taken : after ({ ramAt 16 [0x02, 0xC6] with flags := zncv false false false false })
    (fun t => t.pc == 0x0012) = true := by decide

/-- T109. -/
theorem test_jmpv : after ({ ramAt 10 [0x02, 0xC7] with flags := zncv false false false true })
    (fun t => t.pc == 0x000E) = true := by decide

/-- T109. -/
theorem test_jmpv_not_taken : after ({ ramAt 10 [0x02, 0xC7] with flags := zncv false false false false })
    (fun t => t.pc == 0x000C) = true := by decide

/-- T111. -/
theorem test_call : after (ram [0x00, 0xC8, 0x10, 0x00])
    (fun t => t.pc == 0x0010 && t.sp == 0x001C && t.peek 0x1C == 0x04 && t.peek 0x1D == 0x00 && decide (t.bus = busOf 0x001C 0x0004 false true true)) = true := by decide

/-- T111. -/
theorem test_ret : after ({ (ramAt 16 [0x00, 0xC9]).poke 0x1C 0x04 with sp := 0x001C })
    (fun t => t.pc == 4 && t.sp == 0x001E && decide (t.bus = busOf 0x001C 0x0004 true true true)) = true := by decide

/-- T112. -/
theorem test_ret_outside : after ({ ram [0x00, 0xC9] with sp := 0x0100 })
    (fun t => t.pc == 0 && t.sp == 0x0102) = true := by decide

/-- T113, T114. -/
theorem test_hlt : after (ram [0xAB, 0xCF])
    (fun t => decide (t.phaseNow = .IE) && decide (t.phaseNext = .HALTED) && t.pc == 2) = true := by decide

/-- T113. -/
theorem test_hlt_stays : after ({ ram [0x00, 0xCF] with phaseNow := .IE, phaseNext := .HALTED })
    (fun t => decide (t = { ram [0x00, 0xCF] with phaseNow := .HALTED, phaseNext := .HALTED })) = true := by decide

/-- S10. -/
theorem test_illegal : after (ram [0x00, 0x0F])
    (fun t => decide (t.phaseNow = .IE) && decide (t.phaseNext = .FAULT) && t.pc == 2 && decide (t.bus = busOf 0x0000 0x0000 false false false) && decide (t.mnemonic = none)) = true := by decide

/-- T41. -/
theorem test_illegal_with_operand_fetch : after (ram [0x00, 0x1F, 0x34, 0x12])
    (fun t => decide (t.phaseNext = .FAULT) && t.pc == 4 && decide (t.bus = busOf 0x0002 0x1234 true true true)) = true := by decide

/-- T45. -/
theorem test_fetch_outside : after ({ ram [] with pc := 0x20, bus := busOf 2 7 true true true })
    (fun t => t.ir == 7 && t.pc == 0x22 && decide (t.phaseNext = .FAULT)) = true := by decide

/-- T46. -/
theorem test_ldwr_straddles : after (((ram [0x01, 0x30]).poke 0x1F 0xAB).setReg 1 0x001F)
    (fun t => t.reg 0 == 0x00AB) = true := by decide

/-- P5: a key that the host applies during an INB, before its IE, is the one it reads. -/
theorem test_step_takes_a_key : after ({ ram [0x00, 0x81, 0x01, 0x00] with keyInputs := [none, some 0x41, none, none, none] })
    (fun t => t.reg 0 == 0x0041 && t.iod.key == 0 && decide (t.keyInputs = [none])) = true := by decide

/-- R57: under STRADDLE_POLICY = fault T47 has no step. -/
theorem test_straddle_fault : step (strict (((ram [0x01, 0x32]).setReg 0 0xCDAB).setReg 1 0x001F)) =
    .fault (.straddlingWord 0x001F) := by rfl

/-- S6: `MemWrite(0x0011, 2, 0x1234)`, an odd address. -/
theorem test_word_at_an_odd_address : (match memWrite 0x0011 .word 0x1234 (ram []) with
    | .next t => t.peek 0x11 == 0x34 && t.peek 0x12 == 0x12 && t.peek 0x10 == 0 && t.peek 0x13 == 0
    | .fault _ => false
    | .refused _ => false) = true := by decide

/-- S1: the ALU's own interface, index 15 and index 16. -/
theorem test_alu_load : (((ram []).aluLoad 15 0x1234).aluGet 15 = some 0x1234 ∧
    (ram []).aluLoad 16 0x1234 = ram [] ∧ (ram []).aluGet 16 = none) := by decide

/-- S5. -/
theorem test_twos : twos 0x0000 = 0x0000 ∧ twos 0x8000 = 0x8000 ∧ twos 0x7FFF = 0x8001 ∧ twos 0x1234 = 0xEDCC := by decide

/-- S11: 21 characters, then a newline. -/
theorem test_monitor_wraps : monitorLines ((List.range 21).map fun k => BitVec.ofNat 8 (65 + k)) =
    { l0 := [], l1 := [], l2 := (List.range 20).map fun k => BitVec.ofNat 8 (65 + k), l3 := [0x55] } := by decide

/-- R203: a carriage return pads the bottom line with spaces. -/
theorem test_monitor_return : (monitorLines [0x41, 0x0D]).l3 = 0x41 :: List.replicate 19 0x20 := by decide

/-- D25: a phase called out of turn is refused. -/
theorem test_phase_out_of_turn : host (.phase .IE) (ram []) = .refused (.phaseOutOfTurn .IE .IF) := by rfl

/-- The instruction that withFetchWord places is the one the next step runs, at the last RAM bytes too. -/
theorem test_withFetchWord : after (State.reset.withFetchWord 32 0x12341000) (fun t => t.reg 0 == 0x1234) = true := by
  decide

theorem test_withFetchWord_no_room : after ({ ram [] with pc := 0x1E }.withFetchWord 16 0x4800)
    (fun t => t.reg 0 == 1 && t.pc == 2) = true := by decide

/-! Witnesses: inputs that meet the hypotheses of each obligation that has some, clause by clause, at the bounds of the
ranges they name. -/

/-- A word access under the default policy. -/
theorem wordAccessOk_default (s : State) (a : Word) (h : s.cfg.straddlePolicy = .bytewise) : s.wordAccessOk a := .inl h

/-- `s` with a bus, a due phase or an instruction register. -/
def onBus (s : State) (a d : Word) (r m w : Bool) : State := { s with bus := busOf a d r m w }

def due (p : Phase) (ir : Word) (s : State) : State := { s with phaseNext := p, ir := ir }

theorem witness_DecodingTheEncodingGivesTheInstructionBack : WellFormed (.jmp 127) ∧ WellFormed (.jmpv (-128)) ∧
    WellFormed (.ldwi 15 0xFFFF) := by decide

theorem witness_EncodingADecodedWordClearsOnlyIgnoredBits : decodeWords 0x420F 0 = .ok (.not 0) := by rfl

theorem witness_IllegalTriplesAreThoseOutsideTheCatalog : decodeWords 0x0F00 0 = .error (.illegalTriple 0x0F) ∧
    decodeWords 0xFFFF 0 = .error (.illegalTriple 0xFF) := ⟨rfl, rfl⟩

theorem witness_ExtensionWordExactlyWhenNeedsOfAndModeNotThree : decodeWords 0x2200 7 = .ok (.stwa 0 7) ∧
    decodeWords 0x3002 7 = .ok (.ldwr 0 2) ∧ decodeWords 0x3212 7 = .ok (.stwr 1 2) := ⟨rfl, rfl, rfl⟩

theorem witness_ResetLeavesTheTabledValues : ramSizeOk 2 = true ∧ ramSizeOk 65536 = true ∧ ramSizeOk 1 = false ∧
    ramSizeOk 65537 = false := by decide

/-- A reset configuration that starts at `a`. -/
def startAt (a : Word) : ResetConfig := { ramSize := 32, startAddress := a, image := [1], config := defaultConfig }

theorem witness_FirstTickAfterResetFetchesAtStartAddress : (State.resetWith (startAt 0x1E)).wordAccessOk 0x1E ∧
    (State.resetWith (startAt 0x20)).wordAccessOk 0x20 := ⟨.inl rfl, .inl rfl⟩

theorem witness_HostOperationsHaveTheirEffects : ramSizeOk (startAt 0).ramSize = true ∧ Phase.IE ≠ (ram []).phaseNext ∧
    (let s : State := { ram [] with keyInputs := [some 0x41, none] }
     s.keyInputs = some 0x41 :: [none]) ∧
    (let s : State := { ram [] with keyInputs := [none, some 0x41] }
     s.keyInputs = none :: [some 0x41]) ∧ (ram []).keyInputs = [] := by
  decide

theorem witness_ExactlyOneSlaveLooksAtATransaction : (onBus (ram []) 0x1F 0 true true true).bus.msel = true ∧
    (onBus (ram []) 1 0 true false false).bus.msel = false := by decide

theorem witness_MemoryAnswersAReadInRange :
    let s := onBus (ram []) 0x1E 0 true true true
    let u := onBus (ram []) 0x1F 0 true true true
    (s.bus.msel = true ∧ s.bus.read = true ∧ s.bus.address.toNat + 1 < s.ramSize ∧ s.wordAccessOk s.bus.address) ∧
    (u.bus.msel = true ∧ u.bus.read = true ∧ u.bus.address.toNat < u.ramSize ∧ u.wordAccessOk u.bus.address) :=
  ⟨⟨rfl, rfl, by decide, .inl rfl⟩, rfl, rfl, by decide, .inl rfl⟩

theorem witness_MemoryTakesAWriteInRange :
    let s := onBus (ram []) 0x1E 0xABCD false true true
    let u := onBus (strict (ram [])) 0x1F 0xABCD false true false
    (s.bus.msel = true ∧ s.bus.read = false ∧ s.bus.address.toNat + 1 < s.ramSize ∧ s.wordAccessOk s.bus.address) ∧
    (u.bus.msel = true ∧ u.bus.read = false ∧ u.bus.address.toNat < u.ramSize ∧ u.bus.word = false) :=
  ⟨⟨rfl, rfl, by decide, .inl rfl⟩, rfl, rfl, by decide, rfl⟩

theorem witness_MemoryIgnoresAddressesOutsideRam :
    let s := onBus (ram []) 0x20 0x5A5A true true true
    s.bus.msel = true ∧ s.ramSize ≤ s.bus.address.toNat ∧ s.ramSize ≤ (0xFFFF : Word).toNat := by decide

theorem witness_StraddlingWordFollowsTheStraddlePolicy :
    let s := onBus (ram []) 0x1F 0 true true true
    let u := onBus (ram []) 0x1F 0 false true true
    (s.bus.msel = true ∧ s.bus.word = true ∧ s.bus.address.toNat + 1 = s.ramSize ∧ s.cfg.straddlePolicy = .bytewise ∧
      s.bus.read = true) ∧
    (u.cfg.straddlePolicy = .bytewise ∧ u.bus.read = false) ∧ (strict s).cfg.straddlePolicy = .fault := by decide

theorem witness_IodAnswersPortOneReadsAndPortZeroWritesOnly :
    (onBus (ram []) 1 0 true false false).bus = busOf 1 0 true false false ∧
    (onBus (ram []) 0 0 false false true).bus = busOf 0 0 false false true ∧
    (let s := onBus (ram []) 0 0 true false false
     s.bus.msel = false ∧ ¬ (s.bus.read = true ∧ s.bus.address = 1) ∧ ¬ (s.bus.read = false ∧ s.bus.address = 0)) ∧
    (let s := onBus (ram []) 1 0 false false false
     s.bus.msel = false ∧ ¬ (s.bus.read = true ∧ s.bus.address = 1) ∧ ¬ (s.bus.read = false ∧ s.bus.address = 0)) := by
  decide

theorem witness_WordWrittenReadsBackLittleEndian : ((0x1E : Word).toNat + 1 < (ram []).ramSize ∧
    ∃ t, memWrite 0x1E .word 0xBEEF (ram []) = .next t) ∧ (ramAt 28 []).roomAtPc = true := ⟨⟨by decide, _, rfl⟩, by decide⟩

theorem witness_FetchTickLoadsTheInstructionRegister :
    ((ramAt 0x1E []).phaseNext = .IF ∧ (ramAt 0x1E []).wordAccessOk 0x1E ∧
      (ramAt 0x1E []).pc.toNat + 1 < (ramAt 0x1E []).ramSize) ∧
    ((ramAt 0x1F []).phaseNext = .IF ∧ (ramAt 0x1F []).wordAccessOk 0x1F ∧
      (ramAt 0x1F []).pc.toNat + 1 = (ramAt 0x1F []).ramSize) ∧
    ((ramAt 0x20 []).phaseNext = .IF ∧ (ramAt 0x20 []).wordAccessOk 0x20 ∧
      (ramAt 0x20 []).ramSize ≤ (ramAt 0x20 []).pc.toNat) :=
  ⟨⟨rfl, .inl rfl, by decide⟩, ⟨rfl, .inl rfl, by decide⟩, rfl, .inl rfl, by decide⟩

theorem witness_DecodeTickClearsTheBusAndChoosesTheNextPhase :
    (due .ID 0x3212 (ram [])).phaseNext = .ID ∧ needsOf 0x3212 = false ∧ needsOf 0x3312 = false ∧ needsOf 0x3002 = true ∧
    needsOf 0x8300 = true ∧ needsOf 0xC000 = true ∧ needsOf 0xC800 = true ∧ needsOf 0x3400 = true := by decide

theorem witness_OperandTickReadsTheFollowingWord :
    let s := due .OF 0x8300 (ramAt 0x20 [])
    (s.phaseNext = .OF ∧ modeOf s.ir = 0 ∧ s.wordAccessOk s.pc ∧ s.ramSize ≤ s.pc.toNat) ∧
    modeOf (due .OF 0x1000 (ram [])).ir = 1 := ⟨⟨rfl, by decide, .inl rfl, by decide⟩, by decide⟩

/-- LDWA and LDBA with the address word 0x1E, in RAM, and 0x20, outside; and STWA. -/
theorem witness_OperandTickReadsThroughTheAbsoluteAddress :
    let s := due .OF 0x2000 (ram [0x1E])
    let u := due .OF 0x2100 (ram [0x20])
    let v := due .OF 0x2200 (ram [0x20])
    (s.phaseNext = .OF ∧ modeOf s.ir = 2 ∧ s.wordAccessOk s.pc ∧ s.ir.extractLsb' 8 8 = 0x20 ∧
      s.wordAccessOk (s.memAnswer s.pc true) ∧ (s.memAnswer s.pc true).toNat < s.ramSize) ∧
    (u.phaseNext = .OF ∧ modeOf u.ir = 2 ∧ u.wordAccessOk u.pc ∧ u.ir.extractLsb' 8 8 = 0x21 ∧
      u.ramSize ≤ (u.memAnswer u.pc true).toNat) ∧
    (v.phaseNext = .OF ∧ modeOf v.ir = 2 ∧ v.wordAccessOk v.pc ∧ v.ir.extractLsb' 8 8 ≠ 0x20 ∧
      v.ir.extractLsb' 8 8 ≠ 0x21) :=
  ⟨⟨rfl, by decide, .inl rfl, by decide, .inl rfl, by decide⟩,
    ⟨rfl, by decide, .inl rfl, by decide, by decide⟩, rfl, by decide, .inl rfl, by decide, by decide⟩

/-- LDBR at 0x1F, the last byte, and at 0x20, outside; LDWR at 0x1E; the illegal 0x3402 at 0x20. -/
theorem witness_OperandTickReadsAtTheRegisterAddress :
    let s := due .OF 0x3102 ((strict (ram [])).setReg 2 0x1F)
    let u := due .OF 0x3002 ((ram []).setReg 2 0x1E)
    let v := due .OF 0x3402 ((ram []).setReg 2 0x20)
    let w := due .OF 0x3102 ((ram []).setReg 2 0x20)
    (s.phaseNext = .OF ∧ modeOf s.ir = 3 ∧ s.ir.extractLsb' 8 8 = 0x31 ∧ (s.reg (rbOf s.ir)).toNat < s.ramSize) ∧
    (u.phaseNext = .OF ∧ modeOf u.ir = 3 ∧ u.ir.extractLsb' 8 8 ≠ 0x31 ∧ u.wordAccessOk (u.reg (rbOf u.ir)) ∧
      (u.reg (rbOf u.ir)).toNat < u.ramSize) ∧
    (v.phaseNext = .OF ∧ modeOf v.ir = 3 ∧ v.ir.extractLsb' 8 8 ≠ 0x31 ∧ v.wordAccessOk (v.reg (rbOf v.ir)) ∧
      v.ramSize ≤ (v.reg (rbOf v.ir)).toNat) ∧
    (w.phaseNext = .OF ∧ modeOf w.ir = 3 ∧ w.ir.extractLsb' 8 8 = 0x31 ∧ w.ramSize ≤ (w.reg (rbOf w.ir)).toNat) :=
  ⟨⟨rfl, by decide, by decide, by decide⟩, ⟨rfl, by decide, by decide, .inl rfl, by decide⟩,
    ⟨rfl, by decide, by decide, .inl rfl, by decide⟩, rfl, by decide, by decide, by decide⟩

/-- 0x0F00 makes no operand fetch, 0x1F00 takes the following word, 0x3402 reads at its register. -/
theorem witness_IllegalInstructionFaultsAndChangesNothingElse :
    ((due .IE 0x0F00 (ram [])).phaseNext = .IE ∧ ∀ o : Op, (0x0F00 : Word).extractLsb' 8 8 ≠ o.hi) ∧
    (let s := ram [0x00, 0x0F]
     s.phaseNext = .IF ∧ s.fetchOk ∧ (∀ o : Op, s.fetchedWord.extractLsb' 8 8 ≠ o.hi) ∧ needsOf s.fetchedWord = false ∧
       ¬ s.takesFollowingWord ∧ ∃ u, toExecute s = .next u) ∧
    (let s := ram [0x00, 0x1F, 0x34, 0x12]
     s.phaseNext = .IF ∧ s.fetchOk ∧ (∀ o : Op, s.fetchedWord.extractLsb' 8 8 ≠ o.hi) ∧ s.takesFollowingWord) ∧
    (let s := ram [0x02, 0x34]
     s.phaseNext = .IF ∧ s.fetchOk ∧ (∀ o : Op, s.fetchedWord.extractLsb' 8 8 ≠ o.hi) ∧ needsOf s.fetchedWord = true ∧
       modeOf s.fetchedWord = 3) :=
  ⟨⟨rfl, fun o => by cases o <;> decide⟩,
    ⟨rfl, .inl rfl, fun o => by cases o <;> decide, by decide, fun h => absurd h.1 (by decide), _, rfl⟩,
    ⟨rfl, .inl rfl, fun o => by cases o <;> decide, by decide, by decide⟩,
    rfl, .inl rfl, fun o => by cases o <;> decide, by decide, by decide⟩

theorem witness_StoppedMachineStaysStoppedUntilReset :
    (due .HALTED 0xCF00 (ram [])).stopped = true ∧ (due .FAULT 0x0F00 (ram [])).stopped = true ∧
    (∀ op ∈ [HostOp.tick, .input 0x41, .phase .HALTED], isReset op = false) ∧
    ∃ t, hostRun [.tick, .input 0x41, .phase .HALTED] (due .HALTED 0xCF00 (ram [])) = .next t :=
  ⟨by decide, by decide, by decide, _, rfl⟩

/-- An instruction in the last four bytes of RAM, and one outside RAM made of stale data. -/
theorem witness_StepRunsTheDecodedInstruction :
    (let s := ramAt 28 [0x00, 0x10, 0x34, 0x12]
     s.phaseNext = .IF ∧ s.roomAtPc = true ∧ decodeWords s.fetchedWord s.followingWord = .ok (.ldwi 0 0x1234) ∧
       decodeBytes [s.peek s.pc.toNat, s.peek (s.pc.toNat + 1), s.peek (s.pc.toNat + 2), s.peek (s.pc.toNat + 3)] =
         .ok (.ldwi 0 0x1234, [])) ∧
    (let s := onBus (ramAt 0x20 []) 0 0x1000 true true true
     s.phaseNext = .IF ∧ decodeWords s.fetchedWord s.followingWord = .ok (.ldwi 0 0)) :=
  ⟨⟨rfl, by decide, by rfl, by rfl⟩, rfl, by rfl⟩

/-- The fetch is fine under STRADDLE_POLICY = fault where no read is at the last byte, and every kind of operand occurs. -/
theorem witness_OperandFetchDeliversTheOperand :
    (let s := strict (ramAt 28 [0x50, 0x20, 0x1E, 0x00])
     s.phaseNext = .IF ∧ s.fetchOk ∧ s.takesFollowingWord ∧ isOp .ldwa s.fetchedWord = true ∧
       s.followingWord.toNat < s.ramSize ∧ s.keyInputs = []) ∧
    (ram [0x12, 0x04]).fetchOk ∧ needsOf (ram [0x12, 0x04]).fetchedWord = false ∧
    (needsOf 0x8300 = true ∧ modeOf 0x8300 = 0) ∧ (needsOf 0x1000 = true ∧ modeOf 0x1000 = 1) ∧
    isOp .ldba 0x2100 = true ∧
    (modeOf 0x2200 = 2 ∧ isOp .ldwa 0x2200 = false ∧ isOp .ldba 0x2200 = false) ∧ isOp .ldbr 0x3102 = true ∧
    (needsOf 0x3002 = true ∧ modeOf 0x3002 = 3 ∧ isOp .ldbr 0x3002 = false) :=
  ⟨⟨rfl, .inr ⟨by decide, fun _ => by decide, fun _ => by decide, fun _ h => absurd h (by decide)⟩,
      ⟨by decide, by decide⟩, by decide, by decide, rfl⟩,
    .inl rfl, by decide, by decide, by decide, by decide, by decide, by decide, by decide⟩

theorem witness_InstructionTakesThreeOrFourTicks :
    ((ram [0x12, 0x04]).phaseNext = .IF ∧ needsOf (ram [0x12, 0x04]).fetchedWord = false ∧
      ∃ t, step (ram [0x12, 0x04]) = .next t) ∧
    ((ram [0x00, 0x10]).phaseNext = .IF ∧ needsOf (ram [0x00, 0x10]).fetchedWord = true ∧
      ∃ t, step (ram [0x00, 0x10]) = .next t) :=
  ⟨⟨rfl, by decide, _, rfl⟩, rfl, by decide, _, rfl⟩

/-- The reset state has the invariant and takes a step. -/
theorem inv_ram : (ram []).Inv :=
  ⟨⟨by decide, by decide, by decide⟩, by decide, fun h => absurd h (by decide), fun h => absurd h (by decide),
    fun h => absurd h (by decide), fun h => absurd h (by decide)⟩

theorem witness_StepKeepsTheInvariant : (ram []).Inv ∧ ∃ t, step (ram []) = .next t := ⟨inv_ram, _, rfl⟩

/-- A state between ID and IE has it too. -/
theorem inv_after_decode : State.Inv { due .IE 0x0412 (ram []) with phaseNow := .ID } :=
  ⟨⟨by decide, by decide, by decide⟩, by decide, fun _ => ⟨by decide, by decide⟩, fun h => absurd h (by decide),
    fun h => absurd h (by decide), fun h => absurd h (by decide)⟩

theorem witness_ResetHasTheInvariant : ramSizeOk 2 = true ∧ ramSizeOk 65536 = true := by decide

theorem witness_HostRunKeepsTheInvariant : (ram []).Inv ∧
    ∃ t, hostRun [.input 0x41, .tick, .phase .ID, .reset (startAt 0)] (ram []) = .next t := ⟨inv_ram, _, rfl⟩

theorem witness_EveryTickIsEnabledInEveryState : (ram []).cfg.straddlePolicy = .bytewise := by decide

theorem witness_OnlyAStraddlingWordStopsAStep :
    ∃ f, step (strict (((ram [0x01, 0x32]).setReg 0 0xCDAB).setReg 1 0x001F)) = .fault f :=
  ⟨_, test_straddle_fault⟩

theorem witness_StepEndsBetweenInstructions :
    ((ram [0x12, 0x04]).stopped = false ∧ ∃ t, step (ram [0x12, 0x04]) = .next t) ∧
    (∃ t, step (due .OF 0x1000 (ram [])) = .next t) ∧
    ((due .HALTED 0xCF00 (ram [])).stopped = true ∧ ∃ t, step (due .HALTED 0xCF00 (ram [])) = .next t) :=
  ⟨⟨rfl, _, rfl⟩, ⟨_, rfl⟩, rfl, _, rfl⟩

theorem witness_HaltedByHltAloneAndFaultedByIllegalTriplesAlone :
    ((ram [0xAB, 0xCF]).phaseNext = .IF ∧ ∃ t, step (ram [0xAB, 0xCF]) = .next t) ∧
    ((ram [0x00, 0x0F]).phaseNext = .IF ∧ ∃ t, step (ram [0x00, 0x0F]) = .next t) :=
  ⟨⟨rfl, _, rfl⟩, rfl, _, rfl⟩

theorem witness_OnlyTheNamedInstructionsWriteFlags :
    (∃ t, exec (.mv 1 2) (ram []) = .next t) ∧ (∃ t, exec (.tsti 1) (ram []) = .next t) ∧
    isAlu (Instr.mv 1 2).op = false ∧ isLoad (Instr.mv 1 2).op = false ∧ isAlu (Instr.tsti 1).op = false ∧
    isLoad (Instr.tsti 1).op = false := ⟨⟨_, rfl⟩, ⟨_, rfl⟩, by decide, by decide, by decide, by decide⟩

theorem witness_OnlyTheNamedInstructionsWriteEachPieceOfState :
    (∃ t, exec (.add 1 2) (ram []) = .next t) ∧ isControl (Instr.add 1 2).op = false ∧
    isStore (Instr.add 1 2).op = false ∧ (Instr.add 1 2).op ∉ [Op.push, .pop, .call, .ret, .spwr] :=
  ⟨⟨_, rfl⟩, by decide, by decide, by decide⟩

theorem witness_DisplayRegistersAffectNothing :
    SameButDisplay (ram []) { ram [] with ar := 7, dr := 8, phaseNow := .FAULT } := rfl

theorem witness_KeyBeforeOrAfterAPhaseBeforeExecuteIsTheSame : (ram []).phaseNext ≠ .IE ∧
    (due .OF 0x1000 (ram [])).phaseNext ≠ .IE ∧ (due .FAULT 0 (ram [])).phaseNext ≠ .IE := by decide

theorem witness_OutputOnlyGrowsAndOnlyByOutb : (ram [0x50, 0x83]).phaseNext = .IF ∧
    ∃ t, step (ram [0x50, 0x83]) = .next t ∧ t.iod.out ≠ (ram [0x50, 0x83]).iod.out := ⟨rfl, _, rfl, by decide⟩

theorem witness_LoadStepsDeliverTheWordInMemory :
    (let s := (ram [0x02, 0x30]).setReg 2 0x1E
     s.phaseNext = .IF ∧ s.fetchOk ∧ decodeWords s.fetchedWord s.followingWord = .ok (.ldwr 0 2) ∧
       (s.reg 2).toNat + 1 < s.ramSize) ∧
    (let s := ram [0x50, 0x20, 0x1E, 0x00]
     s.phaseNext = .IF ∧ s.fetchOk ∧ decodeWords s.fetchedWord s.followingWord = .ok (.ldwa 5 0x1E) ∧
       (0x1E : Word).toNat + 1 < s.ramSize) :=
  ⟨⟨rfl, .inl rfl, by rfl, by decide⟩, rfl, .inl rfl, by rfl, by decide⟩

/-- `s` under the other STACK_ORDER. -/
def postdec (s : State) : State := { s with cfg := { s.cfg with stackOrder := .postdecPreinc } }

/-- With sp = 0x21 the push is at 0x1F, the last byte; without STRADDLE_POLICY = fault it has a step. -/
theorem witness_PushStoresTheRegisterOnTheStack :
    (ram []).cfg.stackOrder = .predecPostinc ∧ (postdec (ram [])).cfg.stackOrder = .postdecPreinc ∧
    ({ ram [] with sp := 0x21 } : State).wordAccessOk 0x1F ∧
    ¬ (strict { ram [] with sp := 0x21 }).wordAccessOk (strict { ram [] with sp := 0x21 }).pushAddress :=
  ⟨by decide, by decide, .inl rfl, fun h => h.elim (by decide) (by decide)⟩

/-- Pops at 0x1E in RAM, at 0x20 outside, and at 0x1F with no step. -/
theorem witness_PopLoadsTheRegisterFromTheStack :
    (ram []).cfg.stackOrder = .predecPostinc ∧ (postdec (ram [])).cfg.stackOrder = .postdecPreinc ∧
    ((ram []).wordAccessOk (ram []).popAddress ∧ (ram []).popAddress.toNat + 1 < (ram []).ramSize) ∧
    (let s : State := { ram [] with sp := 0x20 }
     s.wordAccessOk s.popAddress ∧ s.ramSize ≤ s.popAddress.toNat) ∧
    ¬ (strict { ram [] with sp := 0x1F }).wordAccessOk (strict { ram [] with sp := 0x1F }).popAddress :=
  ⟨by decide, by decide, ⟨.inl rfl, by decide⟩, ⟨.inl rfl, by decide⟩, fun h => h.elim (by decide) (by decide)⟩

theorem witness_PopUndoesPushAndRetUndoesCall : let s : State := { ram [] with sp := 0x20 }
    s.pushAddress.toNat + 1 < s.ramSize ∧ (∃ t, exec (.push 0) s = .next t) ∧ ∃ t, exec (.call 0x10) s = .next t :=
  ⟨by decide, ⟨_, rfl⟩, _, rfl⟩

theorem witness_StoresStoreAtTheirAddress : ((ram []).wordAccessOk 0x1F ∧ (strict (ram [])).wordAccessOk 0x1E ∧
    ¬ (strict (ram [])).wordAccessOk 0x1F) ∧
    (let s := (ram []).setReg 2 0x1F
     s.wordAccessOk (s.reg 2) ∧ ¬ (strict s).wordAccessOk ((strict s).reg 2)) :=
  ⟨⟨.inl rfl, .inr (by decide), fun h => h.elim (by decide) (by decide)⟩,
    .inl rfl, fun h => h.elim (by decide) (by decide)⟩

theorem witness_SubWritesTheDifferenceAndItsFlags : (ram []).cfg.subVRule = .trueSigned ∧
    ({ ram [] with cfg := { defaultConfig with subVRule := .twosAddition } } : State).cfg.subVRule = .twosAddition := by
  decide

theorem witness_CallPushesTheReturnAddressAndBranches : (ram []).wordAccessOk (ram []).pushAddress ∧
    ¬ (strict { ram [] with sp := 0x21 }).wordAccessOk (strict { ram [] with sp := 0x21 }).pushAddress :=
  ⟨.inl rfl, fun h => h.elim (by decide) (by decide)⟩

theorem witness_RetPopsTheProgramCounter :
    ((ram []).wordAccessOk (ram []).popAddress ∧ (ram []).popAddress.toNat + 1 < (ram []).ramSize) ∧
    (let s : State := { ram [] with sp := 0x20 }
     s.wordAccessOk s.popAddress ∧ s.ramSize ≤ s.popAddress.toNat) ∧
    ¬ (strict { ram [] with sp := 0x1F }).wordAccessOk (strict { ram [] with sp := 0x1F }).popAddress :=
  ⟨⟨.inl rfl, by decide⟩, ⟨.inl rfl, by decide⟩, fun h => h.elim (by decide) (by decide)⟩

/-- JMP -12 at 0x000E, JMPZ 127 and JMPNZ -128. -/
theorem witness_RelativeOffsetIsTheSignExtendedLowByte :
    decodeWords 0xC1F4 0 = .ok (.jmp (-12)) ∧ 0 ≤ ((ramAt 0x10 []).pc.toNat : Int) + (-12) ∧
    ((ramAt 0x10 []).pc.toNat : Int) + (-12) < 65536 ∧ decodeWords 0xC27F 0 = .ok (.jmpz 127) ∧
    decodeWords 0xC380 0 = .ok (.jmpnz (-128)) ∧ (!(ram []).flags.z) = true :=
  ⟨rfl, by decide, by decide, rfl, rfl, by decide⟩

/-- A bottom line of no, nineteen and twenty characters. -/
theorem witness_MonitorLinesStayWithinTwentyColumns : (0x41 : Byte) ≠ 0x0A ∧ (0x41 : Byte) ≠ 0x0D ∧
    (monitorLines []).l3.length < 20 ∧ (monitorLines (List.replicate 19 0x41)).l3.length < 20 ∧
    (monitorLines (List.replicate 20 0x41)).l3.length = 20 := by decide

end Sys2Proof.Tests
end

/-! # The invariant is kept by every step (O26)

What an arm of IE leaves is said once for all forty instructions (`exec_endsIn`); the invariant is then kept by each tick
(`tick_keeps_inv`), and so by the ticks of one instruction (`runPhases_keeps`). -/

namespace Sys2Proof.Machine

/-! RAM well formed -/

/-- `memInv` is read through `mem` and `ramSize` alone. -/
theorem memInv_congr {s t : State} (hm : t.mem = s.mem) (hr : t.ramSize = s.ramSize) (h : s.memInv) : t.memInv := by
  simpa only [State.memInv, hm, hr] using h

/-! What the operations of an arm keep -/

/-- From `s` to `t`: what no arm of IE changes is unchanged, and RAM stays well formed. -/
def KeepsMachine (s t : State) : Prop := SameMachine s t ∧ (s.memInv → t.memInv)

theorem KeepsMachine.of_mem_eq {s t : State} (h : SameMachine s t) (hm : t.mem = s.mem) : KeepsMachine s t :=
  ⟨h, memInv_congr hm h.2.1⟩

theorem KeepsMachine.trans {s t u : State} (h : KeepsMachine s t) (h' : KeepsMachine t u) : KeepsMachine s u := by
  obtain ⟨⟨hc, hr, hi, hp, hk⟩, hm⟩ := h
  obtain ⟨⟨hc', hr', hi', hp', hk'⟩, hm'⟩ := h'
  exact ⟨⟨hc'.trans hc, hr'.trans hr, hi'.trans hi, hp'.trans hp, hk'.trans hk⟩, fun h => hm' (hm h)⟩

theorem afterRead_keepsMachine (a : Word) (n : Width) (s : State) : KeepsMachine s (afterRead a n s) :=
  .of_mem_eq ⟨rfl, rfl, rfl, rfl, rfl⟩ rfl

theorem afterWrite_keepsMachine (a : Word) (n : Width) (v : Word) (s : State) :
    KeepsMachine s (afterWrite a n v s) :=
  ⟨(afterWrite_frame a n v s).1, afterWrite_memInv a n v s⟩

theorem memWrite_keepsMachine {a : Word} {n : Width} {v : Word} {s t : State} (h : memWrite a n v s = .next t) :
    KeepsMachine s t := by
  rcases memWrite_cases a n v s with ⟨-, e⟩ | ⟨-, -, -, e⟩ <;> rw [e] at h <;> cases h
  exact afterWrite_keepsMachine a n v s

theorem setSp_keepsMachine (s : State) (v : Word) : KeepsMachine s { s with sp := v } :=
  .of_mem_eq ⟨rfl, rfl, rfl, rfl, rfl⟩ rfl

theorem pushWord_keepsMachine {v : Word} {s t : State} (h : pushWord v s = .next t) : KeepsMachine s t :=
  (setSp_keepsMachine s (s.sp - 2)).trans (memWrite_keepsMachine h)

theorem popWord_keepsMachine {s t : State} (h : popWord s = .next t) : KeepsMachine s t := by
  rw [memRead_eq_next h]
  exact (setSp_keepsMachine s (s.sp + 2)).trans (afterRead_keepsMachine ..)

theorem ioRead_keepsMachine {a : Word} {n : Width} {s t : State} (h : ioRead a n s = .next t) :
    KeepsMachine s t := by
  rw [ioRead_eq] at h
  cases h
  exact .of_mem_eq ⟨rfl, rfl, rfl, rfl, rfl⟩ rfl

theorem ioWrite_keepsMachine {a : Word} {n : Width} {v : Word} {s t : State} (h : ioWrite a n v s = .next t) :
    KeepsMachine s t := by
  rw [ioWrite_eq] at h
  cases h
  exact .of_mem_eq ⟨rfl, rfl, rfl, rfl, rfl⟩ rfl

/-! How an arm ends -/

/-- Where `o` is an arm's answer in `s`: if it is a next state, that keeps the machine and has `p` due. -/
def EndsIn (p : Phase) (s : State) (o : Res) : Prop := ∀ t, o = .next t → KeepsMachine s t ∧ t.phaseNext = p

theorem endsIn_next {p : Phase} {s t : State} (h : KeepsMachine s t) (hp : t.phaseNext = p) :
    EndsIn p s (.next t) := by
  intro u e
  cases e
  exact ⟨h, hp⟩

/-- An arm that updates fields which `KeepsMachine` does not read, and finishes. -/
theorem endsIn_finish {s u : State} (h : SameMachine s u) (hm : u.mem = s.mem) : EndsIn .IF s (finish u) :=
  endsIn_next (.of_mem_eq h hm) rfl

/-- An arm that makes a transaction first. -/
theorem endsIn_andThen {p : Phase} {s : State} {o : Res} {f : State → Res}
    (ho : ∀ u, o = .next u → KeepsMachine s u) (hf : ∀ u, EndsIn p u (f u)) : EndsIn p s (andThen o f) := by
  intro t h
  obtain ⟨u, hu, ht⟩ := andThen_eq_next.mp h
  obtain ⟨hk, hp⟩ := hf u t ht
  exact ⟨(ho u hu).trans hk, hp⟩

theorem finish_endsIn (s : State) : EndsIn .IF s (finish s) := endsIn_finish ⟨rfl, rfl, rfl, rfl, rfl⟩ rfl

theorem aluResult_endsIn (r : Reg) (v : Word) (f : Flags) (s : State) : EndsIn .IF s (aluResult r v f s) :=
  endsIn_finish ⟨rfl, rfl, rfl, rfl, rfl⟩ rfl

theorem loadReg_endsIn (r : Reg) (v : Word) (s : State) : EndsIn .IF s (loadReg r v s) :=
  endsIn_finish ⟨rfl, rfl, rfl, rfl, rfl⟩ rfl

theorem setReg_endsIn (r : Reg) (v : Word) (s : State) : EndsIn .IF s (finish (s.setReg r v)) :=
  endsIn_finish ⟨rfl, rfl, rfl, rfl, rfl⟩ rfl

theorem setPc_endsIn (v : Word) (s : State) : EndsIn .IF s (finish { s with pc := v }) :=
  endsIn_finish ⟨rfl, rfl, rfl, rfl, rfl⟩ rfl

theorem setZ_endsIn (b : Bool) (s : State) : EndsIn .IF s (finish (s.setZ b)) :=
  endsIn_finish ⟨rfl, rfl, rfl, rfl, rfl⟩ rfl

theorem relJump_endsIn (taken : Bool) (off : Int) (s : State) : EndsIn .IF s (relJump taken off s) := by
  cases taken
  case false => exact finish_endsIn s
  case true => exact setPc_endsIn (s.relTarget off) s

theorem store_endsIn (a : Word) (n : Width) (v : Word) (s : State) :
    EndsIn .IF s (andThen (memWrite a n v s) finish) :=
  endsIn_andThen (fun _ => memWrite_keepsMachine) finish_endsIn

/-- The phase due after an instruction (R108, R180). -/
def phaseAfter : Instr → Phase
  | .hlt => .HALTED
  | _ => .IF

theorem phaseAfter_cases (i : Instr) : phaseAfter i = .IF ∨ (phaseAfter i = .HALTED ∧ i = .hlt) := by
  unfold phaseAfter
  split
  · exact .inr ⟨rfl, rfl⟩
  · exact .inl rfl

/-- Every arm of IE, where it answers a next state, keeps the machine and has the instruction's next phase due. -/
theorem exec_endsIn (i : Instr) (s : State) : EndsIn (phaseAfter i) s (exec i s) := by
  cases i with
  | mv | sprd => exact setReg_endsIn _ _ s
  | spwr ra => exact endsIn_next (setSp_keepsMachine s (s.reg ra)) rfl
  | push => exact endsIn_andThen (fun _ => pushWord_keepsMachine) finish_endsIn
  | pop => exact endsIn_andThen (fun _ => popWord_keepsMachine) fun u => setReg_endsIn _ _ u
  | ldwi | ldbi | ldwa | ldba | ldwr | ldbr => exact loadReg_endsIn _ _ s
  | stwa | stba | stwr | stbr => exact store_endsIn _ _ _ s
  | add | sub | not | and | or | xor | inc | dec | lsh | rsh => exact aluResult_endsIn _ _ _ s
  | inb => exact endsIn_andThen (fun _ => ioRead_keepsMachine) fun u => setReg_endsIn _ _ u
  | outb => exact endsIn_andThen (fun _ => ioWrite_keepsMachine) finish_endsIn
  | tsti | tsto => exact setZ_endsIn _ s
  | br => exact setPc_endsIn _ s
  | jmp | jmpz | jmpnz | jmpn | jmpnn | jmpc | jmpv => exact relJump_endsIn _ _ s
  | call => exact endsIn_andThen (fun _ => pushWord_keepsMachine) fun u => setPc_endsIn _ u
  | ret => exact endsIn_andThen (fun _ => popWord_keepsMachine) fun u => setPc_endsIn _ u
  | hlt => exact endsIn_next (.of_mem_eq ⟨rfl, rfl, rfl, rfl, rfl⟩ rfl) rfl

/-! How IE ends -/

/-- Everything IE can leave due, and what it then says of `ir`: IF, HALTED after HLT, FAULT after an illegal triple
(R108, R109, R180). -/
theorem execute_cases {s t : State} (h : execute s = .next t) :
    KeepsMachine s t ∧
    (t.phaseNext = .IF ∨ (t.phaseNext = .HALTED ∧ opOfHi (hiByte s.ir) = some .hlt) ∨
      (t.phaseNext = .FAULT ∧ opOfHi (hiByte s.ir) = none)) := by
  cases hd : decodeWords s.ir s.opnd with
  | ok i =>
    rw [execute_of_decode hd] at h
    obtain ⟨hk, hp⟩ := exec_endsIn i s t h
    refine ⟨hk, ?_⟩
    rcases phaseAfter_cases i with hi | ⟨hi, rfl⟩
    · exact .inl (hp.trans hi)
    · exact .inr (.inl ⟨hp.trans hi, (decodeWords_eq_ok.mp hd).1⟩)
  | error e =>
    have hill : opOfHi (hiByte s.ir) = none := decodeWords_error.mp ⟨e, hd⟩
    rw [execute_of_illegal hill] at h
    cases h
    exact ⟨.of_mem_eq ⟨rfl, rfl, rfl, rfl, rfl⟩ rfl, .inr (.inr ⟨rfl, hill⟩)⟩

/-! The phase machine is coherent after each phase -/

theorem phaseInv_after_IF {t : State} (hnow : t.phaseNow = .IF) (hnext : t.phaseNext = .ID) : t.phaseInv := by
  simp [State.phaseInv, phasePair, hnow, hnext]

theorem decodePhase_phaseInv {s : State} (hnow : s.phaseNow = .ID) : (decodePhase s).phaseInv := by
  have hn : (decodePhase s).phaseNow = .ID := hnow
  have hb : (decodePhase s).bus = clearedBus := rfl
  have hi : (decodePhase s).ir = s.ir := rfl
  have hx : (decodePhase s).phaseNext = if needsOf s.ir then .OF else .IE := rfl
  cases h : needsOf s.ir <;> simp [State.phaseInv, phasePair, hn, hb, hi, hx, h]

theorem phaseInv_after_OF {t : State} (hnow : t.phaseNow = .OF) (hnext : t.phaseNext = .IE)
    (hneeds : needsOf t.ir = true) : t.phaseInv := by
  simp [State.phaseInv, phasePair, hnow, hnext, hneeds]

theorem phaseInv_after_IE {t : State} (hnow : t.phaseNow = .IE)
    (hnext : t.phaseNext = .IF ∨ (t.phaseNext = .HALTED ∧ opOfHi (hiByte t.ir) = some .hlt) ∨
      (t.phaseNext = .FAULT ∧ opOfHi (hiByte t.ir) = none)) : t.phaseInv := by
  rcases hnext with hp | ⟨hp, hi⟩ | ⟨hp, hi⟩ <;> simp [State.phaseInv, phasePair, *]

/-- A stopped machine ticks on the spot (R101). -/
theorem phaseInv_of_stopped {s : State} (hs : s.stopped = true) (h : s.phaseInv) :
    State.phaseInv { s with phaseNow := s.phaseNext } := by
  obtain ⟨-, -, -, hhlt, hflt⟩ := h
  have hp : s.phaseNext = .HALTED ∨ s.phaseNext = .FAULT := by simpa [State.stopped] using hs
  rcases hp with hp | hp
  · simp [State.phaseInv, phasePair, hp, hhlt hp]
  · simp [State.phaseInv, phasePair, hp, hflt hp]

/-- OF is due only after ID, and ID leaves it due only where `needs_of` holds (R103). -/
theorem needsOf_of_OF_due {s : State} (h : s.phaseInv) (hp : s.phaseNext = .OF) : needsOf s.ir = true := by
  obtain ⟨hpair, hid, -, -, -⟩ := h
  have hnow : s.phaseNow = .ID := by simpa [phasePair, hp] using hpair
  exact (hid hnow).2.mp hp

/-! Each tick keeps the invariant, phase by phase -/

theorem fetchTick_keeps_inv {s t : State} (h : s.Inv) (hp : s.phaseNext = .IF) (ht : tick s = .next t) : t.Inv := by
  rcases tick_IF_cases hp with ⟨-, e⟩ | ⟨-, -, e⟩ <;> rw [e] at ht <;> cases ht
  exact ⟨memInv_congr rfl rfl h.1, phaseInv_after_IF rfl rfl⟩

theorem decodeTick_keeps_inv {s t : State} (h : s.Inv) (hp : s.phaseNext = .ID) (ht : tick s = .next t) : t.Inv := by
  rw [tick_ID hp] at ht
  cases ht
  exact ⟨memInv_congr rfl rfl h.1, decodePhase_phaseInv rfl⟩

theorem operandTick_keeps_inv {s t : State} (h : s.Inv) (hp : s.phaseNext = .OF) (ht : tick s = .next t) :
    t.Inv := by
  obtain ⟨hnow, hnext, frame⟩ := tick_OF_frame hp ht
  have hir : t.ir = s.ir := (congrArg State.ir frame :)
  have hmem : t.mem = s.mem := (congrArg State.mem frame :)
  have hsize : t.ramSize = s.ramSize := (congrArg State.ramSize frame :)
  have hneeds : needsOf t.ir = true := by rw [hir]; exact needsOf_of_OF_due h.2 hp
  exact ⟨memInv_congr hmem hsize h.1, phaseInv_after_OF hnow hnext hneeds⟩

theorem executeTick_keeps_inv {s t : State} (h : s.Inv) (hp : s.phaseNext = .IE) (ht : tick s = .next t) :
    t.Inv := by
  rw [tick_IE hp] at ht
  obtain ⟨⟨⟨-, -, hir, hnow, -⟩, hmem⟩, hnext⟩ := execute_cases ht
  rw [← hir] at hnext
  exact ⟨hmem (memInv_congr rfl rfl h.1), phaseInv_after_IE hnow hnext⟩

theorem stoppedTick_keeps_inv {s t : State} (h : s.Inv) (hs : s.stopped = true) (ht : tick s = .next t) :
    t.Inv := by
  rw [tick_stopped hs] at ht
  cases ht
  exact ⟨memInv_congr rfl rfl h.1, phaseInv_of_stopped hs h.2⟩

theorem tick_keeps_inv {s t : State} (h : s.Inv) (ht : tick s = .next t) : t.Inv := by
  cases hp : s.phaseNext with
  | IF => exact fetchTick_keeps_inv h hp ht
  | ID => exact decodeTick_keeps_inv h hp ht
  | OF => exact operandTick_keeps_inv h hp ht
  | IE => exact executeTick_keeps_inv h hp ht
  | HALTED | FAULT => exact stoppedTick_keeps_inv h (by simp [State.stopped, hp]) ht

/-- The invariant reads neither the key nor the host's schedule. -/
theorem takeKey_keeps_inv {s : State} (h : s.Inv) : (takeKey s).Inv := by
  rw [takeKey_eq]
  exact h

theorem hostTick_keeps_inv {s t : State} (h : s.Inv) (ht : hostTick s = .next t) : t.Inv :=
  tick_keeps_inv (takeKey_keeps_inv h) ht

/-! The ticks of one instruction -/

/-- What every tick under the host's schedule keeps, a run of ticks keeps. -/
theorem runPhases_keeps {P : State → Prop} (hP : ∀ s t, P s → hostTick s = .next t → P t) (n : Nat) {s t : State}
    (h : P s) (ht : runPhases n s = .next t) : P t := by
  induction n generalizing s with
  | zero => cases ht; exact h
  | succ n ih =>
    rw [runPhases, andThen_eq_next] at ht
    obtain ⟨u, hu, ht⟩ := ht
    have hPu : P u := hP s u h hu
    split at ht
    · cases ht; exact hPu
    · exact ih hPu ht

/-- Settles O26: every tick keeps the invariant, and a step is a run of ticks. -/
theorem stepKeepsTheInvariant : Obligations.StepKeepsTheInvariant :=
  fun _ _ h ht => runPhases_keeps (fun _ _ => hostTick_keeps_inv) maxTicks h ht

end Sys2Proof.Machine

/-! # The display registers affect nothing (O35)

An operation is blind to `ar`, `dr` and `phase_now` where it answers alike in states that differ in them alone. Every
operation a tick is made of is blind, so every tick is. A step's run of ticks ends on the tag a tick leaves in
`phase_now`: that is the phase that was due (`tick_phaseNow`), not the tag that stood there. -/

namespace Sys2Proof.Machine

/-- `s` with other display registers (R27, R28). -/
def State.withDisplay (s : State) (a d : Word) (p : Phase) : State := { s with ar := a, dr := d, phaseNow := p }

@[simp] theorem withDisplay_ir (s : State) (a d : Word) (p : Phase) : (s.withDisplay a d p).ir = s.ir := rfl

@[simp] theorem withDisplay_ramSize (s : State) (a d : Word) (p : Phase) :
    (s.withDisplay a d p).ramSize = s.ramSize := rfl

theorem SameButDisplay.eq_withDisplay {s t : State} (h : SameButDisplay s t) :
    t = s.withDisplay t.ar t.dr t.phaseNow := by
  unfold SameButDisplay at h
  rw [← h]
  rfl

/-- `f` answers alike in states that differ in the display registers alone. -/
def BlindToDisplay (f : State → Res) : Prop :=
  ∀ (s : State) (a d : Word) (p : Phase), AlikeButDisplay (f s) (f (s.withDisplay a d p))

theorem BlindToDisplay.alike {f : State → Res} (hf : BlindToDisplay f) {s t : State} (h : SameButDisplay s t) :
    AlikeButDisplay (f s) (f t) := by
  rw [h.eq_withDisplay]
  exact hf s _ _ _

/-- Sequences of alike parts are alike. -/
theorem AlikeButDisplay.andThen {x y : Res} {f g : State → Res} (h : AlikeButDisplay x y)
    (hfg : ∀ u v, x = .next u → y = .next v → SameButDisplay u v → AlikeButDisplay (f u) (g v)) :
    AlikeButDisplay (andThen x f) (andThen y g) := by
  cases x <;> cases y
  case next.next u v => exact hfg u v rfl rfl h
  case fault.fault | refused.refused => exact h
  all_goals exact h.elim

theorem AlikeButDisplay.andThen_blind {x y : Res} {f : State → Res} (h : AlikeButDisplay x y)
    (hf : BlindToDisplay f) : AlikeButDisplay (Machine.andThen x f) (Machine.andThen y f) :=
  h.andThen fun _ _ _ _ huv => hf.alike huv

/-! Memory -/

theorem SameButDisplay.poke {s t : State} (h : SameButDisplay s t) (a : Nat) (b : Byte) :
    SameButDisplay (s.poke a b) (t.poke a b) := by
  rw [h.eq_withDisplay, State.poke, State.poke, withDisplay_ramSize]
  split <;> rfl

theorem SameButDisplay.memStore {s t : State} (h : SameButDisplay s t) (a : Nat) (w : Bool) (v : Word) :
    SameButDisplay (s.memStore a w v) (t.memStore a w v) := by
  cases w
  case false => exact h.poke ..
  case true => exact (h.poke ..).poke ..

theorem afterWrite_sameButDisplay (a : Word) (n : Width) (v : Word) (s : State) (x d : Word) (p : Phase) :
    SameButDisplay (afterWrite a n v s) (afterWrite a n v (s.withDisplay x d p)) := by
  have hl : SameButDisplay (afterWriteLatches a n v s) (afterWriteLatches a n v (s.withDisplay x d p)) := rfl
  rw [afterWrite, afterWrite, withDisplay_ramSize]
  split
  · exact hl.memStore ..
  · exact hl

theorem memRead_blind (a : Word) (n : Width) : BlindToDisplay (memRead a n) := by
  intro s x d p
  rcases memRead_cases a n s with ⟨hok, e⟩ | ⟨rfl, hp, ha, e⟩
  · rw [e, memRead_next (s := s.withDisplay x d p) hok]; rfl
  · rw [e, memRead_straddles (s := s.withDisplay x d p) hp ha]; rfl

theorem memWrite_blind (a : Word) (n : Width) (v : Word) : BlindToDisplay (memWrite a n v) := by
  intro s x d p
  rcases memWrite_cases a n v s with ⟨hok, e⟩ | ⟨rfl, hp, ha, e⟩
  · rw [e, memWrite_next (s := s.withDisplay x d p) hok]
    exact afterWrite_sameButDisplay a n v s x d p
  · rw [e, memWrite_straddles (s := s.withDisplay x d p) hp ha]; rfl

theorem pushWord_blind (v : Word) : BlindToDisplay (pushWord v) := fun s =>
  memWrite_blind s.pushAddress .word v { s with sp := s.sp - 2 }

theorem popWord_blind : BlindToDisplay popWord := fun s =>
  memRead_blind s.popAddress .word { s with sp := s.sp + 2 }

/-! The IOD -/

theorem ioRead_blind (a : Word) (n : Width) : BlindToDisplay (ioRead a n) := by
  intro s x d p
  rw [ioRead_eq, ioRead_eq]
  rfl

theorem ioWrite_blind (a : Word) (n : Width) (v : Word) : BlindToDisplay (ioWrite a n v) := by
  intro s x d p
  rw [ioWrite_eq, ioWrite_eq]
  rfl

/-! The arms of IE -/

theorem finish_blind : BlindToDisplay finish := fun _ _ _ _ => rfl

theorem relJump_blind (taken : Bool) (off : Int) : BlindToDisplay (relJump taken off) := by
  intro s a d p
  cases taken <;> rfl

theorem execInb_blind (ra : Reg) (port : Word) : BlindToDisplay (execInb ra port) := by
  intro s a d p
  rw [execInb, execInb]
  exact (ioRead_blind port .byte s a d p).andThen_blind fun _ _ _ _ => rfl

theorem exec_blind (i : Instr) : BlindToDisplay (exec i) := by
  intro s a d p
  cases i with
  | mv | sprd | spwr | ldwi | ldbi | ldwa | ldba | ldwr | ldbr => rfl
  | add | sub | not | and | or | xor | inc | dec | lsh | rsh | tsti | tsto | br | hlt => rfl
  | push ra => exact (pushWord_blind (s.reg ra) s a d p).andThen_blind finish_blind
  | pop => exact (popWord_blind s a d p).andThen_blind fun _ _ _ _ => rfl
  | stwa | stba | stwr | stbr => exact (memWrite_blind _ _ _ s a d p).andThen_blind finish_blind
  | inb ra port => exact execInb_blind ra port s a d p
  | outb => exact (ioWrite_blind _ _ _ s a d p).andThen_blind finish_blind
  | jmp | jmpz | jmpnz | jmpn | jmpnn | jmpc | jmpv => exact relJump_blind _ _ s a d p
  | call => exact (pushWord_blind _ s a d p).andThen_blind fun _ _ _ _ => rfl
  | ret => exact (popWord_blind s a d p).andThen_blind fun _ _ _ _ => rfl

theorem execute_blind : BlindToDisplay execute := by
  intro s a d p
  cases hd : decodeWords s.ir s.opnd with
  | ok i =>
    rw [execute_of_decode hd, execute_of_decode (u := s.withDisplay a d p) hd]
    exact exec_blind i s a d p
  | error e =>
    have hill : opOfHi (hiByte s.ir) = none := decodeWords_error.mp ⟨e, hd⟩
    rw [execute_of_illegal hill, execute_of_illegal (u := s.withDisplay a d p) hill]
    rfl

/-! The other phases -/

theorem fetch_blind : BlindToDisplay fetch := fun s a d p =>
  (memRead_blind s.pc .word s a d p).andThen_blind fun _ _ _ _ => rfl

theorem ofFollowingWord_blind : BlindToDisplay ofFollowingWord := fun s a d p =>
  (memRead_blind s.pc .word s a d p).andThen_blind fun _ _ _ _ => rfl

theorem ofAbsolute_blind : BlindToDisplay ofAbsolute := by
  intro s a d p
  refine (memRead_blind s.pc .word s a d p).andThen_blind fun t x y q => ?_
  rw [withDisplay_ir]
  split
  · exact memRead_blind t.bus.data .word t.advancePc x y q
  split
  · exact memRead_blind t.bus.data .byte t.advancePc x y q
  · rfl

theorem ofRegisterIndirect_blind : BlindToDisplay ofRegisterIndirect := by
  intro s a d p
  rw [ofRegisterIndirect, ofRegisterIndirect, withDisplay_ir]
  split <;> exact memRead_blind (s.reg (rbOf s.ir)) _ s a d p

theorem operandReads_blind : BlindToDisplay operandReads := by
  intro s a d p
  rw [operandReads, operandReads, withDisplay_ir]
  split
  · exact ofAbsolute_blind s a d p
  split
  · exact ofRegisterIndirect_blind s a d p
  · exact ofFollowingWord_blind s a d p

theorem operandFetch_blind : BlindToDisplay operandFetch := fun s a d p =>
  (operandReads_blind s a d p).andThen_blind fun _ _ _ _ => rfl

/-! Ticks -/

theorem tick_blind : BlindToDisplay tick := by
  intro s a d p
  cases h : s.phaseNext with
  | IF => rw [tick_IF h, tick_IF (s := s.withDisplay a d p) h]; exact fetch_blind.alike rfl
  | ID => rw [tick_ID h, tick_ID (s := s.withDisplay a d p) h]; rfl
  | OF => rw [tick_OF h, tick_OF (s := s.withDisplay a d p) h]; exact operandFetch_blind.alike rfl
  | IE => rw [tick_IE h, tick_IE (s := s.withDisplay a d p) h]; exact execute_blind.alike rfl
  | HALTED | FAULT =>
    have hs : s.stopped = true := by simp [State.stopped, h]
    rw [tick_stopped hs, tick_stopped (s := s.withDisplay a d p) hs]; rfl

theorem takeKey_sameButDisplay (s : State) (a d : Word) (p : Phase) :
    SameButDisplay (takeKey s) (takeKey (s.withDisplay a d p)) := by
  match h : s.keyInputs with
  | [] => rw [takeKey_nil h, takeKey_nil (s := s.withDisplay a d p) h]; rfl
  | none :: ks => rw [takeKey_none h, takeKey_none (s := s.withDisplay a d p) h]; rfl
  | some k :: ks => rw [takeKey_some h, takeKey_some (s := s.withDisplay a d p) h]; rfl

theorem hostTick_blind : BlindToDisplay hostTick := fun s a d p =>
  tick_blind.alike (takeKey_sameButDisplay s a d p)

/-- A tick records the phase it ran (R101). -/
theorem tick_phaseNow {s t : State} (h : tick s = .next t) : t.phaseNow = s.phaseNext := by
  cases hp : s.phaseNext with
  | IF => rcases tick_IF_cases hp with ⟨-, e⟩ | ⟨-, -, e⟩ <;> rw [e] at h <;> cases h; rfl
  | ID => rw [tick_ID hp] at h; cases h; rfl
  | OF => exact (tick_OF_frame hp h).1
  | IE =>
    rw [tick_IE hp] at h
    obtain ⟨⟨⟨-, -, -, hnow, -⟩, -⟩, -⟩ := execute_cases h
    exact hnow
  | HALTED | FAULT =>
    rw [tick_stopped (by simp [State.stopped, hp])] at h
    cases h
    exact hp

theorem hostTick_phaseNow {s t : State} (h : hostTick s = .next t) : t.phaseNow = s.phaseNext :=
  (tick_phaseNow h).trans (takeKey_phaseNext s)

/-- Two runs of ticks end together: whether one goes on depends on the phase its last tick ran, the one that was due. -/
theorem runPhases_blind (n : Nat) : BlindToDisplay (runPhases n) := by
  induction n with
  | zero => exact fun _ _ _ _ => rfl
  | succ n ih =>
    intro s a d p
    refine (hostTick_blind s a d p).andThen fun u v hu hv huv => ?_
    have hnow : v.phaseNow = u.phaseNow := (hostTick_phaseNow hv).trans (hostTick_phaseNow hu).symm
    rw [hnow]
    split
    · exact huv
    · exact ih.alike huv

/-- Settles O35: a step is a run of ticks, each blind to the display registers. -/
theorem displayRegistersAffectNothing : Obligations.DisplayRegistersAffectNothing :=
  fun _ _ h => (runPhases_blind maxTicks).alike h

end Sys2Proof.Machine

/-! # What a reset leaves (O6) -/

namespace Sys2Proof.Machine

/-- Every byte of RAM after a reset: the image from address 0, 0 beyond it and outside RAM (R34, R212). -/
theorem resetWith_peek (r : ResetConfig) (a : Nat) :
    (State.resetWith r).peek a = if a < r.ramSize then r.image.getD a 0 else 0 := by
  have hread : Memory.read (loadImage r.ramSize r.image) a =
      if 0 ≤ a ∧ a < 0 + r.image.length ∧ a < r.ramSize then r.image.getD (a - 0) 0 else blankByte :=
    Memory.read_place r.ramSize 0 r.image [] a
  simp only [State.peek, State.resetWith, hread]
  split
  case isFalse => rfl
  case isTrue ha =>
    by_cases hi : a < r.image.length
    · simp [hi, ha]
    · simp [hi, blankByte]

theorem resetWith_reg (r : ResetConfig) (q : Reg) : (State.resetWith r).reg q = 0 := by
  simp [State.reg, State.resetWith, Vector.get_eq_getElem]

theorem resetWith_sp {r : ResetConfig} (h : ramSizeOk r.ramSize = true) :
    (State.resetWith r).sp.toNat = r.ramSize - 2 := by
  obtain ⟨hlo, hhi⟩ : 2 ≤ r.ramSize ∧ r.ramSize ≤ 65536 := by simpa [ramSizeOk] using h
  simp only [State.resetWith, BitVec.toNat_ofNat]
  omega

/-- Settles O6: memory by `resetWith_peek`, registers and `sp` by their lemmas, every other item as it is written. -/
theorem resetLeavesTheTabledValues : Obligations.ResetLeavesTheTabledValues :=
  fun r h => ⟨resetWith_reg r, rfl, resetWith_sp h, rfl, rfl, rfl, rfl, rfl, rfl, rfl, rfl,
    fun a ha => by rw [resetWith_peek, if_pos ha],
    fun a ha => by rw [resetWith_peek, if_neg (Nat.not_lt.mpr ha)], rfl⟩

end Sys2Proof.Machine

/-! # Which instructions write which pieces of state (O33, O34)

`writesOf` says once, row by row, which pieces an instruction may write; `exec_keepsBut` proves of every arm that it
keeps all others, and the two obligations are read off the table. -/

namespace Sys2Proof.Machine

/-- A piece of state which only some instructions write. -/
inductive Piece where
  | pc | sp | mem | key | out | z | n | c | v

/-- The piece is the same in `s` and `t`. -/
def Piece.Same : Piece → State → State → Prop
  | .pc, s, t => t.pc = s.pc
  | .sp, s, t => t.sp = s.sp
  | .mem, s, t => t.mem = s.mem
  | .key, s, t => t.iod.key = s.iod.key
  | .out, s, t => t.iod.out = s.iod.out
  | .z, s, t => t.flags.z = s.flags.z
  | .n, s, t => t.flags.n = s.flags.n
  | .c, s, t => t.flags.c = s.flags.c
  | .v, s, t => t.flags.v = s.flags.v

theorem flags_ext {f g : Flags} (hz : f.z = g.z) (hn : f.n = g.n) (hc : f.c = g.c) (hv : f.v = g.v) : f = g := by
  cases f
  cases g
  simp_all

/-- From `s` to `t`, every piece not in `w` is the same. -/
def KeepsBut (w : List Piece) (s t : State) : Prop := ∀ p, p ∉ w → p.Same s t

theorem Piece.Same.trans {p : Piece} {s t u : State} (h : p.Same s t) (h' : p.Same t u) : p.Same s u := by
  cases p <;> exact Eq.trans h' h

theorem KeepsBut.refl (w : List Piece) (s : State) : KeepsBut w s s := fun p _ => by cases p <;> rfl

theorem KeepsBut.trans {w w' : List Piece} {s t u : State} (h : KeepsBut w s t) (h' : KeepsBut w' t u) :
    KeepsBut (w ++ w') s u := by
  intro p hp
  rw [List.mem_append, not_or] at hp
  exact (h p hp.1).trans (h' p hp.2)

/-! What each update writes -/

theorem setReg_keepsBut (s : State) (r : Reg) (v : Word) : KeepsBut [] s (s.setReg r v) := by
  intro p _
  cases p <;> rfl

theorem setPhaseNext_keepsBut (s : State) (q : Phase) : KeepsBut [] s { s with phaseNext := q } := by
  intro p _
  cases p <;> rfl

theorem setPc_keepsBut (s : State) (v : Word) : KeepsBut [.pc] s { s with pc := v } := by
  intro p hp
  cases p with
  | pc => simp at hp
  | _ => rfl

theorem setSp_keepsBut (s : State) (v : Word) : KeepsBut [.sp] s { s with sp := v } := by
  intro p hp
  cases p with
  | sp => simp at hp
  | _ => rfl

theorem setFlags_keepsBut (s : State) (f : Flags) : KeepsBut [.z, .n, .c, .v] s (s.setFlags f) := by
  intro p hp
  cases p with
  | z | n | c | v => simp at hp
  | _ => rfl

theorem setZN_keepsBut (s : State) (v : Word) : KeepsBut [.z, .n] s (s.setZN v) := by
  intro p hp
  cases p with
  | z | n => simp at hp
  | _ => rfl

theorem setZ_keepsBut (s : State) (b : Bool) : KeepsBut [.z] s (s.setZ b) := by
  intro p hp
  cases p with
  | z => simp at hp
  | _ => rfl

theorem memRead_keepsBut {a : Word} {n : Width} {s t : State} (h : memRead a n s = .next t) : KeepsBut [] s t := by
  rw [memRead_eq_next h]
  intro p _
  cases p <;> rfl

theorem memWrite_keepsBut {a : Word} {n : Width} {v : Word} {s t : State} (h : memWrite a n v s = .next t) :
    KeepsBut [.mem] s t := by
  rcases memWrite_cases a n v s with ⟨-, e⟩ | ⟨-, -, -, e⟩ <;> rw [e] at h <;> cases h
  rw [afterWrite_eq]
  intro p hp
  cases p with
  | mem => simp at hp
  | _ => rfl

theorem pushWord_keepsBut {v : Word} {s t : State} (h : pushWord v s = .next t) : KeepsBut [.sp, .mem] s t :=
  (setSp_keepsBut s (s.sp - 2)).trans (memWrite_keepsBut h)

theorem popWord_keepsBut {s t : State} (h : popWord s = .next t) : KeepsBut [.sp] s t :=
  (setSp_keepsBut s (s.sp + 2)).trans (memRead_keepsBut h)

theorem ioRead_keepsBut {a : Word} {n : Width} {s t : State} (h : ioRead a n s = .next t) : KeepsBut [.key] s t := by
  rw [ioRead_eq] at h
  cases h
  intro p hp
  cases p with
  | key => simp at hp
  | out => simp only [Piece.Same]; split <;> rfl
  | _ => rfl

theorem ioWrite_keepsBut {a : Word} {n : Width} {v : Word} {s t : State} (h : ioWrite a n v s = .next t) :
    KeepsBut [.out] s t := by
  rw [ioWrite_eq] at h
  cases h
  intro p hp
  cases p with
  | key => simp only [Piece.Same]; split <;> rfl
  | out => simp at hp
  | _ => rfl

/-! What each ending of an arm writes -/

/-- Where `o` is an arm's answer in `s`: if it is a next state, every piece not in `w` is as in `s`. -/
def ArmKeepsBut (w : List Piece) (s : State) (o : Res) : Prop := ∀ t, o = .next t → KeepsBut w s t

theorem armKeepsBut_finish {w : List Piece} {s u : State} (h : KeepsBut w s u) : ArmKeepsBut w s (finish u) := by
  intro t e
  cases e
  simpa using h.trans (setPhaseNext_keepsBut u .IF)

/-- An arm that makes a transaction first. -/
theorem armKeepsBut_andThen {w w' : List Piece} {s : State} {o : Res} {f : State → Res} (ho : ArmKeepsBut w s o)
    (hf : ∀ u, ArmKeepsBut w' u (f u)) : ArmKeepsBut (w ++ w') s (andThen o f) := by
  intro t h
  obtain ⟨u, hu, ht⟩ := andThen_eq_next.mp h
  exact (ho u hu).trans (hf u t ht)

theorem finish_keepsBut (s : State) : ArmKeepsBut [] s (finish s) := armKeepsBut_finish (.refl [] s)

theorem finish_setReg_keepsBut (r : Reg) (v : Word) (s : State) : ArmKeepsBut [] s (finish (s.setReg r v)) :=
  armKeepsBut_finish (setReg_keepsBut s r v)

theorem finish_setPc_keepsBut (v : Word) (s : State) : ArmKeepsBut [.pc] s (finish { s with pc := v }) :=
  armKeepsBut_finish (setPc_keepsBut s v)

theorem aluResult_keepsBut (r : Reg) (v : Word) (f : Flags) (s : State) :
    ArmKeepsBut [.z, .n, .c, .v] s (aluResult r v f s) :=
  armKeepsBut_finish ((setReg_keepsBut s r v).trans (setFlags_keepsBut _ f))

theorem loadReg_keepsBut (r : Reg) (v : Word) (s : State) : ArmKeepsBut [.z, .n] s (loadReg r v s) :=
  armKeepsBut_finish ((setReg_keepsBut s r v).trans (setZN_keepsBut _ v))

theorem store_keepsBut (a : Word) (n : Width) (v : Word) (s : State) :
    ArmKeepsBut [.mem] s (andThen (memWrite a n v s) finish) :=
  armKeepsBut_andThen (fun _ => memWrite_keepsBut) finish_keepsBut

theorem relJump_keepsBut (taken : Bool) (off : Int) (s : State) : ArmKeepsBut [.pc] s (relJump taken off s) := by
  cases taken
  case false => exact armKeepsBut_finish (.refl [.pc] s)
  case true => exact finish_setPc_keepsBut (s.relTarget off) s

/-! Every arm -/

/-- The pieces a row of the opcode map may write in IE. -/
def writesOf : Op → List Piece
  | .mv | .sprd | .hlt => []
  | .spwr | .pop => [.sp]
  | .push => [.sp, .mem]
  | .ldwi | .ldbi | .ldwa | .ldba | .ldwr | .ldbr => [.z, .n]
  | .stwa | .stba | .stwr | .stbr => [.mem]
  | .add | .sub | .not | .and | .or | .xor | .inc | .dec | .lsh | .rsh => [.z, .n, .c, .v]
  | .inb => [.key]
  | .outb => [.out]
  | .tsti | .tsto => [.z]
  | .br | .jmp | .jmpz | .jmpnz | .jmpn | .jmpnn | .jmpc | .jmpv => [.pc]
  | .call => [.sp, .mem, .pc]
  | .ret => [.sp, .pc]

/-- Every arm of IE, where it answers a next state, writes the pieces of its row alone. -/
theorem exec_keepsBut (i : Instr) (s : State) : ArmKeepsBut (writesOf i.op) s (exec i s) := by
  cases i with
  | mv | sprd => exact finish_setReg_keepsBut _ _ s
  | spwr ra => exact armKeepsBut_finish (setSp_keepsBut s (s.reg ra))
  | push => exact armKeepsBut_andThen (fun _ => pushWord_keepsBut) finish_keepsBut
  | pop => exact armKeepsBut_andThen (fun _ => popWord_keepsBut) fun u => finish_setReg_keepsBut _ _ u
  | ldwi | ldbi | ldwa | ldba | ldwr | ldbr => exact loadReg_keepsBut _ _ s
  | stwa | stba | stwr | stbr => exact store_keepsBut _ _ _ s
  | add | sub | not | and | or | xor | inc | dec | lsh | rsh => exact aluResult_keepsBut _ _ _ s
  | inb => exact armKeepsBut_andThen (fun _ => ioRead_keepsBut) fun u => finish_setReg_keepsBut _ _ u
  | outb => exact armKeepsBut_andThen (fun _ => ioWrite_keepsBut) finish_keepsBut
  | tsti | tsto => exact armKeepsBut_finish (setZ_keepsBut s _)
  | br => exact finish_setPc_keepsBut _ s
  | jmp | jmpz | jmpnz | jmpn | jmpnn | jmpc | jmpv => exact relJump_keepsBut _ _ s
  | call => exact armKeepsBut_andThen (fun _ => pushWord_keepsBut) fun u => finish_setPc_keepsBut _ u
  | ret => exact armKeepsBut_andThen (fun _ => popWord_keepsBut) fun u => finish_setPc_keepsBut _ u
  | hlt =>
    intro t h
    cases h
    exact setPhaseNext_keepsBut s .HALTED

/-! Reading the table -/

theorem pc_notMem_writesOf {o : Op} (h : isControl o = false) : .pc ∉ writesOf o := by
  cases o <;> simp_all [writesOf, isControl]

theorem sp_notMem_writesOf {o : Op} (h : o ∉ [.push, .pop, .call, .ret, .spwr]) : .sp ∉ writesOf o := by
  cases o <;> simp_all [writesOf]

theorem mem_notMem_writesOf {o : Op} (h : isStore o = false) : .mem ∉ writesOf o := by
  cases o <;> simp_all [writesOf, isStore]

theorem key_notMem_writesOf {o : Op} (h : o ≠ .inb) : .key ∉ writesOf o := by
  cases o <;> simp_all [writesOf]

theorem out_notMem_writesOf {o : Op} (h : o ≠ .outb) : .out ∉ writesOf o := by
  cases o <;> simp_all [writesOf]

theorem c_v_notMem_writesOf {o : Op} (h : isAlu o = false) : .c ∉ writesOf o ∧ .v ∉ writesOf o := by
  cases o <;> simp_all [writesOf, isAlu]

theorem n_notMem_writesOf {o : Op} (ha : isAlu o = false) (hl : isLoad o = false) : .n ∉ writesOf o := by
  cases o <;> simp_all [writesOf, isAlu, isLoad]

theorem z_notMem_writesOf {o : Op} (ha : isAlu o = false) (hl : isLoad o = false) (hi : o ≠ .tsti) (ho : o ≠ .tsto) :
    .z ∉ writesOf o := by
  cases o <;> simp_all [writesOf, isAlu, isLoad]

/-- The phase after any instruction but HLT (R108). -/
theorem phaseAfter_of_ne_hlt {i : Instr} (h : i.op ≠ .hlt) : phaseAfter i = .IF := by
  rcases phaseAfter_cases i with hi | ⟨-, rfl⟩
  · exact hi
  · exact absurd rfl h

/-- Settles O33: `C`, `V`, `N` and `Z` each by its column of the table. -/
theorem onlyTheNamedInstructionsWriteFlags : Obligations.OnlyTheNamedInstructionsWriteFlags := by
  intro i s t h
  have hkeep : KeepsBut (writesOf i.op) s t := exec_keepsBut i s t h
  have hcv (ha : isAlu i.op = false) : t.flags.c = s.flags.c ∧ t.flags.v = s.flags.v :=
    ⟨hkeep .c (c_v_notMem_writesOf ha).1, hkeep .v (c_v_notMem_writesOf ha).2⟩
  have hn (ha : isAlu i.op = false) (hl : isLoad i.op = false) : t.flags.n = s.flags.n :=
    hkeep .n (n_notMem_writesOf ha hl)
  refine ⟨hcv, hn, fun ha hl hi ho => ?_⟩
  have hz : t.flags.z = s.flags.z := hkeep .z (z_notMem_writesOf ha hl hi ho)
  exact flags_ext hz (hn ha hl) (hcv ha).1 (hcv ha).2

/-- Settles O34: the pieces by the table, the due phase and the rest of the machine by `exec_endsIn`. -/
theorem onlyTheNamedInstructionsWriteEachPieceOfState :
    Obligations.OnlyTheNamedInstructionsWriteEachPieceOfState := by
  intro i s t h
  have hkeep : KeepsBut (writesOf i.op) s t := exec_keepsBut i s t h
  obtain ⟨⟨hmachine, -⟩, hnext⟩ := exec_endsIn i s t h
  have ⟨_, hsize, _⟩ := hmachine
  exact ⟨fun hi => hkeep .pc (pc_notMem_writesOf hi),
    fun hi => hkeep .sp (sp_notMem_writesOf hi),
    fun hi => peek_congr (hkeep .mem (mem_notMem_writesOf hi)) hsize,
    fun hi => hkeep .key (key_notMem_writesOf hi),
    fun hi => hkeep .out (out_notMem_writesOf hi),
    fun hi => hnext.trans (phaseAfter_of_ne_hlt hi), hmachine⟩

end Sys2Proof.Machine

/-! # The bus and the memory controller (O9 to O13, O15)

What the controller answers to a transaction is said once for each of its four answers: outside RAM, at a straddling
word without a step, to a read and to a write (`memoryOperate_outside`, `_straddles`, `_read`, `_write`). -/

namespace Sys2Proof.Machine

/-! The selected slave (R53) -/

theorem busCycle_memory {s : State} (h : s.bus.msel = true) : busCycle s = memoryOperate s := if_pos h

theorem busCycle_iod {s : State} (h : s.bus.msel = false) : busCycle s = .next (iodOperate s) :=
  if_neg (Bool.eq_false_iff.mp h)

/-! The controller's four answers (R54 to R57) -/

theorem memoryOperate_outside {s : State} (h : s.ramSize ≤ s.bus.address.toNat) : memoryOperate s = .next s := if_pos h

theorem memoryOperate_straddles {s : State} (hw : s.bus.word = true) (ha : s.bus.address.toNat + 1 = s.ramSize)
    (hp : s.cfg.straddlePolicy = .fault) : memoryOperate s = .fault (.straddlingWord s.bus.address) := by
  have hin : ¬ s.ramSize ≤ s.bus.address.toNat := by omega
  have hs : s.straddles = true := by simp [State.straddles, hw, ha]
  rw [memoryOperate, if_neg hin, if_pos (by simp [hs, hp])]

/-- The controller's test for a fault fails on a byte, and on a word access that has a step. -/
theorem not_straddles_and_fault {s : State} (hok : s.bus.word = false ∨ s.wordAccessOk s.bus.address) :
    ¬ (s.straddles && decide (s.cfg.straddlePolicy = .fault)) = true := by
  simp only [State.straddles, Bool.and_eq_true, decide_eq_true_eq]
  rintro ⟨⟨hw, ha⟩, hp⟩
  rcases hok with hbyte | hbytewise | hne
  · rw [hbyte] at hw; cases hw
  · rw [hbytewise] at hp; cases hp
  · exact hne ha

theorem memoryOperate_read {s : State} (hr : s.bus.read = true) (ha : s.bus.address.toNat < s.ramSize)
    (hok : s.bus.word = false ∨ s.wordAccessOk s.bus.address) :
    memoryOperate s = .next { s with bus := { s.bus with data := s.memValue s.bus.address.toNat s.bus.word } } := by
  rw [memoryOperate, if_neg (Nat.not_le.mpr ha), if_neg (not_straddles_and_fault hok), if_pos hr]

theorem memoryOperate_write {s : State} (hr : s.bus.read = false) (ha : s.bus.address.toNat < s.ramSize)
    (hok : s.bus.word = false ∨ s.wordAccessOk s.bus.address) :
    memoryOperate s = .next (s.memStore s.bus.address.toNat s.bus.word s.bus.data) := by
  rw [memoryOperate, if_neg (Nat.not_le.mpr ha), if_neg (not_straddles_and_fault hok), if_neg (Bool.eq_false_iff.mp hr)]

/-! What a read delivers -/

theorem peek_outside {s : State} {a : Nat} (h : s.ramSize ≤ a) : s.peek a = 0 := if_neg (Nat.not_lt.mpr h)

/-- The value on the data line as a number: little-endian, and zero for a high byte outside RAM (R54, R57). -/
theorem toNat_memValue (s : State) (a : Nat) (w : Bool) :
    (s.memValue a w).toNat =
      (s.peek a).toNat + if w = true ∧ a + 1 < s.ramSize then 256 * (s.peek (a + 1)).toNat else 0 := by
  cases w
  case false => simp [State.memValue, toNat_zextByte]
  case true =>
    simp only [State.memValue, if_true, toNat_wordOfBytes, true_and]
    by_cases ha : a + 1 < s.ramSize
    · rw [if_pos ha]
    · rw [if_neg ha, peek_outside (Nat.not_lt.mp ha)]; rfl

theorem toNat_memAnswer_byte {s : State} {a : Word} (h : a.toNat < s.ramSize) :
    (s.memAnswer a false).toNat = (s.peek a.toNat).toNat := by
  rw [State.memAnswer, if_pos h, toNat_memValue, if_neg (by simp), Nat.add_zero]

/-- A read that has a step leaves the answer on the data line. -/
theorem memRead_delivers {a : Word} {n : Width} {s : State} (h : accessOk a n s) :
    ∃ u, memRead a n s = .next u ∧ u.bus.data = s.memAnswer a n.isWord := ⟨_, memRead_next h, rfl⟩

/-- An access outside RAM has a step under either policy. -/
theorem accessOk_outside {a : Word} {s : State} (n : Width) (h : s.ramSize ≤ a.toNat) : accessOk a n s :=
  .inr (.inr (by omega))

/-! What a write stores -/

theorem peek_memStore_low {s : State} {a : Nat} (w : Bool) (v : Word) (h : a < s.ramSize) :
    (s.memStore a w v).peek a = loByte v := by
  rw [peek_memStore, if_pos ⟨rfl, h⟩]

theorem peek_memStore_high {s : State} {a : Nat} (v : Word) (h : a + 1 < s.ramSize) :
    (s.memStore a true v).peek (a + 1) = hiByte v := by
  rw [peek_memStore, if_neg (by omega), if_pos ⟨rfl, rfl, h⟩]

/-- A store reaches no byte beyond the `n` from `a` on, where a word that fits in RAM takes two of them. -/
theorem memStore_sameMemBut {s : State} {a n : Nat} {w : Bool} (v : Word) (hn : 1 ≤ n)
    (hw : w = true → a + 1 < s.ramSize → 2 ≤ n) : SameMemBut a n s (s.memStore a w v) := by
  intro x hx
  have hhigh : ¬ (x = a + 1 ∧ w = true ∧ a + 1 < s.ramSize) := by
    rintro ⟨rfl, h, hin⟩
    have := hw h hin
    omega
  rw [peek_memStore, if_neg (by omega), if_neg hhigh]

theorem afterWrite_outside {a : Word} {s : State} (n : Width) (v : Word) (h : s.ramSize ≤ a.toNat) :
    afterWrite a n v s = afterWriteLatches a n v s := if_neg (Nat.not_lt.mpr h)

/-! The slave that is not selected -/

/-- `s` with another IOD. -/
def State.withIod (s : State) (x : Iod) : State := { s with iod := x }

@[simp] theorem withIod_ramSize (s : State) (x : Iod) : (s.withIod x).ramSize = s.ramSize := rfl

theorem poke_withIod (s : State) (a : Nat) (b : Byte) (x : Iod) : (s.withIod x).poke a b = (s.poke a b).withIod x := by
  rw [State.poke, State.poke, withIod_ramSize]
  split <;> rfl

theorem memStore_withIod (s : State) (a : Nat) (w : Bool) (v : Word) (x : Iod) :
    (s.withIod x).memStore a w v = (s.memStore a w v).withIod x := by
  cases w
  case false => exact poke_withIod ..
  case true => simp only [State.memStore, if_true, poke_withIod]

/-- The memory controller neither looks at the IOD nor changes it. -/
theorem memoryOperate_withIod (s : State) (x : Iod) :
    memoryOperate (s.withIod x) = andThen (memoryOperate s) fun t => .next (t.withIod x) := by
  by_cases ha : s.ramSize ≤ s.bus.address.toNat
  case pos => rw [memoryOperate_outside ha, memoryOperate_outside (s := s.withIod x) ha, andThen_next]
  have hin : s.bus.address.toNat < s.ramSize := Nat.lt_of_not_le ha
  by_cases hok : s.bus.word = false ∨ s.wordAccessOk s.bus.address
  case neg =>
    obtain ⟨hword, hna⟩ := not_or.mp hok
    have hw : s.bus.word = true := Bool.eq_true_of_not_eq_false hword
    obtain ⟨hp, hlast⟩ := straddles_of_not_wordAccessOk hna
    rw [memoryOperate_straddles hw hlast hp, memoryOperate_straddles (s := s.withIod x) hw hlast hp]
    rfl
  case pos =>
    cases hr : s.bus.read
    case true =>
      rw [memoryOperate_read hr hin hok, memoryOperate_read (s := s.withIod x) hr hin hok]
      rfl
    case false =>
      rw [memoryOperate_write hr hin hok, memoryOperate_write (s := s.withIod x) hr hin hok, andThen_next,
        ← memStore_withIod]
      rfl

/-- The IOD neither looks at the memory nor changes it. -/
theorem iodOperate_withMemory (s : State) (n : Nat) (m : Memory) :
    iodOperate { s with ramSize := n, mem := m } = { iodOperate s with ramSize := n, mem := m } := by
  unfold iodOperate
  split
  · rfl
  · split <;> rfl

/-! The statements -/

/-- Settles O9: the selected slave by `busCycle`, the other by `memoryOperate_withIod` and `iodOperate_withMemory`. -/
theorem exactlyOneSlaveLooksAtATransaction : Obligations.ExactlyOneSlaveLooksAtATransaction := by
  refine ⟨fun s => busCycle_memory, fun s => busCycle_iod, fun s x h => ?_, fun s n m h => ?_,
    fun a sel n s => ⟨a, fun t => t.bus.data, rfl⟩, fun a v sel n s => ⟨a, v, rfl⟩⟩
  · rw [busCycle_memory h]
    exact (busCycle_memory (s := s.withIod x) h).trans (memoryOperate_withIod s x)
  · rw [busCycle_iod h, busCycle_iod (s := { s with ramSize := n, mem := m }) h, iodOperate_withMemory, andThen_next]

/-- Settles O10: the controller's answer to a read, its value by `toNat_memValue`. -/
theorem memoryAnswersAReadInRange : Obligations.MemoryAnswersAReadInRange := fun _ hm hr ha hok =>
  ⟨_, (busCycle_memory hm).trans (memoryOperate_read hr ha hok), rfl, toNat_memValue ..⟩

/-- Settles O11: the controller's answer to a write, a store that changes `mem` alone. -/
theorem memoryTakesAWriteInRange : Obligations.MemoryTakesAWriteInRange := by
  intro s hm hr ha hok
  refine ⟨_, (busCycle_memory hm).trans (memoryOperate_write hr ha hok), ?_, peek_memStore_low _ _ ha,
    fun hw h => ?_, memStore_sameMemBut _ ?_ fun hw _ => ?_⟩
  · rw [memStore_eq]
  · rw [hw]; exact peek_memStore_high _ h
  · split <;> omega
  · rw [if_pos hw]

/-- Settles O12: outside RAM the cycle is the identity, a read answers the old data and a write stores nothing. -/
theorem memoryIgnoresAddressesOutsideRam : Obligations.MemoryIgnoresAddressesOutsideRam := by
  refine ⟨fun s hm h => (busCycle_memory hm).trans (memoryOperate_outside h), fun a n s h => ?_, fun a v n s h => ?_⟩
  · have hdata : s.memAnswer a n.isWord = s.bus.data := memAnswer_outside _ h
    exact ⟨_, memRead_next (accessOk_outside n h), hdata, hdata, fun _ => rfl⟩
  · refine ⟨_, memWrite_next (accessOk_outside n h), ?_⟩
    rw [afterWrite_outside n v h]
    exact fun _ => rfl

/-- Settles O13: under `bytewise` the high byte reads as 0 and is dropped on a write; under `fault` there is no step. -/
theorem straddlingWordFollowsTheStraddlePolicy : Obligations.StraddlingWordFollowsTheStraddlePolicy := by
  intro s hm hw ha
  have hin : s.bus.address.toNat < s.ramSize := by omega
  refine ⟨fun hp hr => ?_, fun hp hr => ?_, fun hp => (busCycle_memory hm).trans (memoryOperate_straddles hw ha hp)⟩
  · refine ⟨_, (busCycle_memory hm).trans (memoryOperate_read hr hin (.inr (.inl hp))), (toNat_memValue ..).trans ?_⟩
    rw [if_neg (by omega), Nat.add_zero]
  · exact ⟨_, (busCycle_memory hm).trans (memoryOperate_write hr hin (.inr (.inl hp))), peek_memStore_low _ _ hin,
      memStore_sameMemBut _ (Nat.le_refl 1) fun _ _ => by omega⟩

/-- Once the bytes of `v` stand at `a`, a word read there delivers `v` and byte reads deliver its two bytes (R54, R60). -/
theorem reads_of_bytes {a v : Word} {t : State} (h : a.toNat + 1 < t.ramSize) (hlo : t.peek a.toNat = loByte v)
    (hhi : t.peek (a.toNat + 1) = hiByte v) :
    (∃ u, memRead a .word t = .next u ∧ u.bus.data = v) ∧
    (∃ u, memRead a .byte t = .next u ∧ u.bus.data.toNat = v.toNat % 256) ∧
    (a.toNat + 1 < 65536 → ∃ u, memRead (a + 1) .byte t = .next u ∧ u.bus.data.toNat = v.toNat / 256) := by
  refine ⟨?_, ?_, fun hwrap => ?_⟩
  · obtain ⟨u, hu, hdata⟩ := memRead_delivers (n := .word) (s := t) (a := a) (.inr (.inr h.ne))
    refine ⟨u, hu, hdata.trans ?_⟩
    calc t.memAnswer a true = wordOfBytes (t.peek a.toNat) (t.peek (a.toNat + 1)) := memAnswer_inRam h
      _ = v := by rw [hlo, hhi, wordOfBytes_lo_hi]
  · obtain ⟨u, hu, hdata⟩ := memRead_delivers (n := .byte) (s := t) (a := a) (.inl rfl)
    exact ⟨u, hu, by rw [hdata, Width.isWord, toNat_memAnswer_byte (by omega), hlo, toNat_loByte]⟩
  · have hnext : (a + 1).toNat = a.toNat + 1 := by simp; omega
    obtain ⟨u, hu, hdata⟩ := memRead_delivers (n := .byte) (s := t) (a := a + 1) (.inl rfl)
    exact ⟨u, hu, by rw [hdata, Width.isWord, toNat_memAnswer_byte (by omega), hnext, hhi, toNat_hiByte]⟩

/-- Settles O15: a written word by `wordStored_afterWrite` and `reads_of_bytes`, the words at `pc` by what a read in RAM
answers. -/
theorem wordWrittenReadsBackLittleEndian : Obligations.WordWrittenReadsBackLittleEndian := by
  refine ⟨fun a v s t h ht => ?_, fun s hroom => ?_⟩
  · rw [memWrite_next (.inr (.inr h.ne))] at ht
    cases ht
    obtain ⟨hlow, hhigh, -, hbut⟩ := wordStored_afterWrite a v s
    have hlo : (afterWrite a .word v s).peek a.toNat = loByte v := hlow (by omega)
    have hhi : (afterWrite a .word v s).peek (a.toNat + 1) = hiByte v := hhigh h
    obtain ⟨⟨-, hsize, -⟩, -⟩ := afterWrite_frame a .word v s
    exact ⟨hlo, hhi, hbut, reads_of_bytes (hsize ▸ h) hlo hhi⟩
  · simp only [State.roomAtPc, Bool.and_eq_true, decide_eq_true_eq] at hroom
    obtain ⟨hram, hwrap⟩ := hroom
    have hnext : (s.pc + 2).toNat = s.pc.toNat + 2 := by simp; omega
    have hfollowing : s.followingWord = s.memAnswer (s.pc + 2) true := by
      rw [State.followingWord, State.memAnswer, if_pos (by omega), if_pos (by omega)]
    refine ⟨memAnswer_inRam (by omega), hfollowing.trans ?_⟩
    rw [memAnswer_inRam (by omega), hnext]

end Sys2Proof.Machine

/-! # The encoding (O1 to O5, O56)

The low byte of an instruction word has four forms: two registers, one register, an offset, nothing. What the decoder's
fields read from each form (`raOf_registers` and its neighbours) gives O1; what each form is in terms of the byte the
fields were read from (`registers_of_fields` and its neighbours) gives O2. O3 and O4 speak of the high byte alone. -/

namespace Sys2Proof.Machine

/-! What the fields read from an encoded low byte -/

@[simp] theorem raOf_registers (ra rb : Reg) (h : Byte) :
    raOf (wordOfBytes (BitVec.ofNat 8 (16 * ra.val + rb.val)) h) = ra := by
  apply Fin.ext
  rw [raOf_val, loByte_wordOfBytes, BitVec.toNat_ofNat]
  omega

@[simp] theorem rbOf_registers (ra rb : Reg) (h : Byte) :
    rbOf (wordOfBytes (BitVec.ofNat 8 (16 * ra.val + rb.val)) h) = rb := by
  apply Fin.ext
  rw [rbOf_val, loByte_wordOfBytes, BitVec.toNat_ofNat]
  omega

@[simp] theorem raOf_register (ra : Reg) (h : Byte) : raOf (wordOfBytes (BitVec.ofNat 8 (16 * ra.val)) h) = ra :=
  raOf_registers ra 0 h

theorem offsetInRange_iff (off : Int) : offsetInRange off = true ↔ -128 ≤ off ∧ off ≤ 127 := by simp [offsetInRange]

theorem offOf_offset {off : Int} (hoff : offsetInRange off = true) (h : Byte) :
    offOf (wordOfBytes (BitVec.ofInt 8 off) h) = off := by
  obtain ⟨hlo, hhi⟩ := (offsetInRange_iff off).mp hoff
  rw [offOf, loByte_wordOfBytes]
  exact BitVec.toInt_ofInt_eq_self (by decide) (by simpa using hlo) (by omega)

/-! Decoding an encoding -/

/-- An instruction has an extension word exactly where its row has one (R82, R85). -/
theorem isSome_ext (i : Instr) : i.ext.isSome = i.op.hasExt := by cases i <;> rfl

/-- The row of an instruction, read at its words, gives it back: no operand is lost. -/
theorem instrOf_word {i : Instr} (hi : WellFormed i) {x : Word} (hx : i.ext = none ∨ i.ext = some x) :
    instrOf i.op i.word x = i := by
  cases i with
  | mv | ldwr | ldbr | stwr | stbr | add | sub | and | or | xor =>
    simp [Instr.op, instrOf, Instr.word, Instr.lowByte]
  | push | pop | sprd | spwr | not | inc | dec | lsh | rsh =>
    simp [Instr.op, instrOf, Instr.word, Instr.lowByte]
  | ldwi | ldbi | ldwa | ldba | stwa | stba | inb | outb =>
    obtain rfl : _ = x := by simpa [Instr.ext] using hx
    simp [Instr.op, instrOf, Instr.word, Instr.lowByte]
  | tsti | tsto | br | call =>
    obtain rfl : _ = x := by simpa [Instr.ext] using hx
    rfl
  | jmp | jmpz | jmpnz | jmpn | jmpnn | jmpc | jmpv =>
    simp [Instr.op, instrOf, Instr.word, Instr.lowByte, offOf_offset hi]
  | ret | hlt => rfl

theorem encode_of_ext_none {i : Instr} (h : i.ext = none) : encode i = [i.word] := by simp [encode, h]

theorem encode_of_ext_some {i : Instr} {x : Word} (h : i.ext = some x) : encode i = [i.word, x] := by simp [encode, h]

theorem decodeBytes_oneWord {w : Word} {o : Op} (ho : opOfHi (hiByte w) = some o) (hx : o.hasExt = false)
    (rest : List Byte) : decodeBytes (bytesOfWords [w] ++ rest) = .ok (instrOf o w 0, rest) := by
  simp [bytesOfWords, decodeBytes, ho, hx]

theorem decodeBytes_twoWords {w : Word} {o : Op} (ho : opOfHi (hiByte w) = some o) (hx : o.hasExt = true)
    (x : Word) (rest : List Byte) : decodeBytes (bytesOfWords [w, x] ++ rest) = .ok (instrOf o w x, rest) := by
  simp [bytesOfWords, decodeBytes, ho, hx]

theorem opOfHi_word (i : Instr) : opOfHi (hiByte i.word) = some i.op := by
  rw [Instr.word, hiByte_wordOfBytes, opOfHi_hi]

/-- Settles O1: one word or two, the decoder reads the instruction's row at its own words. -/
theorem decodingTheEncodingGivesTheInstructionBack : Obligations.DecodingTheEncodingGivesTheInstructionBack := by
  intro i rest hi
  have hext := isSome_ext i
  cases hx : i.ext with
  | none =>
    have hlen : i.op.hasExt = false := by simpa [hx] using hext.symm
    rw [encodeBytes, encode_of_ext_none hx, decodeBytes_oneWord (opOfHi_word i) hlen, instrOf_word hi (.inl hx)]
  | some x =>
    have hlen : i.op.hasExt = true := by simpa [hx] using hext.symm
    rw [encodeBytes, encode_of_ext_some hx, decodeBytes_twoWords (opOfHi_word i) hlen, instrOf_word hi (.inr hx)]

/-! Encoding a decoded word -/

theorem hiByte_and (v w : Word) : hiByte (v &&& w) = hiByte v &&& hiByte w := BitVec.extractLsb'_and

theorem loByte_and (v w : Word) : loByte (v &&& w) = loByte v &&& loByte w := BitVec.extractLsb'_and

theorem registers_of_fields (w : Word) : BitVec.ofNat 8 (16 * (raOf w).val + (rbOf w).val) = loByte w := by
  rw [raOf_val, rbOf_val, Nat.div_add_mod, BitVec.ofNat_toNat, BitVec.setWidth_eq]

theorem register_of_field (w : Word) : BitVec.ofNat 8 (16 * (raOf w).val) = loByte w &&& 0xF0 := by
  calc BitVec.ofNat 8 (16 * (raOf w).val) = loByte w >>> 4 <<< 4 := by
        apply BitVec.eq_of_toNat_eq
        simp [raOf_val, Nat.shiftLeft_eq, Nat.shiftRight_eq_div_pow, Nat.mul_comm]
    _ = loByte w &&& 0xF0 := BitVec.shiftLeft_ushiftRight

theorem offset_of_field (w : Word) : BitVec.ofInt 8 (offOf w) = loByte w := BitVec.ofInt_toInt

/-- The low byte of a decoded instruction keeps the bits its row uses. -/
theorem lowByte_instrOf (o : Op) (w x : Word) : (instrOf o w x).lowByte = loByte w &&& loByte (usedBits o) := by
  cases o with
  | mv | ldwr | ldbr | stwr | stbr | add | sub | and | or | xor =>
    exact (registers_of_fields w).trans BitVec.and_allOnes.symm
  | jmp | jmpz | jmpnz | jmpn | jmpnn | jmpc | jmpv =>
    exact (offset_of_field w).trans BitVec.and_allOnes.symm
  | push | pop | sprd | spwr | not | inc | dec | lsh | rsh => exact register_of_field w
  | ldwi | ldbi | ldwa | ldba | stwa | stba | inb | outb => exact register_of_field w
  | tsti | tsto | br | call | ret | hlt => exact BitVec.and_zero.symm

/-- Every row uses its whole triple (R88). -/
theorem hiByte_usedBits (o : Op) : hiByte (usedBits o) = BitVec.allOnes 8 := by cases o <;> rfl

theorem word_instrOf {o : Op} {w : Word} (ho : o.hi = hiByte w) (x : Word) :
    (instrOf o w x).word = w &&& usedBits o := by
  calc (instrOf o w x).word = wordOfBytes (loByte w &&& loByte (usedBits o)) (hiByte w) := by
        rw [Instr.word, lowByte_instrOf, op_instrOf, ho]
    _ = wordOfBytes (loByte (w &&& usedBits o)) (hiByte (w &&& usedBits o)) := by
        rw [loByte_and, hiByte_and, hiByte_usedBits, BitVec.and_allOnes]
    _ = w &&& usedBits o := wordOfBytes_lo_hi _

/-- A signed byte is in the range of R86. -/
theorem offsetInRange_offOf (w : Word) : offsetInRange (offOf w) = true := by
  have hlo : -128 ≤ offOf w := BitVec.le_toInt (loByte w)
  have hhi : offOf w < 128 := BitVec.toInt_lt (x := loByte w)
  exact (offsetInRange_iff _).mpr ⟨hlo, by omega⟩

theorem wellFormed_instrOf (o : Op) (w x : Word) : WellFormed (instrOf o w x) := by
  cases o with
  | jmp | jmpz | jmpnz | jmpn | jmpnn | jmpc | jmpv => exact offsetInRange_offOf w
  | _ => rfl

theorem ext_instrOf (o : Op) (w x : Word) : (instrOf o w x).ext = none ∨ (instrOf o w x).ext = some x := by
  cases o with
  | ldwi | ldbi | ldwa | ldba | stwa | stba | inb | outb | tsti | tsto | br | call => exact .inr rfl
  | _ => exact .inl rfl

/-- A decoded instruction is its row, read at the words: the row is the one whose high byte is the word's. -/
theorem decodeWords_row {w x : Word} {i : Instr} (h : decodeWords w x = .ok i) :
    i.op.hi = hiByte w ∧ i = instrOf i.op w x := by
  obtain ⟨ho, hi⟩ := decodeWords_eq_ok.mp h
  exact ⟨hi_of_opOfHi ho, hi⟩

/-- Settles O2: the parts of the decoded row, by their lemmas. -/
theorem encodingADecodedWordClearsOnlyIgnoredBits : Obligations.EncodingADecodedWordClearsOnlyIgnoredBits := by
  intro w x i h
  obtain ⟨hhi, hi⟩ := decodeWords_row h
  generalize i.op = o at hhi hi
  subst hi
  exact ⟨wellFormed_instrOf o w x, word_instrOf hhi x, hhi, ext_instrOf o w x⟩

/-! The triples of the map -/

/-- The triples R89 lists: the legal opcodes of each group and mode. -/
abbrev InCatalog (g m : BitVec 2) (c : BitVec 4) : Prop :=
  (g = 0 ∧ m = 0 ∧ c ∈ ([4, 8, 9, 0xD, 0xE] : List (BitVec 4))) ∨
  (g = 0 ∧ m = 1 ∧ c ∈ ([0, 1] : List (BitVec 4))) ∨
  (g = 0 ∧ (m = 2 ∨ m = 3) ∧ c ∈ ([0, 1, 2, 3] : List (BitVec 4))) ∨
  (g = 1 ∧ m = 0 ∧ c ∈ ([0, 1, 2, 3, 4, 5, 8, 9, 0xA, 0xB] : List (BitVec 4))) ∨
  (g = 2 ∧ m = 0 ∧ c ∈ ([1, 3, 4, 5] : List (BitVec 4))) ∨
  (g = 3 ∧ m = 0 ∧ c ∉ ([0xA, 0xB, 0xC, 0xD, 0xE] : List (BitVec 4)))

/-- Every row's triple is listed. -/
theorem inCatalog_of_row (o : Op) :
    InCatalog (o.hi.extractLsb' 6 2) (o.hi.extractLsb' 4 2) (o.hi.extractLsb' 0 4) := by
  cases o <;> decide

/-- Every listed triple is a row's, clause by clause of the list. -/
theorem isRow_of_inCatalog {g m : BitVec 2} {c : BitVec 4} (h : InCatalog g m c) :
    (opOfHi (g ++ m ++ c)).isSome = true := by
  rcases h with ⟨rfl, rfl, hc⟩ | ⟨rfl, rfl, hc⟩ | ⟨rfl, rfl | rfl, hc⟩ | ⟨rfl, rfl, hc⟩ | ⟨rfl, rfl, hc⟩ |
    ⟨rfl, rfl, hc⟩
  all_goals
    revert c
    decide

/-- The high byte is `grp :: mode :: opc` (R81). -/
theorem hiByte_eq_triple (w : Word) : hiByte w = grpOf w ++ modeOf w ++ opcOf w := by
  have hgm : grpOf w ++ modeOf w = w.extractLsb' 12 4 := BitVec.extractLsb'_append_extractLsb'_eq_extractLsb' rfl
  have hhi : w.extractLsb' 12 4 ++ opcOf w = hiByte w := BitVec.extractLsb'_append_extractLsb'_eq_extractLsb' rfl
  rw [hgm, hhi]

theorem isRow_iff_inCatalog (w : Word) :
    (opOfHi (hiByte w)).isSome = true ↔ InCatalog (grpOf w) (modeOf w) (opcOf w) := by
  constructor
  · intro h
    obtain ⟨o, ho⟩ := Option.isSome_iff_exists.mp h
    rw [grpOf_eq, modeOf_eq, opcOf_eq, ← hi_of_opOfHi ho]
    exact inCatalog_of_row o
  · intro h
    rw [hiByte_eq_triple]
    exact isRow_of_inCatalog h

theorem decodeWords_illegalTriple (w x : Word) :
    (∃ h, decodeWords w x = .error (.illegalTriple h)) ↔ opOfHi (hiByte w) = none := by
  unfold decodeWords
  cases opOfHi (hiByte w) <;> simp

/-- Settles O3: the decoder answers the error where the triple is no row's, and the rows' triples are those listed. -/
theorem illegalTriplesAreThoseOutsideTheCatalog : Obligations.IllegalTriplesAreThoseOutsideTheCatalog := by
  intro w x
  rw [decodeWords_illegalTriple, ← Option.not_isSome_iff_eq_none]
  exact not_congr (isRow_iff_inCatalog w)

/-! Extension words -/

/-- `needs_of` and the mode look at the triple alone (R103). -/
theorem needsOf_congr {v w : Word} (h : hiByte v = hiByte w) : needsOf v = needsOf w := by
  simp only [needsOf, isOp, modeOf_eq, grpOf_eq, h]

theorem modeOf_congr {v w : Word} (h : hiByte v = hiByte w) : modeOf v = modeOf w := by
  rw [modeOf_eq, modeOf_eq, h]

/-- R91 row by row, on the word whose low byte is 0. -/
theorem hasExt_iff_needsOf (o : Op) :
    o.hasExt = true ↔ needsOf (wordOfBytes 0 o.hi) = true ∧ modeOf (wordOfBytes 0 o.hi) ≠ 3 := by
  cases o <;> decide

/-- Settles O4: the row's high byte, which is the decoded word's, decides both sides. -/
theorem extensionWordExactlyWhenNeedsOfAndModeNotThree :
    Obligations.ExtensionWordExactlyWhenNeedsOfAndModeNotThree := by
  intro w x i h
  have hhi : hiByte w = hiByte (wordOfBytes 0 i.op.hi) := by rw [hiByte_wordOfBytes, (decodeWords_row h).1]
  rw [isSome_ext, needsOf_congr hhi, modeOf_congr hhi]
  exact hasExt_iff_needsOf i.op

/-! Sample words, and the offset of a jump -/

/-- Settles O5: the decoder evaluates to each instruction. -/
theorem wordsOfTheSpecDecode : Obligations.WordsOfTheSpecDecode := ⟨rfl, rfl, rfl, rfl, rfl, rfl, rfl⟩

/-- The instructions of the JMP family with the offset `off`, each with whether it is taken in `s` (R171 to R177). -/
abbrev jumpsIn (off : Int) (s : State) : List (Instr × Bool) :=
  [(Instr.jmp off, true), (.jmpz off, s.flags.z), (.jmpnz off, !s.flags.z), (.jmpn off, s.flags.n),
    (.jmpnn off, !s.flags.n), (.jmpc off, s.flags.c), (.jmpv off, s.flags.v)]

theorem exec_jumpsIn {off : Int} {s : State} {p : Instr × Bool} (hp : p ∈ jumpsIn off s) :
    exec p.1 s = relJump p.2 off s := by
  simp only [List.mem_cons, List.not_mem_nil, or_false] at hp
  rcases hp with rfl | rfl | rfl | rfl | rfl | rfl | rfl <;> rfl

/-- A decoded jump's offset is the field `off` of the word. -/
theorem offOf_of_decodeWords {off : Int} {s : State} {p : Instr × Bool} (hp : p ∈ jumpsIn off s) {w x : Word}
    (h : decodeWords w x = .ok p.1) : off = offOf w := by
  have hrow := (decodeWords_row h).2
  simp only [List.mem_cons, List.not_mem_nil, or_false] at hp
  rcases hp with rfl | rfl | rfl | rfl | rfl | rfl | rfl <;> simpa [Instr.op, instrOf] using hrow

/-- A taken jump whose sum is a 16-bit number goes to that number (R182). -/
theorem relJump_inRange {off : Int} {s : State} (hlo : 0 ≤ (s.pc.toNat : Int) + off)
    (hhi : (s.pc.toNat : Int) + off < 65536) :
    ∃ t, relJump true off s = .next t ∧ (t.pc.toNat : Int) = (s.pc.toNat : Int) + off := by
  obtain ⟨t, ht, -, htaken, -⟩ := relJump_next true off s
  exact ⟨t, ht, (htaken rfl).trans (Int.emod_eq_of_lt hlo hhi)⟩

/-- Settles O56: the offset by the decoded row, its range as a signed byte's, the target by `relJump_inRange`. -/
theorem relativeOffsetIsTheSignExtendedLowByte : Obligations.RelativeOffsetIsTheSignExtendedLowByte := by
  intro w x off s p hp h
  have hoff : off = offOf w := offOf_of_decodeWords hp h
  obtain ⟨hlo, hhi⟩ : -128 ≤ off ∧ off ≤ 127 := by
    rw [hoff]
    exact (offsetInRange_iff _).mp (offsetInRange_offOf w)
  have hsext : sextOffset off = (w.extractLsb' 0 8).signExtend 16 := by
    rw [hoff]
    rfl
  refine ⟨hoff, hlo, hhi, hsext, fun htaken hsum0 hsum => ?_⟩
  rw [exec_jumpsIn hp, htaken]
  exact relJump_inRange hsum0 hsum

end Sys2Proof.Machine

/-! # The phase machine, tick by tick (O16 to O20, O22)

Each phase before IE has one equation that gives the state it leaves: `tick_IF_next`, `tick_ID`, `tick_OF_next`.
What the operand fetch reads is `afterOperands`, one lemma for each of its forms (R104 to R107). -/

namespace Sys2Proof.Machine

/-! The fetch (R102) -/

theorem tick_IF_next {s : State} (h : s.phaseNext = .IF) (hok : s.wordAccessOk s.pc) :
    tick s = .next (afterFetch s) := by
  rw [tick_IF h, fetch, memRead_next (s := { s with phaseNow := .IF }) (.inr hok)]
  rfl

/-- Settles O16: the tick by `tick_IF_next`, the word by what a read answers in RAM, at the last byte and outside. -/
theorem fetchTickLoadsTheInstructionRegister : Obligations.FetchTickLoadsTheInstructionRegister := by
  intro s h hok
  refine ⟨_, tick_IF_next h hok, rfl, rfl, rfl, rfl, ⟨rfl, rfl, rfl⟩, memAnswer_inRam, fun hlast => ?_,
    memAnswer_outside true, fun _ => rfl, fun _ => rfl, rfl, rfl, rfl, rfl, rfl, rfl⟩
  have hin : s.pc.toNat < s.ramSize := by omega
  rw [State.fetchedWord, State.memAnswer, if_pos hin, toNat_memValue, if_neg (by omega), Nat.add_zero]

/-! The decode (R103) -/

theorem isOp_eq_false (o : Op) (w : Word) : isOp o w = false ↔ hiByte w ≠ o.hi := by
  rw [← Bool.not_eq_true, isOp_iff]

theorem toNat_triple_eq_iff (w : Word) (o : Op) : (w.extractLsb' 8 8).toNat = o.hi.toNat ↔ isOp o w = true := by
  rw [isOp_iff, BitVec.toNat_inj, hiByte]

/-- `needs_of(ir)` on the fields of the instruction word as numbers. -/
theorem needsOf_iff (w : Word) : needsOf w = true ↔
    ((w.extractLsb' 12 2).toNat > 0 ∧ (w.extractLsb' 8 8).toNat ≠ 0x32 ∧ (w.extractLsb' 8 8).toNat ≠ 0x33) ∨
      (w.extractLsb' 14 2).toNat = 2 ∨ (w.extractLsb' 8 8).toNat = 0xC0 ∨ (w.extractLsb' 8 8).toNat = 0xC8 := by
  have hmode : (w.extractLsb' 12 2).toNat > 0 ↔ modeOf w ≠ 0 := by
    rw [gt_iff_lt, Nat.pos_iff_ne_zero, ne_eq, ne_eq, ← BitVec.toNat_inj]; rfl
  have hgrp : (w.extractLsb' 14 2).toNat = 2 ↔ grpOf w = 2 := by rw [← BitVec.toNat_inj]; rfl
  have hstwr : (w.extractLsb' 8 8).toNat = 0x32 ↔ isOp .stwr w = true := toNat_triple_eq_iff w .stwr
  have hstbr : (w.extractLsb' 8 8).toNat = 0x33 ↔ isOp .stbr w = true := toNat_triple_eq_iff w .stbr
  have hbr : (w.extractLsb' 8 8).toNat = 0xC0 ↔ isOp .br w = true := toNat_triple_eq_iff w .br
  have hcall : (w.extractLsb' 8 8).toNat = 0xC8 ↔ isOp .call w = true := toNat_triple_eq_iff w .call
  rw [hmode, hgrp, ne_eq, ne_eq, ne_eq, hstwr, hstbr, hbr, hcall]
  simp [needsOf, and_assoc, or_assoc]

/-- Settles O17: `decodePhase` sets the bus and the phases alone, and `needs_of` chooses by `needsOf_iff`. -/
theorem decodeTickClearsTheBusAndChoosesTheNextPhase :
    Obligations.DecodeTickClearsTheBusAndChoosesTheNextPhase := by
  intro s h
  refine ⟨_, tick_ID h, rfl, rfl, fun hneeds => ?_, fun hneeds => ?_, rfl⟩
  · exact if_pos ((needsOf_iff s.ir).mpr hneeds)
  · exact if_neg (mt (needsOf_iff s.ir).mp hneeds)

/-! The operand fetch (R104 to R107) -/

/-- The state after the reads of mode 2 (R106). -/
def afterAbsolute (s : State) : State :=
  if isOp .ldwa s.ir then afterRead (s.memAnswer s.pc true) .word (afterRead s.pc .word s).advancePc
  else if isOp .ldba s.ir then afterRead (s.memAnswer s.pc true) .byte (afterRead s.pc .word s).advancePc
  else (afterRead s.pc .word s).advancePc

/-- The width of the read of mode 3 (R107). -/
def indirectWidth (ir : Word) : Width := if isOp .ldbr ir then .byte else .word

/-- The state after the reads of the operand fetch, where they have a step. -/
def afterOperands (s : State) : State :=
  if modeOf s.ir = 2 then afterAbsolute s
  else if modeOf s.ir = 3 then afterRead (s.reg (rbOf s.ir)) (indirectWidth s.ir) s
  else (afterRead s.pc .word s).advancePc

/-- The reads of the operand fetch have a step: the word at `pc` where the mode reads one, LDWA's second word, and the
word at the register's address (R57). -/
def State.operandsOk (s : State) : Prop :=
  (modeOf s.ir ≠ 3 → s.wordAccessOk s.pc) ∧
  (isOp .ldwa s.ir = true → s.wordAccessOk (s.memAnswer s.pc true)) ∧
  (modeOf s.ir = 3 → isOp .ldbr s.ir = false → s.wordAccessOk (s.reg (rbOf s.ir)))

/-- `o` is a stop at a straddling word. -/
def Straddles (o : Res) : Prop := ∃ a, o = .fault (.straddlingWord a)

theorem memRead_of_not_wordAccessOk {a : Word} {s : State} (h : ¬ s.wordAccessOk a) : Straddles (memRead a .word s) :=
  have ⟨hp, ha⟩ := straddles_of_not_wordAccessOk h
  ⟨a, memRead_straddles hp ha⟩

theorem modeOf_of_isOp {o : Op} {w : Word} (h : isOp o w = true) : modeOf w = o.hi.extractLsb' 4 2 := by
  rw [modeOf_eq, (isOp_iff o w).mp h]

theorem modeOf_ldwa {w : Word} (h : isOp .ldwa w = true) : modeOf w = 2 := modeOf_of_isOp h

theorem modeOf_ldba {w : Word} (h : isOp .ldba w = true) : modeOf w = 2 := modeOf_of_isOp h

theorem modeOf_ldbr {w : Word} (h : isOp .ldbr w = true) : modeOf w = 3 := modeOf_of_isOp h

theorem isOp_ldwa_eq_false {w : Word} (h : modeOf w ≠ 2) : isOp .ldwa w = false :=
  Bool.eq_false_iff.mpr (mt modeOf_ldwa h)

theorem isOp_ldba_eq_false {w : Word} (h : modeOf w ≠ 2) : isOp .ldba w = false :=
  Bool.eq_false_iff.mpr (mt modeOf_ldba h)

theorem ne_two_and_ne_three {m : BitVec 2} (h : m = 0 ∨ m = 1) : m ≠ 2 ∧ m ≠ 3 := by
  rcases h with rfl | rfl <;> decide

/-- After its address word the operand fetch of mode 2 makes one more read, or none (R106). -/
theorem ofAbsolute_eq {s : State} (hpc : s.wordAccessOk s.pc) :
    ofAbsolute s =
      if isOp .ldwa s.ir then memRead (s.memAnswer s.pc true) .word (afterRead s.pc .word s).advancePc
      else if isOp .ldba s.ir then memRead (s.memAnswer s.pc true) .byte (afterRead s.pc .word s).advancePc
      else .next (afterRead s.pc .word s).advancePc := by
  rw [ofAbsolute, memRead_next (.inr hpc)]
  rfl

theorem ofAbsolute_next {s : State} (hpc : s.wordAccessOk s.pc)
    (hldwa : isOp .ldwa s.ir = true → s.wordAccessOk (s.memAnswer s.pc true)) :
    ofAbsolute s = .next (afterAbsolute s) := by
  rw [ofAbsolute_eq hpc, afterAbsolute]
  split
  case isTrue h => exact memRead_next (.inr (hldwa h))
  split
  case isTrue => exact memRead_next (.inl rfl)
  case isFalse => rfl

theorem operandReads_next {s : State} (hok : s.operandsOk) : operandReads s = .next (afterOperands s) := by
  obtain ⟨hpc, hldwa, hrb⟩ := hok
  unfold operandReads afterOperands
  split
  case isTrue hm => exact ofAbsolute_next (hpc (by rw [hm]; decide)) hldwa
  split
  case isTrue hm =>
    unfold ofRegisterIndirect indirectWidth
    split
    case isTrue => exact memRead_next (.inl rfl)
    case isFalse h => exact memRead_next (.inr (hrb hm (Bool.eq_false_iff.mpr h)))
  case isFalse hm => rw [ofFollowingWord, memRead_next (.inr (hpc hm)), andThen_next]

theorem Straddles.andThen {o : Res} (h : Straddles o) (f : State → Res) : Straddles (andThen o f) := by
  obtain ⟨a, rfl⟩ := h
  exact ⟨a, rfl⟩

theorem operandReads_straddles {s : State} (h : ¬ s.operandsOk) : Straddles (operandReads s) := by
  by_cases hm : modeOf s.ir = 3
  case pos =>
    have h2 : modeOf s.ir ≠ 2 := by rw [hm]; decide
    have hldwa : isOp .ldwa s.ir = false := isOp_ldwa_eq_false h2
    obtain ⟨hldbr, hrb⟩ : isOp .ldbr s.ir = false ∧ ¬ s.wordAccessOk (s.reg (rbOf s.ir)) := by
      simpa [State.operandsOk, hm, hldwa] using h
    rw [operandReads, if_neg h2, if_pos hm, ofRegisterIndirect, if_neg (by simp [hldbr])]
    exact memRead_of_not_wordAccessOk hrb
  by_cases hpc : s.wordAccessOk s.pc
  case pos =>
    obtain ⟨hldwa, ha⟩ : isOp .ldwa s.ir = true ∧ ¬ s.wordAccessOk (s.memAnswer s.pc true) := by
      simpa only [State.operandsOk, hm, hpc, implies_true, false_implies, and_true, true_and, Classical.not_imp]
        using h
    rw [operandReads, if_pos (modeOf_ldwa hldwa), ofAbsolute_eq hpc, if_pos hldwa]
    exact memRead_of_not_wordAccessOk ha
  case neg =>
    have hread : Straddles (memRead s.pc .word s) := memRead_of_not_wordAccessOk hpc
    rw [operandReads, if_neg hm]
    split
    · exact hread.andThen _
    · exact hread.andThen _

/-- The tags after the operand fetch (R104). -/
def endOF (s : State) : State := { s with phaseNow := .OF, phaseNext := .IE }

/-- The reads neither look at the tags nor write them. -/
theorem afterOperands_tags (s : State) :
    { afterOperands { s with phaseNow := .OF } with phaseNext := .IE } = endOF (afterOperands s) := by
  unfold afterOperands afterAbsolute
  dsimp only
  split
  · split
    · rfl
    split <;> rfl
  split <;> rfl

/-- Everything a tick with OF due can do. -/
theorem tick_OF_cases {s : State} (h : s.phaseNext = .OF) :
    (s.operandsOk ∧ tick s = .next (endOF (afterOperands s))) ∨
    (¬ s.operandsOk ∧ Straddles (tick s)) := by
  rw [tick_OF h, operandFetch]
  by_cases hok : s.operandsOk
  · exact .inl ⟨hok, by rw [operandReads_next (s := { s with phaseNow := .OF }) hok, andThen_next, afterOperands_tags]⟩
  · exact .inr ⟨hok, (operandReads_straddles (s := { s with phaseNow := .OF }) hok).andThen _⟩

theorem tick_OF_next {s : State} (h : s.phaseNext = .OF) (hok : s.operandsOk) :
    tick s = .next (endOF (afterOperands s)) :=
  (tick_OF_cases h).elim And.right fun hno => absurd hok hno.1

/-! The three forms of the operand fetch -/

theorem afterOperands_oneWord {s : State} (hm : modeOf s.ir ≠ 3) (ha : isOp .ldwa s.ir = false)
    (hb : isOp .ldba s.ir = false) : afterOperands s = (afterRead s.pc .word s).advancePc := by
  rw [afterOperands, afterAbsolute, if_neg hm, if_neg (Bool.eq_false_iff.mp ha),
    if_neg (Bool.eq_false_iff.mp hb), ite_self]

theorem afterOperands_absolute {s : State} (hm : modeOf s.ir = 2) : afterOperands s = afterAbsolute s := if_pos hm

theorem afterOperands_indirect {s : State} (hm : modeOf s.ir = 3) :
    afterOperands s = afterRead (s.reg (rbOf s.ir)) (indirectWidth s.ir) s := by
  simp [afterOperands, hm]

theorem afterAbsolute_ldwa {s : State} (h : isOp .ldwa s.ir = true) :
    afterAbsolute s = afterRead (s.memAnswer s.pc true) .word (afterRead s.pc .word s).advancePc := if_pos h

theorem afterAbsolute_ldba {s : State} (h : isOp .ldba s.ir = true) :
    afterAbsolute s = afterRead (s.memAnswer s.pc true) .byte (afterRead s.pc .word s).advancePc := by
  have hldwa : isOp .ldwa s.ir = false := by
    rw [isOp_eq_false, (isOp_iff .ldba s.ir).mp h]
    decide
  simp [afterAbsolute, hldwa, h]

theorem afterAbsolute_other {s : State} (ha : isOp .ldwa s.ir = false) (hb : isOp .ldba s.ir = false) :
    afterAbsolute s = (afterRead s.pc .word s).advancePc := by
  simp [afterAbsolute, ha, hb]

theorem afterAbsolute_pc (s : State) : (afterAbsolute s).pc = s.pc + 2 := by
  unfold afterAbsolute
  split
  · rfl
  split <;> rfl

theorem memAnswer_inside {s : State} {a : Word} (w : Bool) (h : a.toNat < s.ramSize) :
    s.memAnswer a w = s.memValue a.toNat w := if_pos h

/-- A memory read shows on the latches, `ar` and `dr` (R58). -/
theorem busReadSeen_afterRead {a v : Word} {n : Width} {s : State} (hv : s.memAnswer a n.isWord = v) :
    BusReadSeen a v true n.isWord (afterRead a n s) := by
  subst hv
  exact ⟨rfl, rfl, rfl⟩

theorem indirectWidth_ldbr {w : Word} (h : isOp .ldbr w = true) : indirectWidth w = .byte := if_pos h

theorem indirectWidth_other {w : Word} (h : isOp .ldbr w = false) : indirectWidth w = .word :=
  if_neg (Bool.eq_false_iff.mp h)

/-- Settles O18: in modes 0 and 1 the tick is one word read at `pc`. -/
theorem operandTickReadsTheFollowingWord : Obligations.OperandTickReadsTheFollowingWord := by
  intro s h hm hok
  obtain ⟨h2, h3⟩ := ne_two_and_ne_three hm
  have hops : s.operandsOk := ⟨fun _ => hok, fun hl => absurd (modeOf_ldwa hl) h2, fun hm3 => absurd hm3 h3⟩
  refine ⟨_, tick_OF_next h hops, ?_⟩
  rw [afterOperands_oneWord h3 (isOp_ldwa_eq_false h2) (isOp_ldba_eq_false h2)]
  exact ⟨⟨rfl, rfl, rfl⟩, rfl, memAnswer_outside true, rfl, rfl, rfl⟩

/-- Settles O19: the frame is that of every operand fetch; what the bus shows is the last of the one or two reads. -/
theorem operandTickReadsThroughTheAbsoluteAddress : Obligations.OperandTickReadsThroughTheAbsoluteAddress := by
  intro s h hm hpc hldwa
  have h3 : modeOf s.ir ≠ 3 := by simp [hm]
  have hops : s.operandsOk :=
    ⟨fun _ => hpc, fun hl => hldwa ((isOp_iff .ldwa s.ir).mp hl), fun hm3 => absurd hm3 h3⟩
  have ht := tick_OF_next h hops
  obtain ⟨hnow, hnext, frame⟩ := tick_OF_frame h ht
  rw [afterOperands_absolute hm] at ht hnow hnext frame
  refine ⟨_, ht, afterAbsolute_pc _, hnow, hnext, fun hw hin => ?_, fun hw hin => ?_, fun hw hout => ?_,
    fun hw hout => ?_, fun ha hb => ?_, frame⟩
  · rw [afterAbsolute_ldwa ((isOp_iff .ldwa s.ir).mpr hw)]
    exact busReadSeen_afterRead (n := .word) (memAnswer_inside true hin)
  · rw [afterAbsolute_ldba ((isOp_iff .ldba s.ir).mpr hw)]
    exact busReadSeen_afterRead (n := .byte) (memAnswer_inside false hin)
  · rw [afterAbsolute_ldwa ((isOp_iff .ldwa s.ir).mpr hw)]
    exact busReadSeen_afterRead (n := .word) (memAnswer_outside true hout)
  · rw [afterAbsolute_ldba ((isOp_iff .ldba s.ir).mpr hw)]
    exact busReadSeen_afterRead (n := .byte) (memAnswer_outside false hout)
  · rw [afterAbsolute_other ((isOp_eq_false .ldwa s.ir).mpr ha) ((isOp_eq_false .ldba s.ir).mpr hb)]
    exact ⟨rfl, rfl, rfl⟩

/-- Settles O20: in mode 3 the tick is one read, a byte for LDBR and a word otherwise, in RAM or outside. -/
theorem operandTickReadsAtTheRegisterAddress : Obligations.OperandTickReadsAtTheRegisterAddress := by
  intro s h hm hok
  have hops : s.operandsOk := ⟨fun h3 => absurd hm h3, fun hl => by simp [modeOf_ldwa hl] at hm,
    fun _ hb => hok ((isOp_eq_false .ldbr s.ir).mp hb)⟩
  refine ⟨_, tick_OF_next h hops, ?_⟩
  rw [afterOperands_indirect hm]
  refine ⟨rfl, rfl, fun hw hin => ?_, fun hw hin => ?_, fun hw hout => ?_, fun hw hout => ?_, rfl⟩
  · rw [indirectWidth_ldbr ((isOp_iff .ldbr s.ir).mpr hw)]
    exact busReadSeen_afterRead (n := .byte) (memAnswer_inside false hin)
  · rw [indirectWidth_other ((isOp_eq_false .ldbr s.ir).mpr hw)]
    exact busReadSeen_afterRead (n := .word) (memAnswer_inside true hin)
  · rw [indirectWidth_ldbr ((isOp_iff .ldbr s.ir).mpr hw)]
    exact busReadSeen_afterRead (n := .byte) (memAnswer_outside false hout)
  · rw [indirectWidth_other ((isOp_eq_false .ldbr s.ir).mpr hw)]
    exact busReadSeen_afterRead (n := .word) (memAnswer_outside true hout)

/-! The stopped machine (R101) -/

/-- `t` is `s` but for `phase_now` and the key. -/
def SameButTagAndKey (s t : State) : Prop :=
  { t with phaseNow := s.phaseNow, iod := { t.iod with key := s.iod.key } } = s

theorem SameButTagAndKey.refl (s : State) : SameButTagAndKey s s := rfl

theorem SameButTagAndKey.trans {s t u : State} (h : SameButTagAndKey s t) (h' : SameButTagAndKey t u) :
    SameButTagAndKey s u := by
  unfold SameButTagAndKey at *
  rw [← h]
  conv_rhs => rw [← h']

theorem SameButTagAndKey.phaseNext_eq {s t : State} (h : SameButTagAndKey s t) : t.phaseNext = s.phaseNext :=
  (congrArg State.phaseNext h :)

/-- What the host can do to a stopped machine short of a reset. -/
theorem host_stopped {op : HostOp} {s t : State} (hs : s.stopped = true) (hop : isReset op = false)
    (h : host op s = .next t) : SameButTagAndKey s t := by
  have htick : ∀ {t}, tick s = .next t → SameButTagAndKey s t := by
    intro t ht
    rw [tick_stopped hs] at ht
    cases ht
    rfl
  cases op with
  | tick => exact htick h
  | phase p =>
    rw [host] at h
    split at h
    · exact htick h
    · cases h
  | reset r => cases hop
  | input k => cases h; rfl

theorem hostRun_stopped {ops : List HostOp} {s t : State} (hs : s.stopped = true)
    (hops : ∀ op ∈ ops, isReset op = false) (h : hostRun ops s = .next t) : SameButTagAndKey s t := by
  induction ops generalizing s with
  | nil => cases h; exact .refl _
  | cons op ops ih =>
    obtain ⟨hop, hops⟩ := List.forall_mem_cons.mp hops
    obtain ⟨u, hu, ht⟩ := andThen_eq_next.mp h
    have hsu : SameButTagAndKey s u := host_stopped hs hop hu
    have hus : u.stopped = true := by rw [State.stopped, hsu.phaseNext_eq]; exact hs
    exact hsu.trans (ih hus hops ht)

/-- Settles O22: a tick by `tick_stopped`, a run of the host by induction on its operations. -/
theorem stoppedMachineStaysStoppedUntilReset : Obligations.StoppedMachineStaysStoppedUntilReset := by
  refine ⟨fun s hs => ⟨tick_stopped hs, tick_stopped (s := { s with phaseNow := s.phaseNext }) hs⟩,
    fun ops s t hs hops h => ?_⟩
  have hst : SameButTagAndKey s t := hostRun_stopped hs hops h
  exact ⟨hst.phaseNext_eq, hst⟩

end Sys2Proof.Machine

/-! # The ticks of one instruction (O21, O23 to O25, O31)

A step is a tick and, unless that tick was an instruction's last, the step from there on (`step_eq_tick_then_step`).
From IF that is the ticks before IE and then IE (`step_eq_toExecute_then_execute`). The state IE starts in is written
out as `atExecute`; `toExecute_cases` says when it is reached. -/

namespace Sys2Proof.Machine

/-! Sequences -/

theorem andThen_congr {o : Res} {f g : State → Res} (h : ∀ t, o = .next t → f t = g t) : andThen o f = andThen o g := by
  cases o with
  | next t => exact h t rfl
  | _ => rfl

theorem andThen_assoc (o : Res) (f g : State → Res) :
    andThen (andThen o f) g = andThen o fun t => andThen (f t) g := by
  cases o <;> rfl

/-! The step as a run of ticks (R110) -/

/-- How many ticks an instruction has left at most when this phase is due. -/
def ticksLeft : Phase → Nat
  | .IF => 4
  | .ID => 3
  | .OF => 2
  | .IE | .HALTED | .FAULT => 1

theorem hostTick_IF_due {s t : State} (hp : s.phaseNext = .IF) (h : hostTick s = .next t) : t.phaseNext = .ID := by
  rcases tick_IF_cases ((takeKey_phaseNext s).trans hp) with ⟨-, e⟩ | ⟨-, -, e⟩ <;> rw [hostTick, e] at h <;> cases h
  rfl

theorem hostTick_ID_due {s t : State} (hp : s.phaseNext = .ID) (h : hostTick s = .next t) :
    t.phaseNext = .OF ∨ t.phaseNext = .IE := by
  rw [hostTick, tick_ID ((takeKey_phaseNext s).trans hp)] at h
  cases h
  exact ite_eq_or_eq ..

theorem hostTick_OF_due {s t : State} (hp : s.phaseNext = .OF) (h : hostTick s = .next t) : t.phaseNext = .IE := by
  obtain ⟨-, hnext, -⟩ := tick_OF_frame ((takeKey_phaseNext s).trans hp) h
  exact hnext

/-- Each phase before IE brings the instruction closer to it, and stops nothing. -/
theorem hostTick_before_last {s t : State} (hs : s.phaseNext.isLast = false) (h : hostTick s = .next t) :
    t.stopped = false ∧ ticksLeft t.phaseNext < ticksLeft s.phaseNext := by
  cases hp : s.phaseNext with
  | IF => simp [State.stopped, hostTick_IF_due hp h, ticksLeft]
  | ID => rcases hostTick_ID_due hp h with hnext | hnext <;> simp [State.stopped, hnext, ticksLeft]
  | OF => simp [State.stopped, hostTick_OF_due hp h, ticksLeft]
  | IE | HALTED | FAULT => simp [hp, Phase.isLast] at hs

theorem ticksLeft_pos (p : Phase) : 0 < ticksLeft p := by cases p <;> decide

/-- A run given more ticks than the instruction has left uses no more than those. -/
theorem runPhases_succ {n : Nat} {s : State} (h : ticksLeft s.phaseNext ≤ n) : runPhases (n + 1) s = runPhases n s := by
  induction n generalizing s with
  | zero => exact absurd (ticksLeft_pos s.phaseNext) (by omega)
  | succ n ih =>
    refine andThen_congr fun t ht => ?_
    split
    case isTrue => rfl
    case isFalse hl =>
      have hs : s.phaseNext.isLast = false := by rw [← hostTick_phaseNow ht]; exact Bool.eq_false_iff.mpr hl
      have := (hostTick_before_last hs ht).2
      exact ih (by omega)

theorem step_eq_tick_then_step (s : State) :
    step s = andThen (hostTick s) fun t => if s.phaseNext.isLast then .next t else step t := by
  refine andThen_congr fun t ht => ?_
  rw [hostTick_phaseNow ht]
  split
  case isTrue => rfl
  case isFalse hl =>
    have hlt := (hostTick_before_last (Bool.eq_false_iff.mpr hl) ht).2
    have hle : ticksLeft s.phaseNext ≤ 4 := by cases s.phaseNext <;> decide
    exact (runPhases_succ (n := 3) (by omega)).symm

/-- The phases before IE: the step goes on after the tick. -/
theorem step_before_last {s : State} (h : s.phaseNext.isLast = false) : step s = andThen (hostTick s) step := by
  rw [step_eq_tick_then_step, h]
  rfl

/-- IE, and a stopped machine's tick, end the step. -/
theorem step_last {s : State} (h : s.phaseNext.isLast = true) : step s = hostTick s := by
  rw [step_eq_tick_then_step, h]
  cases hostTick s <;> rfl

theorem stopped_iff (s : State) : s.stopped = true ↔ s.phaseNext = .HALTED ∨ s.phaseNext = .FAULT := by
  simp [State.stopped]

theorem step_stopped {s : State} (h : s.stopped = true) :
    step s = .next { takeKey s with phaseNow := (takeKey s).phaseNext } := by
  have hlast : s.phaseNext.isLast = true := by rcases (stopped_iff s).mp h with e | e <;> rw [e] <;> rfl
  rw [step_last hlast, hostTick, tick_stopped (by rw [State.stopped, takeKey_phaseNext]; exact h)]

/-- IE has run, and IF, HALTED or FAULT is due. -/
def AfterExecute (t : State) : Prop :=
  t.phaseNow = .IE ∧ (t.phaseNext = .IF ∨ t.phaseNext = .HALTED ∨ t.phaseNext = .FAULT)

theorem hostTick_IE {s : State} (h : s.phaseNext = .IE) : hostTick s = execute { takeKey s with phaseNow := .IE } :=
  tick_IE (by rw [takeKey_phaseNext, h])

theorem execute_afterExecute {s t : State} (h : execute { s with phaseNow := .IE } = .next t) : AfterExecute t := by
  obtain ⟨⟨⟨-, -, -, hnow, -⟩, -⟩, hnext⟩ := execute_cases h
  exact ⟨hnow, hnext.imp_right (Or.imp And.left And.left)⟩

/-- The step of a machine that is not stopped ends after an IE, by induction on the ticks left. -/
theorem step_afterExecute {n : Nat} {s t : State} (hn : ticksLeft s.phaseNext ≤ n) (hs : s.stopped = false)
    (h : step s = .next t) : AfterExecute t := by
  induction n generalizing s with
  | zero => exact absurd (ticksLeft_pos s.phaseNext) (by omega)
  | succ n ih =>
    by_cases hl : s.phaseNext.isLast = true
    case pos =>
      have hie : s.phaseNext = .IE := by
        cases hp : s.phaseNext <;> simp [State.stopped, hp, Phase.isLast] at hs hl ⊢
      rw [step_last hl, hostTick_IE hie] at h
      exact execute_afterExecute h
    case neg =>
      have hl : s.phaseNext.isLast = false := Bool.eq_false_iff.mpr hl
      rw [step_before_last hl] at h
      obtain ⟨u, hu, ht⟩ := andThen_eq_next.mp h
      obtain ⟨hus, hlt⟩ := hostTick_before_last hl hu
      exact ih (by omega) hus ht

/-- Settles O31: a stopped machine by `step_stopped`, any other by `step_afterExecute`. -/
theorem stepEndsBetweenInstructions : Obligations.StepEndsBetweenInstructions := by
  intro s t h
  cases hs : s.stopped
  case true =>
    have hdue := (stopped_iff s).mp hs
    rw [step_stopped hs] at h
    cases h
    have hnext := takeKey_phaseNext s
    rw [← hnext] at hdue
    exact ⟨.inr ⟨rfl, hdue⟩, by simp, fun _ => ⟨hnext, hnext⟩, .inr hdue⟩
  case false =>
    obtain ⟨hnow, hnext⟩ := step_afterExecute (Nat.le_refl _) hs h
    exact ⟨.inl hnow, fun _ => hnow, by simp, hnext⟩

/-! The ticks before IE, and IE -/

theorem step_IE {s : State} (h : s.phaseNext = .IE) : step s = execute { takeKey s with phaseNow := .IE } := by
  rw [step_last (by rw [h]; rfl), hostTick_IE h]

theorem step_eq_toExecute_then_execute {s : State} (h : s.phaseNext = .IF) :
    step s = andThen (toExecute s) execute := by
  rw [step_before_last (by rw [h]; rfl), toExecute, andThen_assoc]
  refine andThen_congr fun t ht => ?_
  have hID := hostTick_IF_due h ht
  rw [step_before_last (by rw [hID]; rfl), andThen_assoc]
  refine andThen_congr fun u hu => ?_
  rcases hostTick_ID_due hID hu with hOF | hIE
  · rw [if_pos hOF, step_before_last (by rw [hOF]; rfl), andThen_assoc]
    exact andThen_congr fun v hv => step_IE (hostTick_OF_due hOF hv)
  · rw [if_neg (by simp [hIE]), step_IE hIE, andThen_next]

/-! What the ticks before IE keep -/

/-- What the ticks before IE leave as it was, the key aside where the host's schedule is not empty. -/
structure KeepsBeforeExecute (s u : State) : Prop where
  regs : u.regs = s.regs
  mem : u.mem = s.mem
  flags : u.flags = s.flags
  sp : u.sp = s.sp
  out : u.iod.out = s.iod.out
  cfg : u.cfg = s.cfg
  ramSize : u.ramSize = s.ramSize
  quiet : s.keyInputs = [] → u.keyInputs = [] ∧ u.iod = s.iod

theorem KeepsBeforeExecute.trans {s t u : State} (h : KeepsBeforeExecute s t) (h' : KeepsBeforeExecute t u) :
    KeepsBeforeExecute s u where
  regs := h'.regs.trans h.regs
  mem := h'.mem.trans h.mem
  flags := h'.flags.trans h.flags
  sp := h'.sp.trans h.sp
  out := h'.out.trans h.out
  cfg := h'.cfg.trans h.cfg
  ramSize := h'.ramSize.trans h.ramSize
  quiet hk :=
    have ⟨hkt, hiod⟩ := h.quiet hk
    have ⟨hku, hiod'⟩ := h'.quiet hkt
    ⟨hku, hiod'.trans hiod⟩

theorem KeepsBeforeExecute.withTags {s t : State} (h : KeepsBeforeExecute s t) (now next : Phase) :
    KeepsBeforeExecute s { t with phaseNow := now, phaseNext := next } :=
  ⟨h.regs, h.mem, h.flags, h.sp, h.out, h.cfg, h.ramSize, h.quiet⟩

theorem takeKey_keepsBeforeExecute (s : State) : KeepsBeforeExecute s (takeKey s) :=
  ⟨takeKey_regs s, takeKey_mem s, takeKey_flags s, takeKey_sp s, takeKey_out s, takeKey_cfg s, takeKey_ramSize s,
    fun h => by rw [takeKey_nil h]; exact ⟨h, rfl⟩⟩

theorem afterFetch_keepsBeforeExecute (s : State) : KeepsBeforeExecute s (afterFetch s) :=
  ⟨rfl, rfl, rfl, rfl, rfl, rfl, rfl, fun h => ⟨h, rfl⟩⟩

theorem decodePhase_keepsBeforeExecute (s : State) : KeepsBeforeExecute s (decodePhase { s with phaseNow := .ID }) :=
  ⟨rfl, rfl, rfl, rfl, rfl, rfl, rfl, fun h => ⟨h, rfl⟩⟩

/-- What every read and the move of `pc` keep, the operand fetch keeps. -/
theorem afterOperands_keeps {P : State → Prop} {s : State} (hs : P s)
    (hread : ∀ a n t, P t → P (afterRead a n t)) (hpc : ∀ t, P t → P t.advancePc) : P (afterOperands s) := by
  have hword : P (afterRead s.pc .word s).advancePc := hpc _ (hread _ _ _ hs)
  unfold afterOperands afterAbsolute
  split
  · split
    · exact hread _ _ _ hword
    split
    · exact hread _ _ _ hword
    · exact hword
  split
  · exact hread _ _ _ hs
  · exact hword

theorem afterOperands_ir (s : State) : (afterOperands s).ir = s.ir :=
  afterOperands_keeps (P := fun t => t.ir = s.ir) rfl (fun _ _ _ h => h) fun _ h => h

theorem afterOperands_keyInputs (s : State) : (afterOperands s).keyInputs = s.keyInputs :=
  afterOperands_keeps (P := fun t => t.keyInputs = s.keyInputs) rfl (fun _ _ _ h => h) fun _ h => h

theorem afterOperands_keepsBeforeExecute (s : State) : KeepsBeforeExecute s (afterOperands s) :=
  afterOperands_keeps ⟨rfl, rfl, rfl, rfl, rfl, rfl, rfl, fun h => ⟨h, rfl⟩⟩
    (fun _ _ _ h => ⟨h.regs, h.mem, h.flags, h.sp, h.out, h.cfg, h.ramSize, h.quiet⟩)
    (fun _ h => ⟨h.regs, h.mem, h.flags, h.sp, h.out, h.cfg, h.ramSize, h.quiet⟩)

theorem afterOperands_pc {s : State} (hm : modeOf s.ir ≠ 3) : (afterOperands s).pc = s.pc + 2 := by
  rw [afterOperands, if_neg hm]
  split
  · exact afterAbsolute_pc s
  · rfl

/-! The state after the decode -/

/-- The state after the fetch and the decode of the instruction at `pc`, under the host's schedule. -/
def afterDecode (s : State) : State := decodePhase { takeKey (afterFetch (takeKey s)) with phaseNow := .ID }

/-- The same after the host's next entry: where the operand fetch reads, or IE starts. -/
def operandStart (s : State) : State := takeKey (afterDecode s)

theorem fetchedWord_takeKey (s : State) : (takeKey s).fetchedWord = s.fetchedWord := by
  rw [State.fetchedWord, takeKey_pc]
  exact memAnswer_congr (takeKey_mem s) (takeKey_ramSize s) (by rw [takeKey_bus]) _ _

theorem afterDecode_ir (s : State) : (afterDecode s).ir = s.fetchedWord :=
  (takeKey_ir _).trans (fetchedWord_takeKey s)

theorem afterDecode_phaseNext (s : State) : (afterDecode s).phaseNext = if needsOf s.fetchedWord then .OF else .IE := by
  rw [← afterDecode_ir]
  rfl

@[simp] theorem operandStart_ir (s : State) : (operandStart s).ir = s.fetchedWord :=
  (takeKey_ir _).trans (afterDecode_ir s)

@[simp] theorem operandStart_pc (s : State) : (operandStart s).pc = s.pc + 2 := by
  have hpc : (operandStart s).pc = (takeKey s).pc + 2 := (takeKey_pc _).trans (takeKey_pc _)
  rw [hpc, takeKey_pc]

@[simp] theorem operandStart_bus (s : State) : (operandStart s).bus = clearedBus := takeKey_bus _

theorem operandStart_keeps (s : State) : KeepsBeforeExecute s (operandStart s) :=
  (takeKey_keepsBeforeExecute s).trans <| (afterFetch_keepsBeforeExecute _).trans <|
    (takeKey_keepsBeforeExecute _).trans <| (decodePhase_keepsBeforeExecute _).trans <| takeKey_keepsBeforeExecute _

theorem operandStart_keyInputs (s : State) : (operandStart s).keyInputs = s.keyInputs.drop 3 := by
  have hk : (operandStart s).keyInputs = (takeKey (afterFetch (takeKey s))).keyInputs.drop 1 := takeKey_keyInputs _
  have hk' : (afterFetch (takeKey s)).keyInputs = s.keyInputs.drop 1 := takeKey_keyInputs s
  rw [hk, takeKey_keyInputs, hk', List.drop_drop, List.drop_drop]

@[simp] theorem operandStart_reg (s : State) (r : Reg) : (operandStart s).reg r = s.reg r :=
  reg_congr (operandStart_keeps s).regs r

/-- What a read of the operand fetch answers: what memory holds, or 0 from the cleared bus (R51, R71). -/
theorem operandStart_memAnswer (s : State) (a : Word) (w : Bool) :
    (operandStart s).memAnswer a w = if a.toNat < s.ramSize then s.memValue a.toNat w else 0 := by
  have hk := operandStart_keeps s
  rw [State.memAnswer, hk.ramSize, memValue_congr hk.mem hk.ramSize, operandStart_bus]
  rfl

@[simp] theorem operandStart_followingWord (s : State) :
    (operandStart s).memAnswer (s.pc + 2) true = s.followingWord := operandStart_memAnswer s _ _

@[simp] theorem operandStart_wordAccessOk (s : State) (a : Word) :
    (operandStart s).wordAccessOk a ↔ s.wordAccessOk a := by
  have hk := operandStart_keeps s
  rw [State.wordAccessOk, hk.cfg, hk.ramSize, State.wordAccessOk]

/-! The state IE starts in -/

/-- The state IE starts in, where the reads before it have a step (R102 to R107). -/
def atExecute (s : State) : State :=
  if needsOf s.fetchedWord then { takeKey (endOF (afterOperands (operandStart s))) with phaseNow := .IE }
  else { operandStart s with phaseNow := .IE }

theorem needsOf_mode_two {w : Word} (h : modeOf w = 2) : needsOf w = true := by
  have hstwr : isOp .stwr w = false := Bool.eq_false_iff.mpr fun hw => by simp [modeOf_of_isOp hw, Op.hi] at h
  have hstbr : isOp .stbr w = false := Bool.eq_false_iff.mpr fun hw => by simp [modeOf_of_isOp hw, Op.hi] at h
  simp [needsOf, h, hstwr, hstbr]

theorem needsOf_ldbr {w : Word} (h : isOp .ldbr w = true) : needsOf w = true := by
  have hhi : hiByte w = hiByte (wordOfBytes 0 Op.ldbr.hi) :=
    ((isOp_iff .ldbr w).mp h).trans (hiByte_wordOfBytes ..).symm
  rw [needsOf_congr hhi]
  decide

/-- `fetchOk` says of each read before IE that it has a step. -/
theorem fetchOk_iff (s : State) :
    s.fetchOk ↔ s.wordAccessOk s.pc ∧ (needsOf s.fetchedWord = true → (operandStart s).operandsOk) := by
  have hldwa : isOp .ldwa s.fetchedWord = true → needsOf s.fetchedWord = true :=
    fun h => needsOf_mode_two (modeOf_ldwa h)
  simp only [State.operandsOk, operandStart_ir, operandStart_pc, operandStart_followingWord, operandStart_wordAccessOk,
    operandStart_reg]
  simp only [State.fetchOk, State.wordAccessOk, State.takesFollowingWord]
  cases s.cfg.straddlePolicy
  case bytewise => simp
  case fault => grind

theorem hostTick_IF_cases {s : State} (h : s.phaseNext = .IF) :
    (s.wordAccessOk s.pc ∧ hostTick s = .next (afterFetch (takeKey s))) ∨
    (¬ s.wordAccessOk s.pc ∧ Straddles (hostTick s)) := by
  have hIF : (takeKey s).phaseNext = .IF := (takeKey_phaseNext s).trans h
  have hok : (takeKey s).wordAccessOk (takeKey s).pc ↔ s.wordAccessOk s.pc := by
    simp only [State.wordAccessOk, takeKey_cfg, takeKey_ramSize, takeKey_pc]
  rw [← hok]
  rcases tick_IF_cases hIF with hnext | ⟨hp, ha, e⟩
  · exact .inl hnext
  · refine .inr ⟨?_, _, e⟩
    rintro (hbytewise | hne)
    · rw [hbytewise] at hp; cases hp
    · exact hne ha

/-- The ticks after the fetch. -/
theorem toExecute_of_fetch {s : State} (h : hostTick s = .next (afterFetch (takeKey s))) :
    toExecute s = if needsOf s.fetchedWord then
      andThen (tick (operandStart s)) fun v => .next { takeKey v with phaseNow := .IE }
    else .next { operandStart s with phaseNow := .IE } := by
  have hdecode : hostTick (afterFetch (takeKey s)) = .next (afterDecode s) := tick_ID (takeKey_phaseNext _)
  rw [toExecute, h, andThen_next, hdecode, andThen_next, afterDecode_phaseNext]
  cases needsOf s.fetchedWord <;> rfl

/-- Everything the ticks before IE can do: they reach IE, or a read of theirs is a straddling word without a step. -/
theorem toExecute_cases {s : State} (h : s.phaseNext = .IF) :
    (s.fetchOk ∧ toExecute s = .next (atExecute s)) ∨ (¬ s.fetchOk ∧ Straddles (toExecute s)) := by
  rw [fetchOk_iff]
  rcases hostTick_IF_cases h with ⟨hok, hfetch⟩ | ⟨hno, hstop⟩
  case inr => exact .inr ⟨fun hf => hno hf.1, hstop.andThen _⟩
  rw [toExecute_of_fetch hfetch, atExecute]
  cases hn : needsOf s.fetchedWord
  case false => exact .inl ⟨⟨hok, fun h => by cases h⟩, rfl⟩
  have hOF : (operandStart s).phaseNext = .OF := by
    rw [operandStart, takeKey_phaseNext, afterDecode_phaseNext, if_pos hn]
  rcases tick_OF_cases hOF with ⟨hops, hread⟩ | ⟨hno, hstop⟩
  · exact .inl ⟨⟨hok, fun _ => hops⟩, by rw [hread]; rfl⟩
  · exact .inr ⟨fun hf => hno (hf.2 rfl), hstop.andThen _⟩

theorem toExecute_next {s : State} (h : s.phaseNext = .IF) (hok : s.fetchOk) : toExecute s = .next (atExecute s) :=
  (toExecute_cases h).elim And.right fun hno => absurd hok hno.1

theorem toExecute_eq_next {s u : State} (h : s.phaseNext = .IF) (hu : toExecute s = .next u) : u = atExecute s := by
  rcases toExecute_cases h with ⟨-, e⟩ | ⟨-, a, e⟩ <;> rw [e] at hu <;> cases hu
  rfl

theorem atExecute_of_needsOf {s : State} (h : needsOf s.fetchedWord = true) :
    atExecute s = { takeKey (endOF (afterOperands (operandStart s))) with phaseNow := .IE } := if_pos h

theorem atExecute_of_not_needsOf {s : State} (h : needsOf s.fetchedWord = false) :
    atExecute s = { operandStart s with phaseNow := .IE } := if_neg (Bool.eq_false_iff.mp h)

@[simp] theorem atExecute_ir (s : State) : (atExecute s).ir = s.fetchedWord := by
  cases h : needsOf s.fetchedWord
  · rw [atExecute_of_not_needsOf h]
    exact operandStart_ir s
  · rw [atExecute_of_needsOf h]
    exact (takeKey_ir _).trans ((afterOperands_ir _).trans (operandStart_ir s))

theorem atExecute_phases (s : State) : (atExecute s).phaseNow = .IE ∧ (atExecute s).phaseNext = .IE := by
  cases h : needsOf s.fetchedWord
  · rw [atExecute_of_not_needsOf h]
    exact ⟨rfl, (takeKey_phaseNext _).trans (by rw [afterDecode_phaseNext, h]; rfl)⟩
  · rw [atExecute_of_needsOf h]
    exact ⟨rfl, takeKey_phaseNext _⟩

theorem atExecute_keeps (s : State) : KeepsBeforeExecute s (atExecute s) := by
  have hstart := operandStart_keeps s
  cases h : needsOf s.fetchedWord
  · rw [atExecute_of_not_needsOf h]
    exact hstart.withTags .IE _
  · have hread : KeepsBeforeExecute s (endOF (afterOperands (operandStart s))) :=
      (hstart.trans (afterOperands_keepsBeforeExecute _)).withTags .OF .IE
    rw [atExecute_of_needsOf h]
    exact (hread.trans (takeKey_keepsBeforeExecute _)).withTags .IE _

theorem atExecute_keyInputs (s : State) :
    (atExecute s).keyInputs = s.keyInputs.drop (if needsOf s.fetchedWord = true then 4 else 3) := by
  cases h : needsOf s.fetchedWord
  · rw [atExecute_of_not_needsOf h]
    exact operandStart_keyInputs s
  · have hread : (endOF (afterOperands (operandStart s))).keyInputs = s.keyInputs.drop 3 :=
      (afterOperands_keyInputs _).trans (operandStart_keyInputs s)
    rw [atExecute_of_needsOf h, if_pos rfl]
    exact (takeKey_keyInputs _).trans (by rw [hread, List.drop_drop])

theorem atExecute_pc_of_takes {s : State} (h : s.takesFollowingWord) : (atExecute s).pc = s.pc + 4 := by
  obtain ⟨hneeds, hmode⟩ := h
  have hpc : (atExecute s).pc = (afterOperands (operandStart s)).pc := by
    rw [atExecute_of_needsOf hneeds]
    exact takeKey_pc _
  rw [hpc, afterOperands_pc (by rwa [operandStart_ir]), operandStart_pc, BitVec.add_assoc]
  rfl

theorem atExecute_pc_of_not_takes {s : State} (h : ¬ s.takesFollowingWord) : (atExecute s).pc = s.pc + 2 := by
  cases hneeds : needsOf s.fetchedWord
  · rw [atExecute_of_not_needsOf hneeds]
    exact operandStart_pc s
  · have hmode : modeOf (operandStart s).ir = 3 := by
      rw [operandStart_ir]
      exact Classical.not_not.mp fun hm => h ⟨hneeds, hm⟩
    rw [atExecute_of_needsOf hneeds]
    refine (takeKey_pc _).trans ?_
    rw [afterOperands_indirect hmode]
    exact operandStart_pc s

theorem atExecute_bus_of_not_needsOf {s : State} (h : needsOf s.fetchedWord = false) :
    (atExecute s).bus = clearedBus := by
  rw [atExecute_of_not_needsOf h]
  exact operandStart_bus s

/-! The operand on the data line -/

theorem atExecute_opnd {s : State} (h : needsOf s.fetchedWord = true) :
    (atExecute s).opnd = (afterOperands (operandStart s)).bus.data := by
  rw [atExecute_of_needsOf h]
  exact congrArg Bus.data (takeKey_bus _)

theorem atExecute_opnd_following {s : State} (h : s.takesFollowingWord) (ha : isOp .ldwa s.fetchedWord = false)
    (hb : isOp .ldba s.fetchedWord = false) : (atExecute s).opnd = s.followingWord := by
  obtain ⟨hneeds, hmode⟩ := h
  rw [← operandStart_ir] at hmode ha hb
  rw [atExecute_opnd hneeds, afterOperands_oneWord hmode ha hb, ← operandStart_followingWord, ← operandStart_pc]
  rfl

/-- The operand of mode 2 where a second read of width `n` is made at the address word (R106). -/
theorem atExecute_opnd_secondRead {s : State} {n : Width} (hm : modeOf s.fetchedWord = 2)
    (hread : afterAbsolute (operandStart s) = afterRead ((operandStart s).memAnswer (operandStart s).pc true) n
      (afterRead (operandStart s).pc .word (operandStart s)).advancePc) :
    (atExecute s).opnd = if s.followingWord.toNat < s.ramSize then s.memValue s.followingWord.toNat n.isWord
      else s.followingWord := by
  have hk := operandStart_keeps s
  have hanswer : (atExecute s).opnd =
      if s.followingWord.toNat < (operandStart s).ramSize then (operandStart s).memValue s.followingWord.toNat n.isWord
      else s.followingWord := by
    rw [atExecute_opnd (needsOf_mode_two hm), afterOperands_absolute (by rwa [operandStart_ir]), hread,
      ← operandStart_followingWord, ← operandStart_pc]
    rfl
  rw [hanswer, hk.ramSize, memValue_congr hk.mem hk.ramSize]

theorem atExecute_opnd_ldwa {s : State} (h : isOp .ldwa s.fetchedWord = true) : (atExecute s).opnd =
    if s.followingWord.toNat < s.ramSize then s.memValue s.followingWord.toNat true else s.followingWord :=
  atExecute_opnd_secondRead (modeOf_ldwa h) (afterAbsolute_ldwa (by rwa [operandStart_ir]))

theorem atExecute_opnd_ldba {s : State} (h : isOp .ldba s.fetchedWord = true) : (atExecute s).opnd =
    if s.followingWord.toNat < s.ramSize then s.memValue s.followingWord.toNat false else s.followingWord :=
  atExecute_opnd_secondRead (modeOf_ldba h) (afterAbsolute_ldba (by rwa [operandStart_ir]))

theorem atExecute_opnd_indirect {s : State} (h : needsOf s.fetchedWord = true) (hm : modeOf s.fetchedWord = 3) :
    (atExecute s).opnd =
      if (s.reg (rbOf s.fetchedWord)).toNat < s.ramSize then
        s.memValue (s.reg (rbOf s.fetchedWord)).toNat (indirectWidth s.fetchedWord).isWord else 0 := by
  have hm' : modeOf (operandStart s).ir = 3 := by rwa [operandStart_ir]
  rw [atExecute_opnd h, afterOperands_indirect hm', operandStart_ir, operandStart_reg]
  exact operandStart_memAnswer s _ _

theorem atExecute_opnd_ldbr {s : State} (h : isOp .ldbr s.fetchedWord = true) : (atExecute s).opnd =
    if (s.reg (rbOf s.fetchedWord)).toNat < s.ramSize then s.memValue (s.reg (rbOf s.fetchedWord)).toNat false
    else 0 := by
  rw [atExecute_opnd_indirect (needsOf_ldbr h) (modeOf_ldbr h), indirectWidth_ldbr h]
  rfl

theorem atExecute_opnd_wordAtRegister {s : State} (hn : needsOf s.fetchedWord = true) (hm : modeOf s.fetchedWord = 3)
    (h : isOp .ldbr s.fetchedWord = false) : (atExecute s).opnd =
    if (s.reg (rbOf s.fetchedWord)).toNat < s.ramSize then s.memValue (s.reg (rbOf s.fetchedWord)).toNat true
    else 0 := by
  rw [atExecute_opnd_indirect hn hm, indirectWidth_other h]
  rfl

/-! The statements -/

/-- Settles O24: the state is `atExecute s`; its operand, `pc` and frame by their lemmas. -/
theorem operandFetchDeliversTheOperand : Obligations.OperandFetchDeliversTheOperand := by
  intro s h hok
  obtain ⟨hregs, hmem, hflags, hsp, hout, hcfg, hsize, hquiet⟩ := atExecute_keeps s
  obtain ⟨hnow, hnext⟩ := atExecute_phases s
  refine ⟨atExecute s, toExecute_next h hok, atExecute_ir s, hnow, hnext, atExecute_pc_of_takes,
    atExecute_pc_of_not_takes, atExecute_bus_of_not_needsOf, fun hn hm => ?_, atExecute_opnd_ldwa, atExecute_opnd_ldba,
    fun hm ha hb => ?_, atExecute_opnd_ldbr, atExecute_opnd_wordAtRegister, reg_congr hregs, peek_congr hmem hsize,
    hflags, hsp, hout, hcfg, hsize, fun hk => (hquiet hk).2⟩
  · obtain ⟨h2, h3⟩ := ne_two_and_ne_three hm
    exact atExecute_opnd_following ⟨hn, h3⟩ (isOp_ldwa_eq_false h2) (isOp_ldba_eq_false h2)
  · exact atExecute_opnd_following ⟨needsOf_mode_two hm, by simp [hm]⟩ ha hb

theorem isLast_eq_false_iff (p : Phase) : p.isLast = false ↔ p = .IF ∨ p = .ID ∨ p = .OF := by
  cases p <;> decide

/-- Settles O25: the host's entries used by `atExecute_keyInputs`, none of them in IE; the unrolling by
`step_eq_tick_then_step`. -/
theorem instructionTakesThreeOrFourTicks : Obligations.InstructionTakesThreeOrFourTicks := by
  refine ⟨fun s t h ht => ?_, fun s => ?_⟩
  · rw [step_eq_toExecute_then_execute h] at ht
    obtain ⟨u, hu, he⟩ := andThen_eq_next.mp ht
    obtain ⟨⟨⟨-, -, -, -, hkeys⟩, -⟩, -⟩ := execute_cases he
    rw [hkeys, toExecute_eq_next h hu, atExecute_keyInputs]
  · rw [step_eq_tick_then_step]
    refine andThen_congr fun t ht => ?_
    rw [← hostTick_phaseNow ht]
    cases hl : t.phaseNow.isLast
    case false => rw [if_pos ((isLast_eq_false_iff _).mp hl), if_neg (by simp)]
    case true => rw [if_neg (mt (isLast_eq_false_iff _).mpr (by simp [hl])), if_pos rfl]

theorem opOfHi_of_no_row {w : Word} (h : ∀ o : Op, w.extractLsb' 8 8 ≠ o.hi) : opOfHi (hiByte w) = none :=
  opOfHi_eq_none.mpr fun o => (h o).symm

/-- No row's name is that of an unmatched triple. -/
theorem isOp_of_no_row {w : Word} (h : ∀ o : Op, w.extractLsb' 8 8 ≠ o.hi) (o : Op) : isOp o w = false :=
  (isOp_eq_false o w).mpr (h o)

theorem step_illegal {s u : State} (h : s.phaseNext = .IF) (hill : ∀ o : Op, s.fetchedWord.extractLsb' 8 8 ≠ o.hi)
    (hu : toExecute s = .next u) : step s = .next { u with phaseNext := .FAULT } := by
  have hnone : opOfHi (hiByte u.ir) = none := by
    rw [toExecute_eq_next h hu, atExecute_ir]
    exact opOfHi_of_no_row hill
  rw [step_eq_toExecute_then_execute h, hu, andThen_next, execute_of_illegal hnone, raiseIllegal]

/-- Settles O21: IE answers an unmatched triple with `raiseIllegal`; the state it faults in is `atExecute s`, and its
parts are those of O24. -/
theorem illegalInstructionFaultsAndChangesNothingElse : Obligations.IllegalInstructionFaultsAndChangesNothingElse := by
  refine ⟨fun s h hill => ?_, fun s u => step_illegal, fun s h hok hill => ?_⟩
  · exact (tick_IE h).trans (execute_of_illegal (opOfHi_of_no_row hill))
  · have hu := toExecute_next h hok
    obtain ⟨hregs, hmem, hflags, hsp, hout, hcfg, hsize, -⟩ := atExecute_keeps s
    have hname : (atExecute s).mnemonic = none := by
      rw [State.mnemonic, atExecute_ir, opOfHi_of_no_row hill, Option.map_none]
    exact ⟨_, step_illegal h hill hu, (atExecute_phases s).1, rfl, hname, atExecute_ir s,
      fun ht => ⟨atExecute_pc_of_takes ht, atExecute_opnd_following ht (isOp_of_no_row hill _) (isOp_of_no_row hill _)⟩,
      atExecute_pc_of_not_takes, atExecute_bus_of_not_needsOf,
      fun hn hm => atExecute_opnd_wordAtRegister hn hm (isOp_of_no_row hill _),
      reg_congr hregs, peek_congr hmem hsize, hflags, hsp, hout, hcfg, hsize, _, hu, rfl⟩

/-! The decoded instruction -/

theorem instrOf_of_not_hasExt {o : Op} (h : o.hasExt = false) (w x y : Word) : instrOf o w x = instrOf o w y := by
  cases o with
  | ldwi | ldbi | ldwa | ldba | stwa | stba | inb | outb | tsti | tsto | br | call => cases h
  | _ => rfl

/-- LDWA and LDBA aside, an arm's extension word is the operand; those two do not look at it (R127, R128). -/
theorem exec_instrOf_congr {o : Op} {w x y : Word} (h : o.hasExt = true → o ≠ .ldwa → o ≠ .ldba → x = y) (s : State) :
    exec (instrOf o w x) s = exec (instrOf o w y) s := by
  by_cases ha : o = .ldwa
  · subst ha; rfl
  by_cases hb : o = .ldba
  · subst hb; rfl
  cases hx : o.hasExt
  · rw [instrOf_of_not_hasExt hx w x y]
  · rw [h hx ha hb]

theorem isOp_eq_false_of_ne {o o' : Op} {w : Word} (ho : o.hi = hiByte w) (h : o ≠ o') : isOp o' w = false := by
  rw [isOp_eq_false, ← ho]
  intro hhi
  have := congrArg opOfHi hhi
  simp [h] at this

/-- IE runs the instruction that the two words at `pc` decode to. -/
theorem execute_atExecute {s : State} {i : Instr} (h : decodeWords s.fetchedWord s.followingWord = .ok i) :
    execute (atExecute s) = exec i (atExecute s) := by
  obtain ⟨hhi, hi⟩ := decodeWords_row h
  have hrow : decodeWords (atExecute s).ir (atExecute s).opnd =
      .ok (instrOf i.op s.fetchedWord (atExecute s).opnd) := by
    rw [atExecute_ir, decodeWords_eq_ok, op_instrOf, ← hhi, opOfHi_hi]
    exact ⟨rfl, rfl⟩
  rw [execute_of_decode hrow]
  conv_rhs => rw [hi]
  refine exec_instrOf_congr (fun hext ha hb => ?_) _
  have htakes : s.takesFollowingWord :=
    (extensionWordExactlyWhenNeedsOfAndModeNotThree _ _ _ h).mp (by rw [isSome_ext, hext])
  exact atExecute_opnd_following htakes (isOp_eq_false_of_ne hhi ha) (isOp_eq_false_of_ne hhi hb)

theorem step_decoded {s : State} {i : Instr} (h : s.phaseNext = .IF)
    (hi : decodeWords s.fetchedWord s.followingWord = .ok i) : step s = andThen (toExecute s) (exec i) := by
  rw [step_eq_toExecute_then_execute h]
  refine andThen_congr fun u hu => ?_
  rw [toExecute_eq_next h hu]
  exact execute_atExecute hi

/-- What the decoder reads from the bytes of two words it reads from the words. -/
theorem decodeWords_of_decodeBytes {w x : Word} {i : Instr} {rest : List Byte}
    (h : decodeBytes (bytesOfWords [w, x]) = .ok (i, rest)) : decodeWords w x = .ok i := by
  cases ho : opOfHi (hiByte w) with
  | none => simp [bytesOfWords, decodeBytes, ho] at h
  | some o =>
    have hw : decodeWords w x = .ok (instrOf o w x) := by rw [decodeWords, ho]
    cases hx : o.hasExt
    case false =>
      cases (decodeBytes_oneWord ho hx (bytesOfWords [x])).symm.trans h
      rw [hw, instrOf_of_not_hasExt hx w x 0]
    case true =>
      cases (decodeBytes_twoWords ho hx x []).symm.trans h
      exact hw

/-- Settles O23: by `step_decoded`, and for bytes in RAM by what the two reads deliver there (O15). -/
theorem stepRunsTheDecodedInstruction : Obligations.StepRunsTheDecodedInstruction := by
  refine ⟨fun s i => step_decoded, fun s i rest h hroom hbytes => step_decoded h ?_⟩
  obtain ⟨hfetched, hfollowing⟩ := wordWrittenReadsBackLittleEndian.2 s hroom
  have hw : s.fetchedWord = wordOfBytes (s.peek s.pc.toNat) (s.peek (s.pc.toNat + 1)) := hfetched
  have hx : s.followingWord = wordOfBytes (s.peek (s.pc.toNat + 2)) (s.peek (s.pc.toNat + 3)) := hfollowing
  refine decodeWords_of_decodeBytes (rest := rest) ?_
  simpa only [bytesOfWords, hw, hx, loByte_wordOfBytes, hiByte_wordOfBytes] using hbytes

end Sys2Proof.Machine

/-! # Data transfer (O38 to O45)

An arm of group 0 ends in one of few ways: it writes a register (`finish_setReg_next`), loads one (`loadReg_next`,
`byteLoadReg_next`), stores (`storeWord_next`, `storeByte_next`), or uses the stack. A push is a store at the push
address with `sp` already moved; what it stored in RAM is what the next pop delivers (`popWord_of_wordStored`), to POP
and to RET alike. -/

namespace Sys2Proof.Machine

/-! Moves -/

/-- Everything an arm that writes one register and no flag does. -/
theorem finish_setReg_next (s : State) (r : Reg) (v : Word) :
    ∃ t, finish (s.setReg r v) = .next t ∧ t.reg r = v ∧ SameRegsBut r s t ∧ t.flags = s.flags ∧ RegisterArm s t :=
  ⟨_, rfl, reg_setReg_self s r v, fun q => reg_setReg_of_ne s r q v, rfl,
    ⟨rfl, rfl, rfl, rfl, rfl⟩, fun _ => rfl, ⟨rfl, rfl, rfl⟩, rfl, rfl, rfl, rfl⟩

/-- Settles O38: MV and SPRD write one register by `finish_setReg_next`, SPWR writes `sp` alone. -/
theorem registerMovesCopyAndWriteNoFlag : Obligations.RegisterMovesCopyAndWriteNoFlag :=
  ⟨fun ra rb s => finish_setReg_next s rb (s.reg ra), fun ra s => finish_setReg_next s ra s.sp,
    fun _ _ => ⟨_, rfl, rfl, ⟨⟨rfl, rfl, rfl, rfl, rfl⟩, fun _ => rfl, rfl, rfl⟩, fun _ => rfl, ⟨rfl, rfl, rfl⟩,
      rfl, rfl⟩⟩

/-! Loads -/

/-- Everything a byte load's ending does: the value is below 256, so `N` is 0 (R135, D8). -/
theorem byteLoadReg_next (s : State) (r : Reg) (v : Word) :
    ∃ t, loadReg r (byteLoadValue v) s = .next t ∧ (t.reg r).toNat = v.toNat % 256 ∧ ZNFrom (t.reg r) t.flags ∧
      t.flags.n = false ∧ t.flags.c = s.flags.c ∧ t.flags.v = s.flags.v ∧ SameRegsBut r s t ∧ RegisterArm s t := by
  obtain ⟨t, ht, hreg, hzn, hframe⟩ := loadReg_next s r (byteLoadValue v)
  have hval : (t.reg r).toNat = v.toNat % 256 := by rw [hreg, toNat_byteLoadValue]
  rw [← hreg] at hzn
  have hn : t.flags.n = false := Bool.eq_false_iff.mpr fun h => by
    have := hzn.2.mp h
    omega
  exact ⟨t, ht, hval, hzn, hn, hframe⟩

/-- Settles O39: a load of the extension word, or of its low byte. -/
theorem immediateLoadsWriteTheExtensionWord : Obligations.ImmediateLoadsWriteTheExtensionWord :=
  ⟨fun ra imm s => loadReg_next s ra imm, fun ra imm s => byteLoadReg_next s ra imm⟩

/-- Settles O40: a load of the operand latch, which is `bus.data`, or of its low byte. -/
theorem memoryLoadsWriteTheOperandOnTheBus : Obligations.MemoryLoadsWriteTheOperandOnTheBus :=
  ⟨fun ra _ s => loadReg_next s ra s.bus.data, fun ra _ s => byteLoadReg_next s ra s.bus.data,
    fun ra _ s => loadReg_next s ra s.bus.data, fun ra _ s => byteLoadReg_next s ra s.bus.data⟩

/-! A load from its fetch on -/

/-- The step of an instruction that loads the operand: the ticks before IE have put it on the data line. -/
theorem step_load {s : State} {i : Instr} {ra : Reg} (h : s.phaseNext = .IF) (hok : s.fetchOk)
    (hi : decodeWords s.fetchedWord s.followingWord = .ok i) (hexec : ∀ u, exec i u = loadReg ra u.opnd u) :
    ∃ t, step s = .next t ∧ t.reg ra = (atExecute s).opnd ∧ SameRegsBut ra s t ∧ t.pc = (atExecute s).pc := by
  obtain ⟨t, ht, hreg, -, -, -, hregs, -, -, -, -, hpc, -⟩ := loadReg_next (atExecute s) ra (atExecute s).opnd
  refine ⟨t, ?_, hreg, fun q hq => ?_, hpc⟩
  · rw [step_decoded h hi, toExecute_next h hok, andThen_next, hexec, ht]
  · exact (hregs q hq).trans (reg_congr (atExecute_keeps s).regs q)

theorem isOp_of_decodeWords {w x : Word} {i : Instr} (h : decodeWords w x = .ok i) : isOp i.op w = true :=
  (isOp_iff i.op w).mpr (decodeWords_row h).1.symm

/-- Settles O41: by `step_load`, with the operand that the one read of LDWR, or the second of LDWA, delivers. -/
theorem loadStepsDeliverTheWordInMemory : Obligations.LoadStepsDeliverTheWordInMemory := by
  refine ⟨fun ra rb s h hok hi hin => ?_, fun ra addr s h hok hi hin => ?_⟩
  · have hop : isOp .ldwr s.fetchedWord = true := isOp_of_decodeWords hi
    have hhi : hiByte s.fetchedWord = hiByte (wordOfBytes 0 Op.ldwr.hi) := by
      rw [hiByte_wordOfBytes, (isOp_iff .ldwr _).mp hop]
    have hneeds : needsOf s.fetchedWord = true := (needsOf_congr hhi).trans (by decide)
    have hldbr : isOp .ldbr s.fetchedWord = false := isOp_eq_false_of_ne (decodeWords_row hi).1 Op.noConfusion
    have hrb : rb = rbOf s.fetchedWord := (Instr.ldwr.inj (decodeWords_row hi).2).2
    have htakes : ¬ s.takesFollowingWord := mt (extensionWordExactlyWhenNeedsOfAndModeNotThree _ _ _ hi).mpr nofun
    obtain ⟨t, ht, hreg, hregs, hpc⟩ := step_load h hok hi fun _ => rfl
    refine ⟨t, ht, ?_, hregs, hpc.trans (atExecute_pc_of_not_takes htakes)⟩
    rw [hreg, atExecute_opnd_wordAtRegister hneeds (modeOf_of_isOp hop) hldbr, ← hrb, if_pos (by omega)]
    rfl
  · have hop : isOp .ldwa s.fetchedWord = true := isOp_of_decodeWords hi
    have haddr : addr = s.followingWord := (Instr.ldwa.inj (decodeWords_row hi).2).2
    have htakes : s.takesFollowingWord := (extensionWordExactlyWhenNeedsOfAndModeNotThree _ _ _ hi).mp rfl
    obtain ⟨t, ht, hreg, hregs, hpc⟩ := step_load h hok hi fun _ => rfl
    refine ⟨t, ht, ?_, hregs, hpc.trans (atExecute_pc_of_takes htakes)⟩
    rw [hreg, atExecute_opnd_ldwa hop, ← haddr, if_pos (by omega)]
    rfl

/-! Stores -/

/-- Everything but memory that the ending of a store does. -/
theorem finish_afterWrite_frame (a : Word) (n : Width) (v : Word) (s : State) :
    ∃ t, finish (afterWrite a n v s) = .next t ∧ t.mem = (afterWrite a n v s).mem ∧
      t.ramSize = (afterWrite a n v s).ramSize ∧ BusWriteSeen a v true n.isWord t ∧ TransferArm s t ∧
      t.iod = s.iod ∧ t.pc = s.pc ∧ t.sp = s.sp := by
  obtain ⟨hmachine, hregs, hflags, hiod, hpc, hsp, hbus⟩ := afterWrite_frame a n v s
  exact ⟨_, rfl, rfl, rfl, hbus, ⟨hmachine, hregs, hflags, rfl⟩, hiod, hpc, hsp⟩

/-- Everything the store of a word does where the access has a step. -/
theorem storeWord_next {a : Word} (v : Word) {s : State} (h : s.wordAccessOk a) :
    ∃ t, andThen (memWrite a .word v s) finish = .next t ∧ WordStored a v s t ∧ BusWriteSeen a v true true t ∧
      TransferArm s t ∧ t.iod = s.iod ∧ t.pc = s.pc ∧ t.sp = s.sp := by
  obtain ⟨t, ht, hmem, hsize, hframe⟩ := finish_afterWrite_frame a .word v s
  refine ⟨t, ?_, (wordStored_afterWrite a v s).congr hmem hsize, hframe⟩
  rw [memWrite_next (.inr h), andThen_next, ht]

/-- Everything the store of a byte does; it always has a step. -/
theorem storeByte_next (a v : Word) (s : State) :
    ∃ t, andThen (memWrite a .byte v s) finish = .next t ∧ ByteStored a v s t ∧ BusWriteSeen a v true false t ∧
      TransferArm s t ∧ t.iod = s.iod ∧ t.pc = s.pc ∧ t.sp = s.sp := by
  obtain ⟨t, ht, hmem, hsize, hframe⟩ := finish_afterWrite_frame a .byte v s
  refine ⟨t, ?_, (byteStored_afterWrite a v s).congr hmem hsize, hframe⟩
  rw [memWrite_next (.inl rfl), andThen_next, ht]

theorem storeWord_straddles {a : Word} (v : Word) {s : State} (h : ¬ s.wordAccessOk a) :
    andThen (memWrite a .word v s) finish = .fault (.straddlingWord a) := by
  obtain ⟨hp, hlast⟩ := straddles_of_not_wordAccessOk h
  rw [memWrite_straddles hp hlast, andThen_fault]

/-- Settles O45: the store of a word or a byte at the extension word, or at the address in `rb`. -/
theorem storesStoreAtTheirAddress : Obligations.StoresStoreAtTheirAddress :=
  ⟨fun ra _ s => storeWord_next (s.reg ra), fun ra _ s => storeWord_straddles (s.reg ra),
    fun ra addr s => storeByte_next addr (s.reg ra) s,
    fun ra _ s => storeWord_next (s.reg ra), fun ra _ s => storeWord_straddles (s.reg ra),
    fun ra rb s => storeByte_next (s.reg rb) (s.reg ra) s⟩

/-! The stack -/

theorem pushAddress_predecPostinc {s : State} (h : s.cfg.stackOrder = .predecPostinc) : s.pushAddress = s.sp - 2 := by
  rw [State.pushAddress, h]

theorem pushAddress_postdecPreinc {s : State} (h : s.cfg.stackOrder = .postdecPreinc) : s.pushAddress = s.sp := by
  rw [State.pushAddress, h]

theorem popAddress_predecPostinc {s : State} (h : s.cfg.stackOrder = .predecPostinc) : s.popAddress = s.sp := by
  rw [State.popAddress, h]

theorem popAddress_postdecPreinc {s : State} (h : s.cfg.stackOrder = .postdecPreinc) : s.popAddress = s.sp + 2 := by
  rw [State.popAddress, h]

/-- Settles O42: PUSH is the store of a word at the push address, once `sp` has moved. -/
theorem pushStoresTheRegisterOnTheStack : Obligations.PushStoresTheRegisterOnTheStack := by
  intro ra s
  refine ⟨pushAddress_predecPostinc, pushAddress_postdecPreinc, fun h => ?_, fun h => ?_⟩
  · obtain ⟨t, ht, hstored, hbus, harm, hiod, hpc, hsp⟩ :=
      storeWord_next (s := { s with sp := s.sp - 2 }) (s.reg ra) h
    exact ⟨t, ht, hsp, hstored, hbus, harm, hiod, hpc⟩
  · exact storeWord_straddles (s := { s with sp := s.sp - 2 }) (s.reg ra) h

theorem popWord_straddles {s : State} (h : ¬ s.wordAccessOk s.popAddress) :
    popWord s = .fault (.straddlingWord s.popAddress) := by
  obtain ⟨hp, hlast⟩ := straddles_of_not_wordAccessOk h
  exact memRead_straddles (s := { s with sp := s.sp + 2 }) hp hlast

/-- Everything POP does where its word access has a step. -/
theorem execPop_next {ra : Reg} {s : State} (h : s.wordAccessOk s.popAddress) :
    ∃ t, execPop ra s = .next t ∧ t.sp = s.sp + 2 ∧ t.reg ra = s.memAnswer s.popAddress true ∧ SameRegsBut ra s t ∧
      BusReadSeen s.popAddress (s.memAnswer s.popAddress true) true true t ∧ SameMachine s t ∧ SameMem s t ∧
      t.flags = s.flags ∧ t.iod = s.iod ∧ t.pc = s.pc ∧ t.phaseNext = .IF := by
  rw [execPop, popWord_next h]
  exact ⟨_, rfl, rfl, reg_setReg_self _ ra _, fun q => reg_setReg_of_ne _ ra q _, ⟨rfl, rfl, rfl⟩,
    ⟨rfl, rfl, rfl, rfl, rfl⟩, fun _ => rfl, rfl, rfl, rfl, rfl⟩

/-- Settles O43: by `execPop_next`, with what a word read answers in RAM and outside. -/
theorem popLoadsTheRegisterFromTheStack : Obligations.PopLoadsTheRegisterFromTheStack := by
  intro ra s
  refine ⟨popAddress_predecPostinc, popAddress_postdecPreinc, fun h => ?_, fun h => ?_⟩
  · obtain ⟨t, ht, hsp, hreg, hframe⟩ := execPop_next (ra := ra) h
    exact ⟨t, ht, hsp, hreg, fun hin => hreg.trans (memAnswer_inRam hin),
      fun hout => hreg.trans (memAnswer_outside true hout), hframe⟩
  · rw [exec, execPop, popWord_straddles h, andThen_fault]

/-! A pop after a push -/

/-- Under either STACK_ORDER a pop looks where the last push stored (D14). -/
theorem popAddress_of_pushed {s t : State} (hcfg : t.cfg = s.cfg) (hsp : t.sp = s.sp - 2) :
    t.popAddress = s.pushAddress := by
  cases h : s.cfg.stackOrder
  case predecPostinc => rw [popAddress_predecPostinc (by rw [hcfg, h]), pushAddress_predecPostinc h, hsp]
  case postdecPreinc =>
    rw [popAddress_postdecPreinc (by rw [hcfg, h]), pushAddress_postdecPreinc h, hsp, BitVec.sub_add_cancel]

/-- A word stored in RAM reads back (R60). -/
theorem WordStored.memAnswer_eq {a v : Word} {s t : State} (h : WordStored a v s t) (hin : a.toNat + 1 < s.ramSize)
    (hsize : t.ramSize = s.ramSize) : t.memAnswer a true = v := by
  obtain ⟨hlow, hhigh, -, -⟩ := h
  rw [memAnswer_inRam (hsize ▸ hin), hlow (by omega), hhigh hin]
  exact wordOfBytes_lo_hi v

/-- Everything a push that has a step leaves. -/
theorem pushWord_stores {v : Word} {s p : State} (h : pushWord v s = .next p) :
    WordStored s.pushAddress v s p ∧ p.sp = s.sp - 2 ∧ SameMachine s p ∧ SameRegs s p ∧ p.flags = s.flags ∧
      p.iod = s.iod ∧ p.pc = s.pc ∧ BusWriteSeen s.pushAddress v true true p := by
  rcases pushWord_cases v s with ⟨-, e⟩ | ⟨-, -, e⟩ <;> rw [e] at h <;> cases h
  have hstored := wordStored_afterWrite s.pushAddress v { s with sp := s.sp - 2 }
  obtain ⟨hmachine, hregs, hflags, hiod, hpc, hsp, hbus⟩ :=
    afterWrite_frame s.pushAddress .word v { s with sp := s.sp - 2 }
  exact ⟨hstored, hsp, hmachine, hregs, hflags, hiod, hpc, hbus⟩

/-- The word pushed in `s`, where it lies in RAM, is what a pop in `t` delivers, and `sp` is back: `t` need only hold
the memory, the parameters and the `sp` that the push left. -/
theorem popWord_of_wordStored {v : Word} {s t : State} (hstored : WordStored s.pushAddress v s t)
    (hin : s.pushAddress.toNat + 1 < s.ramSize) (hcfg : t.cfg = s.cfg) (hsize : t.ramSize = s.ramSize)
    (hsp : t.sp = s.sp - 2) :
    t.wordAccessOk t.popAddress ∧ t.memAnswer t.popAddress true = v ∧ t.sp + 2 = s.sp := by
  rw [popAddress_of_pushed hcfg hsp, hsp, BitVec.sub_add_cancel]
  exact ⟨.inr (by omega), hstored.memAnswer_eq hin hsize, rfl⟩

/-- Everything RET does where its word access has a step. -/
theorem execRet_next {s : State} (h : s.wordAccessOk s.popAddress) :
    ∃ t, execRet s = .next t ∧ t.pc = s.memAnswer s.popAddress true ∧ t.sp = s.sp + 2 ∧
      BusReadSeen s.popAddress (s.memAnswer s.popAddress true) true true t ∧ TransferArm s t ∧ SameMem s t ∧
      t.iod = s.iod := by
  rw [execRet, popWord_next h]
  exact ⟨_, rfl, rfl, rfl, ⟨rfl, rfl, rfl⟩, ⟨⟨rfl, rfl, rfl, rfl, rfl⟩, fun _ => rfl, rfl, rfl⟩, fun _ => rfl, rfl⟩

/-- Settles O44: PUSH and CALL are pushes (`pushWord_stores`), and POP and RET take the word back by
`popWord_of_wordStored`. -/
theorem popUndoesPushAndRetUndoesCall : Obligations.PopUndoesPushAndRetUndoesCall := by
  refine ⟨fun ra rb s t h hin => ?_, fun target s t h hin => ?_⟩
  · obtain ⟨p, hp, hend⟩ := andThen_eq_next.mp h
    cases hend
    obtain ⟨hstored, hsp, ⟨hcfg, hsize, -⟩, hregs, hflags, -⟩ := pushWord_stores hp
    obtain ⟨hok, hword, hback⟩ :=
      popWord_of_wordStored (t := { p with phaseNext := .IF }) hstored hin hcfg hsize hsp
    obtain ⟨u, hu, husp, hureg, huregs, -, -, -, huflags, -⟩ := execPop_next (ra := rb) hok
    exact ⟨u, hu, hureg.trans hword, husp.trans hback, fun q hq => (huregs q hq).trans (hregs q), huflags.trans hflags⟩
  · obtain ⟨p, hp, hend⟩ := andThen_eq_next.mp h
    cases hend
    obtain ⟨hstored, hsp, ⟨hcfg, hsize, -⟩, hregs, hflags, -⟩ := pushWord_stores hp
    obtain ⟨hok, hword, hback⟩ :=
      popWord_of_wordStored (t := { p with pc := target, phaseNext := .IF }) hstored hin hcfg hsize hsp
    obtain ⟨u, hu, hupc, husp, -, ⟨-, huregs, huflags, -⟩, -⟩ := execRet_next hok
    exact ⟨u, hu, hupc.trans hword, husp.trans hback, fun q => (huregs q).trans (hregs q), huflags.trans hflags⟩

end Sys2Proof.Machine

/-! # Arithmetic and logic (O46 to O51)

Every arm of group 1 writes one register, with `Z` and `N` from the result and a `C` and a `V` of its own; what that
does is said once (`exec_alu_next`). What is left of each arm is arithmetic: its result, its carry and its overflow. -/

namespace Sys2Proof.Machine

/-- Everything an arm of group 1 does (R140, R152). -/
theorem exec_alu_next {i : Instr} {r : Reg} {v : Word} {c w : Bool} {s : State}
    (h : exec i s = aluResult r v (flagsOf v c w) s) :
    ∃ t, exec i s = .next t ∧ t.reg r = v ∧ t.flags.c = c ∧ t.flags.v = w ∧
      ZNFrom (t.reg r) t.flags ∧ SameRegsBut r s t ∧ RegisterArm s t := by
  obtain ⟨t, ht, hreg, hflags, hframe⟩ := aluResult_next s r v (flagsOf v c w)
  refine ⟨t, h.trans ht, hreg, congrArg Flags.c hflags, congrArg Flags.v hflags, ?_, hframe⟩
  rw [hreg, hflags]
  exact znFrom_flags v

/-! The two's complement -/

theorem twos_eq_neg (v : Word) : twos v = -v := (BitVec.neg_eq_not_add v).symm

theorem toNat_twos (v : Word) : (twos v).toNat = (65536 - v.toNat) % 65536 := by
  rw [twos_eq_neg]
  exact BitVec.toNat_neg v

theorem twos_twos (v : Word) : twos (twos v) = v := by
  rw [twos_eq_neg, twos_eq_neg, BitVec.neg_neg]

/-- Settles O46: `twos` is the negation of a 16-bit number (`twos_eq_neg`). -/
theorem twosIsTheTwosComplement : Obligations.TwosIsTheTwosComplement :=
  ⟨fun v => ⟨rfl, toNat_twos v, twos_twos v⟩, by decide, by decide⟩

/-! ADD -/

/-- `V` of an addition: the signed sum is no 16-bit number (R152). -/
theorem addV_add_iff (a b : Word) : addV a b (a + b) = true ↔ outOfRange (a.toInt + b.toInt) :=
  ne_toInt_iff_outOfRange (BitVec.toInt_add a b)

/-- Settles O47: the signed overflow is `addV_add_iff`. -/
theorem addWritesTheSumAndItsFlags : Obligations.AddWritesTheSumAndItsFlags := by
  intro ra rb s
  obtain ⟨t, ht, hreg, hc, hv, hrest⟩ := exec_alu_next (i := .add ra rb) (r := rb) (s := s) rfl
  exact ⟨t, ht, hreg ▸ BitVec.toNat_add _ _, hc ▸ decide_eq_true_iff, hv ▸ addV_add_iff _ _, hrest⟩

/-! SUB -/

theorem toNat_sub_emod (a b : Word) : ((a - b).toNat : Int) = (a.toNat - b.toNat : Int) % 65536 := by
  have h := BitVec.toNat_sub a b
  omega

/-- The carry of `a + twos(b)`: no borrow, and none at all where `b` is 0, whose complement is 0 too (R143). -/
theorem add_twos_carries_iff (a b : Word) :
    a.toNat + (twos b).toNat > 0xFFFF ↔ b.toNat ≠ 0 ∧ b.toNat ≤ a.toNat := by
  rw [toNat_twos]
  omega

theorem subOverflow_trueSigned_iff (a b : Word) :
    subOverflow .trueSigned a b = true ↔ outOfRange (a.toInt - b.toInt) :=
  ne_toInt_iff_outOfRange BitVec.toInt_sub

theorem subOverflow_twosAddition_iff (a b : Word) :
    subOverflow .twosAddition a b = true ↔ outOfRange (a.toInt + (BitVec.ofInt 16 (-b.toInt)).toInt) := by
  have hdiff : a - b = a + twos b := by rw [twos_eq_neg, BitVec.sub_eq_add_neg]
  have htwos : BitVec.ofInt 16 (-b.toInt) = twos b := by rw [twos_eq_neg, BitVec.ofInt_neg, BitVec.ofInt_toInt]
  rw [htwos, subOverflow, hdiff]
  exact addV_add_iff a (twos b)

/-- Settles O48: the carry is that of the two's-complement addition (`add_twos_carries_iff`), the overflow that of the
rule chosen. -/
theorem subWritesTheDifferenceAndItsFlags : Obligations.SubWritesTheDifferenceAndItsFlags := by
  intro ra rb s
  obtain ⟨t, ht, hreg, hc, hv, hrest⟩ := exec_alu_next (i := .sub ra rb) (r := rb) (s := s) rfl
  refine ⟨t, ht, hreg ▸ toNat_sub_emod _ _, hc ▸ decide_eq_true_iff.trans (add_twos_carries_iff _ _),
    fun hrule => ?_, fun hrule => ?_, hrest⟩
  · rw [hv, hrule]
    exact subOverflow_trueSigned_iff _ _
  · rw [hv, hrule]
    exact subOverflow_twosAddition_iff _ _

/-! NOT, AND, OR, XOR -/

/-- Settles O49: each bit of the result is the operation on the operands' bits; NOT leaves 65535 less its operand. -/
theorem logicWritesTheBitsAndClearsCarryAndOverflow : Obligations.LogicWritesTheBitsAndClearsCarryAndOverflow := by
  refine ⟨fun ra s => ?_, fun ra rb s => ?_, fun ra rb s => ?_, fun ra rb s => ?_⟩
  · obtain ⟨t, ht, hreg, hrest⟩ := exec_alu_next (i := .not ra) (r := ra) (s := s) rfl
    exact ⟨t, ht, hreg ▸ BitVec.toNat_not, hrest⟩
  · obtain ⟨t, ht, hreg, hrest⟩ := exec_alu_next (i := .and ra rb) (r := rb) (s := s) rfl
    exact ⟨t, ht, fun _ => hreg ▸ BitVec.getLsbD_and, hrest⟩
  · obtain ⟨t, ht, hreg, hrest⟩ := exec_alu_next (i := .or ra rb) (r := rb) (s := s) rfl
    exact ⟨t, ht, fun _ => hreg ▸ BitVec.getLsbD_or, hrest⟩
  · obtain ⟨t, ht, hreg, hrest⟩ := exec_alu_next (i := .xor ra rb) (r := rb) (s := s) rfl
    exact ⟨t, ht, fun _ => hreg ▸ BitVec.getLsbD_xor, hrest⟩

/-! INC and DEC -/

/-- A boundary test of R148 and R149, in the terms of the claims. -/
theorem word_beq_iff_toNat_eq (a b : Word) : (a == b) = true ↔ a.toNat = b.toNat :=
  beq_iff_eq.trans BitVec.toNat_inj.symm

theorem toNat_sub_one (a : Word) : (a - 1).toNat = (a.toNat + 65535) % 65536 := by
  rw [Nat.add_comm]
  exact BitVec.toNat_sub a 1

/-- Settles O50: the boundary tests are equalities of numbers (`word_beq_iff_toNat_eq`). -/
theorem incAndDecWriteTheResultAndBoundaryFlags : Obligations.IncAndDecWriteTheResultAndBoundaryFlags := by
  refine ⟨fun ra s => ?_, fun ra s => ?_⟩
  · obtain ⟨t, ht, hreg, hc, hv, hrest⟩ := exec_alu_next (i := .inc ra) (r := ra) (s := s) rfl
    exact ⟨t, ht, hreg ▸ BitVec.toNat_add _ _, hc ▸ word_beq_iff_toNat_eq _ _, hv ▸ word_beq_iff_toNat_eq _ _,
      hrest⟩
  · obtain ⟨t, ht, hreg, hc, hv, hrest⟩ := exec_alu_next (i := .dec ra) (r := ra) (s := s) rfl
    exact ⟨t, ht, hreg ▸ toNat_sub_one _, hc, hv ▸ word_beq_iff_toNat_eq _ _, hrest⟩

/-! LSH and RSH -/

theorem toNat_lshValue (a : Word) : (lshValue a).toNat = 2 * a.toNat % 65536 := by
  rw [lshValue, BitVec.toNat_shiftLeft, Nat.shiftLeft_eq, Nat.mul_comm]

theorem toNat_rshValue (a : Word) : (rshValue a).toNat = a.toNat / 2 := by
  rw [rshValue, BitVec.toNat_ushiftRight, Nat.shiftRight_eq_div_pow]

/-- The bit that LSH shifts out is the sign (R150). -/
theorem topBit_iff (a : Word) : a.getLsbD 15 = true ↔ 32768 ≤ a.toNat := by
  rw [← negativeFlag_iff, negativeFlag, BitVec.msb_eq_getLsbD_last]

/-- The bit that RSH shifts out is the parity (R151). -/
theorem bottomBit_iff (a : Word) : a.getLsbD 0 = true ↔ a.toNat % 2 = 1 := by
  rw [BitVec.getLsbD, Nat.testBit_zero, decide_eq_true_iff]

/-- Settles O51: the values are `toNat_lshValue` and `toNat_rshValue`; half of a 16-bit number is below 32768, so RSH
clears `N`. -/
theorem shiftsMoveByOneAndCarryTheBitShiftedOut : Obligations.ShiftsMoveByOneAndCarryTheBitShiftedOut := by
  refine ⟨fun ra s => ?_, fun ra s => ?_⟩
  · obtain ⟨t, ht, hreg, hc, hrest⟩ := exec_alu_next (i := .lsh ra) (r := ra) (s := s) rfl
    exact ⟨t, ht, hreg ▸ toNat_lshValue _, hc ▸ topBit_iff _, hrest⟩
  · obtain ⟨t, ht, hreg, hc, hv, hzn, hframe⟩ := exec_alu_next (i := .rsh ra) (r := ra) (s := s) rfl
    have hval : (t.reg ra).toNat = (s.reg ra).toNat / 2 := hreg ▸ toNat_rshValue _
    have hn : t.flags.n = false := Bool.eq_false_iff.mpr fun h => by
      have hbig := hzn.2.mp h
      omega
    exact ⟨t, ht, hval, hc ▸ bottomBit_iff _, hv, hn, hzn, hframe⟩

end Sys2Proof.Machine

/-! # Input and output (O52 to O54)

INB and OUTB make one transaction in the I/O space, which the IOD answers at one port each way (`ioRead_eq`,
`ioWrite_eq`); their arms are said once for every port (`execInb_next`, `execOutb_next`). TSTI and TSTO make no
transaction and end in a write of `Z` alone (`finish_setZ_next`). -/

namespace Sys2Proof.Machine

/-! INB -/

/-- What is on the data line after an I/O read at `a`: the key at port 1, and elsewhere the value that was there before
(R201, R71 (e)); the I/O space's `State.memAnswer`. -/
def State.ioAnswer (s : State) (a : Word) : Word := if a = 1 then zextByte s.iod.key else s.bus.data

theorem ioAnswer_key (s : State) : s.ioAnswer 1 = zextByte s.iod.key := if_pos rfl

theorem ioAnswer_unanswered {a : Word} (s : State) (h : a ≠ 1) : s.ioAnswer a = s.opnd := if_neg h

/-- Everything INB does, at any port. -/
theorem execInb_next (ra : Reg) (port : Word) (s : State) :
    ∃ t, exec (.inb ra port) s = .next t ∧ t.reg ra = byteLoadValue (s.ioAnswer port) ∧
      t.iod = (if port = 1 then { s.iod with key := 0 } else s.iod) ∧ BusReadSeen port (s.ioAnswer port) false false t ∧
      SameRegsBut ra s t ∧ t.flags = s.flags ∧ SameMachine s t ∧ SameMem s t ∧ t.pc = s.pc ∧ t.sp = s.sp ∧
      t.phaseNext = .IF :=
  ⟨_, congrArg (andThen · fun u => finish (u.setReg ra (byteLoadValue u.bus.data))) (ioRead_eq port .byte s),
    reg_setReg_self _ ra _, rfl, ⟨rfl, rfl, rfl⟩, fun q => reg_setReg_of_ne _ ra q _, rfl, ⟨rfl, rfl, rfl, rfl, rfl⟩,
    fun _ => rfl, rfl, rfl, rfl⟩

theorem toNat_byteLoadValue_zextByte (b : Byte) : (byteLoadValue (zextByte b)).toNat = b.toNat := by
  rw [toNat_byteLoadValue, toNat_zextByte, Nat.mod_eq_of_lt b.isLt]

/-- Settles O52: `execInb_next`, at the port that answers and at the others. -/
theorem inbReadsTheKeyOrTheUnansweredPort : Obligations.InbReadsTheKeyOrTheUnansweredPort := by
  intro ra port s
  obtain ⟨t, ht, hreg, hiod, hbus, hframe⟩ := execInb_next ra port s
  by_cases hport : port = 1
  · subst hport
    rw [ioAnswer_key] at hreg hbus
    rw [if_pos rfl] at hiod
    exact ⟨t, ht, fun _ => ⟨hreg ▸ toNat_byteLoadValue_zextByte _, hiod ▸ rfl, hbus⟩, fun h => absurd rfl h,
      hiod ▸ rfl, hframe⟩
  · rw [ioAnswer_unanswered s hport] at hreg hbus
    rw [if_neg hport] at hiod
    exact ⟨t, ht, fun h => absurd h hport, fun _ => ⟨hreg ▸ toNat_byteLoadValue _, hiod ▸ rfl, hbus⟩,
      hiod ▸ rfl, hframe⟩

/-! OUTB -/

/-- Everything OUTB does, at any port. -/
theorem execOutb_next (ra : Reg) (port : Word) (s : State) :
    ∃ t, exec (.outb ra port) s = .next t ∧
      t.iod = (if port = 0 then { s.iod with out := s.iod.out ++ [loByte (s.reg ra)] } else s.iod) ∧
      BusWriteSeen port (s.reg ra) false false t ∧ TransferArm s t ∧ SameMem s t ∧ t.pc = s.pc ∧ t.sp = s.sp :=
  ⟨_, congrArg (andThen · finish) (ioWrite_eq port .byte (s.reg ra) s), rfl, ⟨rfl, rfl, rfl⟩,
    ⟨⟨rfl, rfl, rfl, rfl, rfl⟩, fun _ => rfl, rfl, rfl⟩, fun _ => rfl, rfl, rfl⟩

/-- Settles O53: `execOutb_next`, at the port that takes the byte and at the others. -/
theorem outbAppendsTheLowByteAtPortZero : Obligations.OutbAppendsTheLowByteAtPortZero := by
  intro ra port s
  obtain ⟨t, ht, hiod, hframe⟩ := execOutb_next ra port s
  by_cases hport : port = 0
  · rw [if_pos hport] at hiod
    exact ⟨t, ht, fun _ => hiod ▸ rfl, fun h => absurd hport h, hiod ▸ rfl, hframe⟩
  · rw [if_neg hport] at hiod
    exact ⟨t, ht, fun h => absurd h hport, fun _ => hiod ▸ rfl, hiod ▸ rfl, hframe⟩

/-! TSTI and TSTO -/

/-- Everything an arm that writes `Z` alone does. -/
theorem finish_setZ_next (s : State) (b : Bool) :
    ∃ t, finish (s.setZ b) = .next t ∧ t.flags.z = b ∧ t.flags.n = s.flags.n ∧ t.flags.c = s.flags.c ∧
      t.flags.v = s.flags.v ∧ SameRegs s t ∧ RegisterArm s t :=
  ⟨_, rfl, rfl, rfl, rfl, rfl, fun _ => rfl, ⟨rfl, rfl, rfl, rfl, rfl⟩, fun _ => rfl, ⟨rfl, rfl, rfl⟩, rfl, rfl, rfl,
    rfl⟩

theorem inputReady_iff (s : State) (port : Word) :
    inputReady s port = true ↔ port.toNat = 1 ∧ s.iod.key.toNat ≠ 0 := by
  rw [inputReady, Bool.and_eq_true, word_beq_iff_toNat_eq, bne_iff_ne, ne_eq, ← BitVec.toNat_inj]
  rfl

theorem outputReady_iff (port : Word) : outputReady port = true ↔ port.toNat = 0 := word_beq_iff_toNat_eq port 0

/-- Settles O54: `finish_setZ_next` with the readiness of the port (`inputReady_iff`, `outputReady_iff`). -/
theorem portTestsWriteZAlone : Obligations.PortTestsWriteZAlone := by
  refine ⟨fun port s => ?_, fun port s => ?_⟩
  · obtain ⟨t, ht, hz, hframe⟩ := finish_setZ_next s (inputReady s port)
    exact ⟨t, ht, hz ▸ inputReady_iff s port, hframe⟩
  · obtain ⟨t, ht, hz, hframe⟩ := finish_setZ_next s (outputReady port)
    exact ⟨t, ht, hz ▸ outputReady_iff port, hframe⟩

end Sys2Proof.Machine

/-! # Control (O55, O57 to O59)

BR and the JMP family end in a write of `pc` alone (`finish_setPc_jump`, `relJump_jump`); CALL is a push followed by such a
write (`execCall_next`), and RET a pop (`execRet_next`). -/

namespace Sys2Proof.Machine

/-! Jumps -/

/-- Everything an arm that writes `pc` alone does. -/
theorem finish_setPc_jump (s : State) (v : Word) :
    ∃ t, finish { s with pc := v } = .next t ∧ t.pc = v ∧ JumpArm s t :=
  ⟨_, rfl, rfl, ⟨rfl, rfl, rfl, rfl, rfl⟩, fun _ => rfl, rfl, fun _ => rfl, ⟨rfl, rfl, rfl⟩, rfl, rfl, rfl⟩

/-- `relJump_next` for a test `b` of the flags that decides the condition `taken`. -/
theorem relJump_jump {taken : Prop} {b : Bool} (h : b = true ↔ taken) (off : Int) (s : State) :
    ∃ t, relJump b off s = .next t ∧ RelJumped taken off s t :=
  propext h ▸ relJump_next b off s

/-- Settles O55: each jump by the flag it tests, as it stands or negated. -/
theorem jumpsGoToTheirTargets : Obligations.JumpsGoToTheirTargets := by
  refine ⟨fun target s => finish_setPc_jump s target, fun off s => ?_⟩
  have onSet (b : Bool) : ∃ t, relJump b off s = .next t ∧ RelJumped (b = true) off s t := relJump_next b off s
  have onClear (b : Bool) : ∃ t, relJump (!b) off s = .next t ∧ RelJumped (b = false) off s t :=
    relJump_jump (Bool.not_eq_true' b).to_iff off s
  exact ⟨relJump_jump (iff_true_intro rfl) off s, onSet s.flags.z, onClear s.flags.z, onSet s.flags.n,
    onClear s.flags.n, onSet s.flags.c, onSet s.flags.v⟩

/-! CALL and RET -/

theorem pushWord_straddles (v : Word) {s : State} (h : ¬ s.wordAccessOk s.pushAddress) :
    pushWord v s = .fault (.straddlingWord s.pushAddress) := by
  obtain ⟨hp, hlast⟩ := straddles_of_not_wordAccessOk h
  exact memWrite_straddles (s := { s with sp := s.sp - 2 }) hp hlast

/-- Everything CALL does where its word access has a step. -/
theorem execCall_next (target : Word) {s : State} (h : s.wordAccessOk s.pushAddress) :
    ∃ t, execCall target s = .next t ∧ t.pc = target ∧ t.sp = s.sp - 2 ∧ WordStored s.pushAddress s.pc s t ∧
      BusWriteSeen s.pushAddress s.pc true true t ∧ TransferArm s t ∧ t.iod = s.iod := by
  have hpush := pushWord_next (v := s.pc) h
  obtain ⟨hstored, hsp, hmachine, hregs, hflags, hiod, -, hbus⟩ := pushWord_stores hpush
  rw [execCall, hpush]
  exact ⟨_, rfl, rfl, hsp, hstored, hbus, ⟨hmachine, hregs, hflags, rfl⟩, hiod⟩

/-- Settles O57: by `execCall_next`, and the push alone decides whether CALL stops. -/
theorem callPushesTheReturnAddressAndBranches : Obligations.CallPushesTheReturnAddressAndBranches := by
  refine fun target s => ⟨execCall_next target, fun h => ?_⟩
  rw [exec, execCall, pushWord_straddles s.pc h, andThen_fault]

/-- Settles O58: by `execRet_next`, with what a word read answers in RAM and outside. -/
theorem retPopsTheProgramCounter : Obligations.RetPopsTheProgramCounter := by
  refine fun s => ⟨fun h => ?_, fun h => ?_⟩
  · obtain ⟨t, ht, hpc, hframe⟩ := execRet_next h
    exact ⟨t, ht, hpc, fun hin => hpc.trans (memAnswer_inRam hin), fun hout => hpc.trans (memAnswer_outside true hout),
      hframe⟩
  · rw [exec, execRet, popWord_straddles h, andThen_fault]

/-! HLT -/

/-- Settles O59: HLT is `haltMachine`, which sets the due phase alone. -/
theorem hltEntersHaltedAndChangesNothingElse : Obligations.HltEntersHaltedAndChangesNothingElse := fun s =>
  ⟨{ s with phaseNext := .HALTED }, rfl, rfl, rfl, rfl, rfl, fun _ => rfl, fun _ => rfl, ⟨rfl, rfl, rfl⟩, rfl,
    ⟨rfl, rfl, rfl, rfl, rfl⟩⟩

end Sys2Proof.Machine

/-! # The IOD, stopping, halting and the host's keys (O14, O30, O32, O36, O37)

What can stop a step is what can stop the operations of its ticks (`StopsOnlyAtStraddle`). What a step leaves due, and
what it adds to the output, is decided in its IE (`execute_phaseNext`, `exec_out`). A key latched before an operation
that makes no I/O transaction is the key latched after it (`CommutesWithKey`). -/

namespace Sys2Proof.Machine

/-! The IOD's three answers (R199, R201, R202) -/

theorem iodOperate_readKey {s : State} (hr : s.bus.read = true) (ha : s.bus.address = 1) :
    iodOperate s = { s with bus := { s.bus with data := zextByte s.iod.key }, iod := { s.iod with key := 0 } } :=
  if_pos (by simp [hr, ha])

theorem iodOperate_writeOut {s : State} (hr : s.bus.read = false) (ha : s.bus.address = 0) :
    iodOperate s = { s with iod := { s.iod with out := s.iod.out ++ [loByte s.bus.data] } } := by
  rw [iodOperate, if_neg (by simp [hr]), if_pos (by simp [hr, ha])]

theorem iodOperate_unanswered {s : State} (hin : ¬ (s.bus.read = true ∧ s.bus.address = 1))
    (hout : ¬ (s.bus.read = false ∧ s.bus.address = 0)) : iodOperate s = s := by
  rw [iodOperate, if_neg (by simpa using hin), if_neg (by simpa using hout)]

/-- Settles O14: the cycle is the IOD's, and its answer one of the three. -/
theorem iodAnswersPortOneReadsAndPortZeroWritesOnly : Obligations.IodAnswersPortOneReadsAndPortZeroWritesOnly := by
  intro s hm
  have hcycle : busCycle s = .next (iodOperate s) := busCycle_iod hm
  refine ⟨fun hr ha => ?_, fun hr ha => ?_, fun hin hout => ?_⟩
  · rw [iodOperate_readKey hr ha] at hcycle
    exact ⟨_, hcycle, toNat_zextByte s.iod.key, rfl, rfl, rfl⟩
  · rw [iodOperate_writeOut hr ha] at hcycle
    exact ⟨_, hcycle, rfl, rfl, rfl⟩
  · rw [hcycle, iodOperate_unanswered hin hout]

/-! What stops a step (R57, R190) -/

/-- `o`, answered in `s`, is no refusal, is a fault only at a straddling word under STRADDLE_POLICY = fault, and where
it is a next state keeps what this depends on, the policy and RAM_SIZE. -/
def StopsOnlyAtStraddle (s : State) (o : Res) : Prop :=
  match o with
  | .next t => t.cfg = s.cfg ∧ t.ramSize = s.ramSize
  | .fault f => s.cfg.straddlePolicy = .fault ∧ ∃ a : Word, f = .straddlingWord a ∧ a.toNat + 1 = s.ramSize
  | .refused _ => False

theorem StopsOnlyAtStraddle.congr {s s' : State} {o : Res} (h : StopsOnlyAtStraddle s o) (hc : s.cfg = s'.cfg)
    (hr : s.ramSize = s'.ramSize) : StopsOnlyAtStraddle s' o := by
  unfold StopsOnlyAtStraddle
  rw [← hc, ← hr]
  exact h

theorem StopsOnlyAtStraddle.andThen {s : State} {o : Res} {f : State → Res} (h : StopsOnlyAtStraddle s o)
    (hf : ∀ t, StopsOnlyAtStraddle t (f t)) : StopsOnlyAtStraddle s (andThen o f) := by
  cases o with
  | next t => exact (hf t).congr h.1 h.2
  | fault f => exact h
  | refused r => exact h

theorem memRead_stopsOnlyAtStraddle (a : Word) (n : Width) (s : State) : StopsOnlyAtStraddle s (memRead a n s) := by
  rcases memRead_cases a n s with ⟨-, e⟩ | ⟨-, hp, ha, e⟩ <;> rw [e]
  · exact ⟨rfl, rfl⟩
  · exact ⟨hp, a, rfl, ha⟩

theorem memWrite_stopsOnlyAtStraddle (a : Word) (n : Width) (v : Word) (s : State) :
    StopsOnlyAtStraddle s (memWrite a n v s) := by
  rcases memWrite_cases a n v s with ⟨-, e⟩ | ⟨-, hp, ha, e⟩ <;> rw [e]
  · obtain ⟨⟨hcfg, hsize, -⟩, -⟩ := afterWrite_frame a n v s
    exact ⟨hcfg, hsize⟩
  · exact ⟨hp, a, rfl, ha⟩

theorem pushWord_stopsOnlyAtStraddle (v : Word) (s : State) : StopsOnlyAtStraddle s (pushWord v s) :=
  memWrite_stopsOnlyAtStraddle s.pushAddress .word v { s with sp := s.sp - 2 }

theorem popWord_stopsOnlyAtStraddle (s : State) : StopsOnlyAtStraddle s (popWord s) :=
  memRead_stopsOnlyAtStraddle s.popAddress .word { s with sp := s.sp + 2 }

theorem ioRead_stopsOnlyAtStraddle (a : Word) (n : Width) (s : State) : StopsOnlyAtStraddle s (ioRead a n s) := by
  rw [ioRead_eq]
  exact ⟨rfl, rfl⟩

theorem ioWrite_stopsOnlyAtStraddle (a : Word) (n : Width) (v : Word) (s : State) :
    StopsOnlyAtStraddle s (ioWrite a n v s) := by
  rw [ioWrite_eq]
  exact ⟨rfl, rfl⟩

theorem finish_stopsOnlyAtStraddle (s : State) : StopsOnlyAtStraddle s (finish s) := ⟨rfl, rfl⟩

theorem finish_setReg_stopsOnlyAtStraddle (r : Reg) (v : Word) (s : State) :
    StopsOnlyAtStraddle s (finish (s.setReg r v)) := ⟨rfl, rfl⟩

theorem relJump_stopsOnlyAtStraddle (taken : Bool) (off : Int) (s : State) :
    StopsOnlyAtStraddle s (relJump taken off s) := by
  cases taken <;> exact ⟨rfl, rfl⟩

theorem exec_stopsOnlyAtStraddle (i : Instr) (s : State) : StopsOnlyAtStraddle s (exec i s) := by
  cases i with
  | mv | sprd | spwr | ldwi | ldbi | ldwa | ldba | ldwr | ldbr => exact ⟨rfl, rfl⟩
  | add | sub | not | and | or | xor | inc | dec | lsh | rsh | tsti | tsto | br | hlt => exact ⟨rfl, rfl⟩
  | push => exact (pushWord_stopsOnlyAtStraddle _ s).andThen finish_stopsOnlyAtStraddle
  | pop => exact (popWord_stopsOnlyAtStraddle s).andThen fun t => finish_setReg_stopsOnlyAtStraddle _ _ t
  | stwa | stba | stwr | stbr => exact (memWrite_stopsOnlyAtStraddle _ _ _ s).andThen finish_stopsOnlyAtStraddle
  | inb => exact (ioRead_stopsOnlyAtStraddle _ _ s).andThen fun t => finish_setReg_stopsOnlyAtStraddle _ _ t
  | outb => exact (ioWrite_stopsOnlyAtStraddle _ _ _ s).andThen finish_stopsOnlyAtStraddle
  | jmp | jmpz | jmpnz | jmpn | jmpnn | jmpc | jmpv => exact relJump_stopsOnlyAtStraddle _ _ s
  | call => exact (pushWord_stopsOnlyAtStraddle _ s).andThen fun _ => ⟨rfl, rfl⟩
  | ret => exact (popWord_stopsOnlyAtStraddle s).andThen fun _ => ⟨rfl, rfl⟩

theorem execute_stopsOnlyAtStraddle (s : State) : StopsOnlyAtStraddle s (execute s) := by
  cases hd : decodeWords s.ir s.opnd with
  | ok i => rw [execute_of_decode hd]; exact exec_stopsOnlyAtStraddle i s
  | error e => rw [execute_of_illegal (decodeWords_error.mp ⟨e, hd⟩)]; exact ⟨rfl, rfl⟩

theorem operandReads_stopsOnlyAtStraddle (s : State) : StopsOnlyAtStraddle s (operandReads s) := by
  have hword := memRead_stopsOnlyAtStraddle s.pc .word s
  unfold operandReads
  split
  · refine hword.andThen fun t => ?_
    split
    · exact memRead_stopsOnlyAtStraddle t.bus.data .word t.advancePc
    split
    · exact memRead_stopsOnlyAtStraddle t.bus.data .byte t.advancePc
    · exact ⟨rfl, rfl⟩
  split
  · unfold ofRegisterIndirect
    split <;> exact memRead_stopsOnlyAtStraddle _ _ s
  · exact hword.andThen fun _ => ⟨rfl, rfl⟩

theorem tick_stopsOnlyAtStraddle (s : State) : StopsOnlyAtStraddle s (tick s) := by
  cases h : s.phaseNext with
  | IF =>
    rw [tick_IF h]
    exact (memRead_stopsOnlyAtStraddle s.pc .word { s with phaseNow := .IF }).andThen fun _ => ⟨rfl, rfl⟩
  | ID => rw [tick_ID h]; exact ⟨rfl, rfl⟩
  | OF =>
    rw [tick_OF h]
    exact (operandReads_stopsOnlyAtStraddle { s with phaseNow := .OF }).andThen fun _ => ⟨rfl, rfl⟩
  | IE => rw [tick_IE h]; exact execute_stopsOnlyAtStraddle { s with phaseNow := .IE }
  | HALTED | FAULT => rw [tick_stopped (by simp [State.stopped, h])]; exact ⟨rfl, rfl⟩

theorem hostTick_stopsOnlyAtStraddle (s : State) : StopsOnlyAtStraddle s (hostTick s) :=
  (tick_stopsOnlyAtStraddle (takeKey s)).congr (takeKey_cfg s) (takeKey_ramSize s)

theorem runPhases_stopsOnlyAtStraddle (n : Nat) (s : State) : StopsOnlyAtStraddle s (runPhases n s) := by
  induction n generalizing s with
  | zero => exact ⟨rfl, rfl⟩
  | succ n ih =>
    refine (hostTick_stopsOnlyAtStraddle s).andThen fun t => ?_
    split
    · exact ⟨rfl, rfl⟩
    · exact ih t

/-- Settles O30: a step is a run of ticks, and every operation a tick is made of stops at a straddling word alone. -/
theorem onlyAStraddlingWordStopsAStep : Obligations.OnlyAStraddlingWordStopsAStep := by
  intro s
  have h : StopsOnlyAtStraddle s (step s) := runPhases_stopsOnlyAtStraddle maxTicks s
  exact ⟨fun r e => (e ▸ h : StopsOnlyAtStraddle s (.refused r)),
    fun f e => (e ▸ h : StopsOnlyAtStraddle s (.fault f))⟩

/-! What IE leaves due (R190, R191, R193) -/

theorem phaseAfter_eq_HALTED_iff (i : Instr) : phaseAfter i = .HALTED ↔ i.op = .hlt := by
  constructor
  · intro h
    rcases phaseAfter_cases i with hi | ⟨-, rfl⟩
    · rw [hi] at h; cases h
    · rfl
  · intro h
    cases i with
    | hlt => rfl
    | _ => cases h

theorem phaseAfter_ne_FAULT (i : Instr) : phaseAfter i ≠ .FAULT := by
  rcases phaseAfter_cases i with hi | ⟨hi, -⟩ <;> rw [hi] <;> exact Phase.noConfusion

/-- IE leaves HALTED due exactly after HLT, and FAULT exactly after an illegal triple. -/
theorem execute_phaseNext {s t : State} (h : execute s = .next t) :
    (t.phaseNext = .HALTED ↔ opOfHi (hiByte s.ir) = some .hlt) ∧
    (t.phaseNext = .FAULT ↔ opOfHi (hiByte s.ir) = none) := by
  cases hd : decodeWords s.ir s.opnd with
  | ok i =>
    rw [execute_of_decode hd] at h
    obtain ⟨-, hnext⟩ := exec_endsIn i s t h
    rw [hnext, (decodeWords_eq_ok.mp hd).1, phaseAfter_eq_HALTED_iff]
    simp [phaseAfter_ne_FAULT]
  | error e =>
    have hill : opOfHi (hiByte s.ir) = none := decodeWords_error.mp ⟨e, hd⟩
    rw [execute_of_illegal hill] at h
    cases h
    simp [hill]

/-- An instruction that ends has run its IE in `atExecute`. -/
theorem execute_of_step_next {s t : State} (h : s.phaseNext = .IF) (ht : step s = .next t) :
    execute (atExecute s) = .next t := by
  rw [step_eq_toExecute_then_execute h] at ht
  obtain ⟨u, hu, he⟩ := andThen_eq_next.mp ht
  rwa [← toExecute_eq_next h hu]

theorem opOfHi_eq_some_iff {h : Byte} {o : Op} : opOfHi h = some o ↔ h = o.hi :=
  ⟨fun e => (hi_of_opOfHi e).symm, fun e => e ▸ opOfHi_hi o⟩

/-- Settles O32: what IE leaves due by `execute_phaseNext`, the triple being the fetched word's. -/
theorem haltedByHltAloneAndFaultedByIllegalTriplesAlone :
    Obligations.HaltedByHltAloneAndFaultedByIllegalTriplesAlone := by
  intro s t h ht
  obtain ⟨hhalted, hfault⟩ := execute_phaseNext (execute_of_step_next h ht)
  rw [atExecute_ir] at hhalted hfault
  refine ⟨hhalted.trans opOfHi_eq_some_iff, hfault.trans (opOfHi_eq_none.trans ?_)⟩
  exact forall_congr' fun _ => ne_comm

/-! A key before or after a phase (R192, R200) -/

/-- A key latched before `f` is the key latched after it. -/
def CommutesWithKey (f : State → Res) : Prop := ∀ (k : Byte) (s : State), f (s.latchKey k) = latchAfter k (f s)

theorem CommutesWithKey.andThen {f g : State → Res} (hf : CommutesWithKey f) (hg : CommutesWithKey g) :
    CommutesWithKey fun s => andThen (f s) g := by
  intro k s
  dsimp only
  rw [hf k s, latchAfter, latchAfter, andThen_assoc, andThen_assoc]
  exact andThen_congr fun t _ => hg k t

theorem memRead_commutesWithKey (a : Word) (n : Width) : CommutesWithKey (memRead a n) := by
  intro k s
  rcases memRead_cases a n s with ⟨hok, e⟩ | ⟨rfl, hp, ha, e⟩ <;> rw [e]
  · exact memRead_next (s := s.latchKey k) hok
  · exact memRead_straddles (s := s.latchKey k) hp ha

theorem memRead_pc_commutesWithKey : CommutesWithKey fun s => memRead s.pc .word s := fun k s =>
  memRead_commutesWithKey s.pc .word k s

theorem fetch_commutesWithKey : CommutesWithKey fetch :=
  memRead_pc_commutesWithKey.andThen fun _ _ => rfl

theorem ofFollowingWord_commutesWithKey : CommutesWithKey ofFollowingWord :=
  memRead_pc_commutesWithKey.andThen fun _ _ => rfl

theorem ofAbsolute_commutesWithKey : CommutesWithKey ofAbsolute := by
  refine memRead_pc_commutesWithKey.andThen fun k t => ?_
  have hir : (t.latchKey k).ir = t.ir := rfl
  rw [hir]
  split
  · exact memRead_commutesWithKey t.bus.data .word k t.advancePc
  split
  · exact memRead_commutesWithKey t.bus.data .byte k t.advancePc
  · rfl

theorem ofRegisterIndirect_commutesWithKey : CommutesWithKey ofRegisterIndirect := by
  intro k s
  have hir : (s.latchKey k).ir = s.ir := rfl
  rw [ofRegisterIndirect, ofRegisterIndirect, hir]
  split <;> exact memRead_commutesWithKey (s.reg (rbOf s.ir)) _ k s

theorem operandReads_commutesWithKey : CommutesWithKey operandReads := by
  intro k s
  have hir : (s.latchKey k).ir = s.ir := rfl
  rw [operandReads, operandReads, hir]
  split
  · exact ofAbsolute_commutesWithKey k s
  split
  · exact ofRegisterIndirect_commutesWithKey k s
  · exact ofFollowingWord_commutesWithKey k s

theorem operandFetch_commutesWithKey : CommutesWithKey operandFetch :=
  operandReads_commutesWithKey.andThen fun _ _ => rfl

/-- Settles O36: phase by phase; no phase before IE looks at the key or writes it, nor does a stopped machine's tick. -/
theorem keyBeforeOrAfterAPhaseBeforeExecuteIsTheSame : Obligations.KeyBeforeOrAfterAPhaseBeforeExecuteIsTheSame := by
  intro k s hIE
  cases h : s.phaseNext with
  | IF => rw [tick_IF h, tick_IF (s := s.latchKey k) h]; exact fetch_commutesWithKey k { s with phaseNow := .IF }
  | ID => rw [tick_ID h, tick_ID (s := s.latchKey k) h]; rfl
  | OF => rw [tick_OF h, tick_OF (s := s.latchKey k) h]; exact operandFetch_commutesWithKey k { s with phaseNow := .OF }
  | IE => exact absurd h hIE
  | HALTED | FAULT =>
    have hs : s.stopped = true := by simp [State.stopped, h]
    rw [tick_stopped hs, tick_stopped (s := s.latchKey k) hs]; rfl

/-! What joins the output (R161, R202) -/

/-- An instruction keeps the output, or it is OUTB to port 0 and a byte joins it. -/
theorem exec_out {i : Instr} {s t : State} (h : exec i s = .next t) :
    t.iod.out = s.iod.out ∨ ∃ ra b, i = .outb ra 0 ∧ t.iod.out = s.iod.out ++ [b] := by
  by_cases hi : i.op = .outb
  case neg => exact .inl (exec_keepsBut i s t h .out (out_notMem_writesOf hi))
  case pos =>
    match i, hi with
    | .outb ra port, _ =>
      obtain ⟨u, hu, hiod, -⟩ := execOutb_next ra port s
      cases hu.symm.trans h
      by_cases hport : port = 0
      · subst hport
        exact .inr ⟨ra, _, rfl, congrArg Iod.out hiod⟩
      · rw [if_neg hport] at hiod
        exact .inl (congrArg Iod.out hiod)

/-- Between its fetch and its end an instruction keeps the output, or it is OUTB to port 0 and a byte joins it. -/
theorem execute_atExecute_out {s t : State} (h : execute (atExecute s) = .next t) :
    t.iod.out = s.iod.out ∨ ∃ ra b, decodeWords s.fetchedWord s.followingWord = .ok (.outb ra 0) ∧
      t.iod.out = s.iod.out ++ [b] := by
  rw [← (atExecute_keeps s).out]
  cases hd : decodeWords s.fetchedWord s.followingWord with
  | ok i =>
    rw [execute_atExecute hd] at h
    rcases exec_out h with hsame | ⟨ra, b, rfl, hout⟩
    · exact .inl hsame
    · exact .inr ⟨ra, b, rfl, hout⟩
  | error e =>
    have hill : opOfHi (hiByte (atExecute s).ir) = none := by
      rw [atExecute_ir]
      exact decodeWords_error.mp ⟨e, hd⟩
    rw [execute_of_illegal hill] at h
    cases h
    exact .inl rfl

/-- Settles O37: by `execute_atExecute_out`; OUTB's triple and port are read off the two decoded words. -/
theorem outputOnlyGrowsAndOnlyByOutb : Obligations.OutputOnlyGrowsAndOnlyByOutb := by
  intro s t h ht
  have hie : execute (atExecute s) = .next t := execute_of_step_next h ht
  rcases execute_atExecute_out hie with hsame | ⟨ra, b, hi, hout⟩
  · exact ⟨⟨[], by rw [hsame, List.append_nil], Nat.zero_le 1⟩, fun hne => absurd hsame hne⟩
  · obtain ⟨hhi, hrow⟩ := decodeWords_row hi
    exact ⟨⟨[b], hout, Nat.le_refl 1⟩, fun _ => ⟨hhi.symm, (Instr.outb.inj hrow).2.symm⟩⟩

end Sys2Proof.Machine

/-! # The monitor's lines (O60) -/

namespace Sys2Proof.Machine

/-- Every line has at most as many characters as the monitor has columns (R203). -/
def LinesFit (m : MonitorLines) : Prop :=
  m.l0.length ≤ columns ∧ m.l1.length ≤ columns ∧ m.l2.length ≤ columns ∧ m.l3.length ≤ columns

theorem scrollLines_fit {m : MonitorLines} (h : LinesFit m) : LinesFit (scrollLines m) := by
  obtain ⟨-, h1, h2, h3⟩ := h
  exact ⟨h1, h2, h3, Nat.zero_le _⟩

/-- A change of the bottom line alone. -/
theorem LinesFit.withBottom {m : MonitorLines} (h : LinesFit m) {l : List Byte} (hl : l.length ≤ columns) :
    LinesFit { m with l3 := l } := by
  obtain ⟨h0, h1, h2, -⟩ := h
  exact ⟨h0, h1, h2, hl⟩

theorem putByte_fits {m : MonitorLines} (b : Byte) (h : LinesFit m) : LinesFit (putByte m b) := by
  have ⟨_, _, _, hbottom⟩ := h
  by_cases hn : b = 0x0A
  · rw [hn, putByte_newline]
    exact scrollLines_fit h
  by_cases hr : b = 0x0D
  · subst hr
    by_cases hfull : m.l3.length = columns
    · rw [putByte_return_full hfull]
      exact scrollLines_fit h
    · rw [putByte_return_pads hfull]
      exact h.withBottom (by simp; omega)
  by_cases hfull : m.l3.length = columns
  · rw [putByte_full hn hr hfull]
    exact (scrollLines_fit h).withBottom (show 1 ≤ columns by decide)
  · rw [putByte_appends hn hr hfull]
    exact h.withBottom (by simp; omega)

theorem monitorLines_fit (out : List Byte) : LinesFit (monitorLines out) := by
  induction out using List.reverseRecOn with
  | nil => exact ⟨Nat.zero_le _, Nat.zero_le _, Nat.zero_le _, Nat.zero_le _⟩
  | append_singleton out b ih =>
    rw [monitorLines_append]
    exact putByte_fits b ih

/-- Settles O60: the bound by induction on the output, each next byte by its equation of `putByte`. -/
theorem monitorLinesStayWithinTwentyColumns : Obligations.MonitorLinesStayWithinTwentyColumns := by
  refine ⟨rfl, fun out b m n hm hn => ?_⟩
  rw [monitorLines_append, ← hm] at hn
  subst hn
  refine ⟨hm ▸ monitorLines_fit out, fun hb => ?_, fun hb hl => ?_, fun hb hl => ?_, fun hn hr hl => ?_,
    fun hn hr hl => ?_⟩
  · rw [hb, putByte_newline, scrollLines]
  · rw [hb, putByte_return_pads hl.ne]
    refine ⟨rfl, ?_, rfl⟩
    simp [columns]; omega
  · rw [hb, putByte_return_full hl, scrollLines]
  · exact putByte_appends hn hr hl.ne
  · exact putByte_full hn hr hl

end Sys2Proof.Machine

/-! # Reset and the host (O7, O8, O27 to O29)

What a host operation that answers a next state can have done is said once (`host_eq_next`): a tick, a reset in range
or a key. Each keeps the invariant, and so does any sequence of them. -/

namespace Sys2Proof.Machine

/-! The invariant after a reset (R34, R210, R212) -/

theorem resetWith_memInv {r : ResetConfig} (h : ramSizeOk r.ramSize = true) : (State.resetWith r).memInv :=
  ⟨h, loadImage_wf r.ramSize r.image, loadImage_below r.ramSize r.image⟩

/-- IF is both the last phase and the due one, so only the pair of tags says anything. -/
theorem resetWith_phaseInv (r : ResetConfig) : (State.resetWith r).phaseInv := ⟨rfl, nofun, nofun, nofun, nofun⟩

theorem resetWith_inv {r : ResetConfig} (h : ramSizeOk r.ramSize = true) : (State.resetWith r).Inv :=
  ⟨resetWith_memInv h, resetWith_phaseInv r⟩

/-- Settles O27: the default RAM_SIZE is in range, so both parts are `resetWith_inv`. -/
theorem resetHasTheInvariant : Obligations.ResetHasTheInvariant :=
  ⟨resetWith_inv (r := defaultReset) rfl, fun _ => resetWith_inv⟩

/-! The host's operations (R100, R200, R210, R216) -/

theorem host_phase_due (s : State) : host (.phase s.phaseNext) s = tick s := if_pos rfl

theorem host_phase_outOfTurn {p : Phase} {s : State} (h : p ≠ s.phaseNext) :
    host (.phase p) s = .refused (.phaseOutOfTurn p s.phaseNext) := if_neg h

theorem host_reset_inRange {r : ResetConfig} (s : State) (h : ramSizeOk r.ramSize = true) :
    host (.reset r) s = .next { State.resetWith r with keyInputs := s.keyInputs } := if_pos h

theorem host_reset_outOfRange {r : ResetConfig} (s : State) (h : ¬ ramSizeOk r.ramSize = true) :
    host (.reset r) s = .refused (.badRamSize r.ramSize) := if_neg h

/-- Everything a host operation that answers a next state can have done. -/
theorem host_eq_next {op : HostOp} {s t : State} (h : host op s = .next t) :
    tick s = .next t ∨
    (∃ r, op = .reset r ∧ ramSizeOk r.ramSize = true ∧ t = { State.resetWith r with keyInputs := s.keyInputs }) ∨
    (∃ k, op = .input k ∧ t = s.latchKey k) := by
  cases op with
  | tick => exact .inl h
  | phase p =>
    by_cases hp : p = s.phaseNext
    · rw [hp, host_phase_due] at h
      exact .inl h
    · rw [host_phase_outOfTurn hp] at h
      cases h
  | reset r =>
    by_cases hr : ramSizeOk r.ramSize = true
    · rw [host_reset_inRange s hr] at h
      cases h
      exact .inr (.inl ⟨r, rfl, hr, rfl⟩)
    · rw [host_reset_outOfRange s hr] at h
      cases h
  | input k =>
    cases h
    exact .inr (.inr ⟨k, rfl, rfl⟩)

/-- Settles O8: the operations by their equations, the schedule by what `takeKey` does with its first entry. -/
theorem hostOperationsHaveTheirEffects : Obligations.HostOperationsHaveTheirEffects := by
  refine ⟨fun _ _ => ⟨_, rfl, rfl, rfl, rfl⟩, fun _ s hr => ⟨_, host_reset_inRange s hr, rfl, rfl⟩,
    fun _ _ => host_phase_outOfTurn, fun s => ⟨host_phase_due s, rfl⟩, fun _ _ _ hkey => ?_, fun _ _ hnone => ?_,
    fun _ hnil => ?_⟩
  · rw [hostTick, takeKey_some hkey, State.latchKey]
  · rw [hostTick, takeKey_none hnone]
  · rw [hostTick, takeKey_nil hnil]

/-! Any sequence of host operations keeps the invariant (R216) -/

/-- The invariant does not read the key, and a reset has it whatever stood before. -/
theorem host_keeps_inv {op : HostOp} {s t : State} (h : s.Inv) (ht : host op s = .next t) : t.Inv := by
  rcases host_eq_next ht with htick | ⟨r, -, hr, rfl⟩ | ⟨k, -, rfl⟩
  · exact tick_keeps_inv h htick
  · exact resetWith_inv hr
  · exact h

/-- What every host operation keeps, a sequence of them keeps. -/
theorem hostRun_keeps {P : State → Prop} (hP : ∀ op s t, P s → host op s = .next t → P t) (ops : List HostOp)
    {s t : State} (h : P s) (ht : hostRun ops s = .next t) : P t := by
  induction ops generalizing s with
  | nil => cases ht; exact h
  | cons op ops ih =>
    obtain ⟨u, hu, ht⟩ := andThen_eq_next.mp ht
    exact ih (hP op s u h hu) ht

/-- Settles O28: by induction on the operations, each by `host_keeps_inv`. -/
theorem hostRunKeepsTheInvariant : Obligations.HostRunKeepsTheInvariant :=
  fun ops _ _ h ht => hostRun_keeps (fun _ _ _ => host_keeps_inv) ops h ht

/-! The first tick after a reset (R211) -/

/-- Settles O7: after a reset IF is due at `START_ADDRESS`, so the tick is the fetch of `tick_IF_next`. -/
theorem firstTickAfterResetFetchesAtStartAddress : Obligations.FirstTickAfterResetFetchesAtStartAddress :=
  fun _ hok => ⟨_, tick_IF_next rfl hok, rfl, rfl, rfl, rfl, rfl, rfl, rfl, rfl⟩

/-! Every tick and every step has a next state under the default policy (R219) -/

/-- What can stop at a straddling word alone does not stop under STRADDLE_POLICY = bytewise. -/
theorem StopsOnlyAtStraddle.next_of_bytewise {s : State} {o : Res} (h : StopsOnlyAtStraddle s o)
    (hb : s.cfg.straddlePolicy = .bytewise) : ∃ t, o = .next t := by
  cases o with
  | next t => exact ⟨t, rfl⟩
  | fault f =>
    obtain ⟨hp, -⟩ := h
    rw [hb] at hp
    cases hp
  | refused r => exact h.elim

/-- Settles O29: a tick and a run of ticks stop at a straddling word alone. -/
theorem everyTickIsEnabledInEveryState : Obligations.EveryTickIsEnabledInEveryState := fun s hb =>
  ⟨(tick_stopsOnlyAtStraddle s).next_of_bytewise hb,
    (runPhases_stopsOnlyAtStraddle maxTicks s).next_of_bytewise hb⟩

end Sys2Proof.Machine
